-- ==== Sys2Proof/Word.lean ====
section
/-! DEFINITION. The two widths of the BSPE: the byte of buffer memory (R19) and the 64-bit word of the
registers and of a descriptor (R11, R60). -/

namespace Sys2Proof

/-- One byte of buffer memory, of a header or of an 8-bit descriptor field (R19, R61, R131). -/
abbrev Byte := BitVec 8

/-- One 64-bit register or descriptor word (R11, R60). -/
abbrev Word := BitVec 64

end Sys2Proof
end

