-- ==== Sys2Proof/Machine/Codes.lean ====
section
/-! DEFINITION. The error kinds of `STATUS.ERR` (R201) and the fault reasons of `STATUS.FCODE` (R214), with their numbers. -/

namespace Sys2Proof.Machine

/-- The values of `STATUS.ERR` (R201); 9 to 255 never appear there (U18). -/
inductive ErrKind where
  | ok
  | invalidData
  | invalidHeader
  | invalidVersion
  | invalidCodec
  | sizeMismatch
  /-- R207: reported by the host's codec step, never by a command. -/
  | compressionFailed
  /-- R208: reported by the host's codec step, never by a command. -/
  | decompressionFailed
  | dataTooLarge
  deriving DecidableEq, Repr

/-- The fault reasons (R214). `opcode` and `reserved` are found by decoding, `range` and `overlap` by the range tests. -/
inductive FaultCode where
  | opcode
  | reserved
  | range
  | overlap
  deriving DecidableEq, Repr

/-- The number of an error kind in `STATUS.ERR` (R201, D8). -/
def ErrKind.code : ErrKind → Byte
  | .ok => 0
  | .invalidData => 1
  | .invalidHeader => 2
  | .invalidVersion => 3
  | .invalidCodec => 4
  | .sizeMismatch => 5
  | .compressionFailed => 6
  | .decompressionFailed => 7
  | .dataTooLarge => 8

/-- The number of a fault reason in `STATUS.FCODE` (R214, D10). -/
def FaultCode.code : FaultCode → Byte
  | .opcode => 1
  | .reserved => 2
  | .range => 3
  | .overlap => 4

end Sys2Proof.Machine
end

