-- ==== Sys2Proof/Syntax.lean ====
section
/-! DEFINITION. The 17 commands (R65) with the operands their formats use (R63), the six-word descriptor (R60), the opcode
names and the eight formats. -/

namespace Sys2Proof

/-- A shuffle identifier (R67): 0 NoShuffle, 1 ByteShuffle, 2 BitShuffle. The reserved value 3 names no mode. -/
inductive Mode where
  | noShuffle
  | byteShuffle
  | bitShuffle
  deriving DecidableEq, Repr

/-- One descriptor: the six words in the order they are pushed (R60). -/
structure Descriptor where
  w0 : Word
  w1 : Word
  w2 : Word
  w3 : Word
  w4 : Word
  w5 : Word
  deriving DecidableEq, Repr

/-- The 17 opcodes of R65, by mnemonic. -/
inductive Opcode where
  | shuf | unshuf | bshuf | bunshuf | shufip | unshufip
  | hparse | hser | hmode | hhassh | hhasbs | hismc | dsize
  | fopen | fclose | fpre | fwrap
  deriving DecidableEq, Repr

/-- The eight formats of R63. -/
inductive Format where
  | P | I | S | H | Q | C | E | W
  deriving DecidableEq, Repr

/-- A descriptor field a format may use (R61, R62). `w4` is `HLO` or `SRC2`, `w5` is `HHI` or `LEN2`. -/
inductive Field where
  | mode | codec | level | ts | src | len | dst | w4 | w5
  deriving DecidableEq, Repr

/-- A command with its operands. `ts` is 32 bits (R70), `codec` and `level` 8 bits (R68, R69), addresses, lengths and header
immediates 64 bits (R62). -/
inductive Instr where
  /-- SHUF (R110): byte shuffle. -/
  | shuf (ts : BitVec 32) (src len dst : Word)
  /-- UNSHUF (R111): inverse byte shuffle. -/
  | unshuf (ts : BitVec 32) (src len dst : Word)
  /-- BSHUF (R112): bit shuffle. -/
  | bshuf (ts : BitVec 32) (src len dst : Word)
  /-- BUNSHUF (R113): inverse bit shuffle. -/
  | bunshuf (ts : BitVec 32) (src len dst : Word)
  /-- SHUFIP (R115): forward transform in place. -/
  | shufip (mode : Mode) (ts : BitVec 32) (src len : Word)
  /-- UNSHUFIP (R116): inverse transform in place. -/
  | unshufip (mode : Mode) (ts : BitVec 32) (src len : Word)
  /-- HPARSE (R138): parse a header from memory. -/
  | hparse (src len : Word)
  /-- HSER (R139): store a header immediate. -/
  | hser (dst hlo hhi : Word)
  /-- HMODE (R140): shuffle mode of a flags byte. -/
  | hmode (hlo : Word)
  /-- HHASSH (R141): `SHUFFLE` flag. -/
  | hhassh (hlo : Word)
  /-- HHASBS (R142): `BITSHUFFLE` flag. -/
  | hhasbs (hlo : Word)
  /-- HISMC (R143): `MEMCPY` flag. -/
  | hismc (hlo : Word)
  /-- DSIZE (R144): `NBytesOrig` of a header in memory. -/
  | dsize (src len : Word)
  /-- FOPEN (R163): validate a frame, deliver header and payload range. -/
  | fopen (src len : Word)
  /-- FCLOSE (R165): size check and inverse transform of the decoded bytes. -/
  | fclose (ts : BitVec 32) (src len dst hlo hhi : Word)
  /-- FPRE (R169): encode-side checks and forward transform. -/
  | fpre (mode : Mode) (codec level : Byte) (ts : BitVec 32) (src len dst : Word)
  /-- FWRAP (R172): assemble header and payload. -/
  | fwrap (mode : Mode) (codec : Byte) (ts : BitVec 32) (src len dst src2 len2 : Word)
  deriving DecidableEq, Repr

end Sys2Proof
end

