-- ==== Sys2Proof/WellFormed.lean ====
section
/-! DEFINITION. Which terms of `Instr` stand for a well-formed descriptor (R64). The operand types already exclude `MODE = 3`
and over-wide fields; what is left is FWRAP's `TS <= 255`. -/

namespace Sys2Proof

/-- The check of R64 that the types do not make: FWRAP stores its type size in a u8 header field, so `TS <= 255` (D20). -/
def Instr.wf : Instr → Bool
  | .fwrap _ _ ts _ _ _ _ _ => decide (ts.toNat ≤ 255)
  | .shuf _ _ _ _ | .unshuf _ _ _ _ | .bshuf _ _ _ _ | .bunshuf _ _ _ _
  | .shufip _ _ _ _ | .unshufip _ _ _ _
  | .hparse _ _ | .hser _ _ _ | .hmode _ | .hhassh _ | .hhasbs _ | .hismc _ | .dsize _ _
  | .fopen _ _ | .fclose _ _ _ _ _ _ | .fpre _ _ _ _ _ _ _ => true

end Sys2Proof
end

