-- ==== Sys2Proof/Decode.lean ====
section
/-! DEFINITION. Decoding a descriptor (R60 to R70, steps 1 and 2 of R76) and, after it, the encoder from the same tables.
A descriptor is six words, never bytes of memory (R42, R53), so no byte order enters. -/

namespace Sys2Proof

open Machine (FaultCode)

/-- The opcode numbers of R65; every other byte is no opcode. -/
def Opcode.ofByte (b : Byte) : Option Opcode :=
  match b.toNat with
  | 0x01 => some .shuf
  | 0x02 => some .unshuf
  | 0x03 => some .bshuf
  | 0x04 => some .bunshuf
  | 0x05 => some .shufip
  | 0x06 => some .unshufip
  | 0x10 => some .hparse
  | 0x11 => some .hser
  | 0x12 => some .hmode
  | 0x13 => some .hhassh
  | 0x14 => some .hhasbs
  | 0x15 => some .hismc
  | 0x16 => some .dsize
  | 0x20 => some .fopen
  | 0x21 => some .fclose
  | 0x22 => some .fpre
  | 0x23 => some .fwrap
  | _ => none

/-- The opcode numbers of R65, read the other way. -/
def Opcode.toByte : Opcode → Byte
  | .shuf => 0x01
  | .unshuf => 0x02
  | .bshuf => 0x03
  | .bunshuf => 0x04
  | .shufip => 0x05
  | .unshufip => 0x06
  | .hparse => 0x10
  | .hser => 0x11
  | .hmode => 0x12
  | .hhassh => 0x13
  | .hhasbs => 0x14
  | .hismc => 0x15
  | .dsize => 0x16
  | .fopen => 0x20
  | .fclose => 0x21
  | .fpre => 0x22
  | .fwrap => 0x23

/-- The format of each command (R65). -/
def Opcode.format : Opcode → Format
  | .shuf | .unshuf | .bshuf | .bunshuf => .P
  | .shufip | .unshufip => .I
  | .hparse | .dsize | .fopen => .S
  | .hser => .H
  | .hmode | .hhassh | .hhasbs | .hismc => .Q
  | .fclose => .C
  | .fpre => .E
  | .fwrap => .W

/-- The fields a format uses besides `OPC` (R63). -/
def Format.fields : Format → List Field
  | .P => [.ts, .src, .len, .dst]
  | .I => [.mode, .ts, .src, .len]
  | .S => [.src, .len]
  | .H => [.dst, .w4, .w5]
  | .Q => [.w4]
  | .C => [.ts, .src, .len, .dst, .w4, .w5]
  | .E => [.mode, .codec, .level, .ts, .src, .len, .dst]
  | .W => [.mode, .codec, .ts, .src, .len, .dst, .w4, .w5]

/-- Whether a format uses a field (R63). -/
def Format.uses (f : Format) (x : Field) : Bool := f.fields.contains x

/-- `OPC`, bits [7:0] of `W0` (R61). -/
def Descriptor.opc (d : Descriptor) : Byte := d.w0.extractLsb' 0 8
/-- `MODE`, bits [9:8] of `W0` (R61). -/
def Descriptor.mode (d : Descriptor) : BitVec 2 := d.w0.extractLsb' 8 2
/-- `RSV`, bits [15:10] of `W0` (R61). -/
def Descriptor.rsv (d : Descriptor) : BitVec 6 := d.w0.extractLsb' 10 6
/-- `CODEC`, bits [23:16] of `W0` (R61). -/
def Descriptor.codec (d : Descriptor) : Byte := d.w0.extractLsb' 16 8
/-- `LEVEL`, bits [31:24] of `W0` (R61). -/
def Descriptor.level (d : Descriptor) : Byte := d.w0.extractLsb' 24 8
/-- `TS`, bits [63:32] of `W0` (R61). -/
def Descriptor.ts (d : Descriptor) : BitVec 32 := d.w0.extractLsb' 32 32

/-- Whether a field of a descriptor holds zero. -/
def Descriptor.fieldZero (d : Descriptor) : Field → Bool
  | .mode => d.mode == 0
  | .codec => d.codec == 0
  | .level => d.level == 0
  | .ts => d.ts == 0
  | .src => d.w1 == 0
  | .len => d.w2 == 0
  | .dst => d.w3 == 0
  | .w4 => d.w4 == 0
  | .w5 => d.w5 == 0

/-- Every field of R61 and R62 that a format may leave unused. -/
def Field.all : List Field := [.mode, .codec, .level, .ts, .src, .len, .dst, .w4, .w5]

/-- `RSV = 0` and every field the format does not use is 0 (R63, R64). -/
def Descriptor.unusedZero (d : Descriptor) (f : Format) : Bool :=
  d.rsv == 0 && Field.all.all (fun x => f.uses x || d.fieldZero x)

/-- The mode a `MODE` field names; 3 is reserved (R67). -/
def Mode.ofBits (b : BitVec 2) : Option Mode :=
  match b.toNat with
  | 0 => some .noShuffle
  | 1 => some .byteShuffle
  | 2 => some .bitShuffle
  | _ => none

/-- The shuffle identifier of a mode (R67). -/
def Mode.toBits : Mode → BitVec 2
  | .noShuffle => 0
  | .byteShuffle => 1
  | .bitShuffle => 2

/-- A command that uses `MODE`: the reserved mode faults (R64, R67). -/
def withMode (d : Descriptor) (k : Mode → Except FaultCode Instr) : Except FaultCode Instr :=
  match Mode.ofBits d.mode with
  | some m => k m
  | none => .error .reserved

/-- The command of an opcode with its operands taken from the descriptor (R62, R63). -/
def buildInstr (op : Opcode) (d : Descriptor) : Except FaultCode Instr :=
  match op with
  | .shuf => .ok (.shuf d.ts d.w1 d.w2 d.w3)
  | .unshuf => .ok (.unshuf d.ts d.w1 d.w2 d.w3)
  | .bshuf => .ok (.bshuf d.ts d.w1 d.w2 d.w3)
  | .bunshuf => .ok (.bunshuf d.ts d.w1 d.w2 d.w3)
  | .shufip => withMode d fun m => .ok (.shufip m d.ts d.w1 d.w2)
  | .unshufip => withMode d fun m => .ok (.unshufip m d.ts d.w1 d.w2)
  | .hparse => .ok (.hparse d.w1 d.w2)
  | .hser => .ok (.hser d.w3 d.w4 d.w5)
  | .hmode => .ok (.hmode d.w4)
  | .hhassh => .ok (.hhassh d.w4)
  | .hhasbs => .ok (.hhasbs d.w4)
  | .hismc => .ok (.hismc d.w4)
  | .dsize => .ok (.dsize d.w1 d.w2)
  | .fopen => .ok (.fopen d.w1 d.w2)
  | .fclose => .ok (.fclose d.ts d.w1 d.w2 d.w3 d.w4 d.w5)
  | .fpre => withMode d fun m => .ok (.fpre m d.codec d.level d.ts d.w1 d.w2 d.w3)
  | .fwrap => withMode d fun m =>
      if d.ts.toNat ≤ 255 then .ok (.fwrap m d.codec d.ts d.w1 d.w2 d.w3 d.w4 d.w5) else .error .reserved

/-- Steps 1 and 2 of R76: the command of a descriptor, `FC_OPCODE`, or `FC_RESERVED`. -/
def decode (d : Descriptor) : Except FaultCode Instr :=
  match Opcode.ofByte d.opc with
  | none => .error .opcode
  | some op => if d.unusedZero op.format then buildInstr op d else .error .reserved

/-- A descriptor from one number whose bits [64k+63 : 64k] are word `Wk` (the numbering of the opcode table). -/
def Descriptor.ofNat (n : Nat) : Descriptor where
  w0 := BitVec.ofNat 64 n
  w1 := BitVec.ofNat 64 (n >>> 64)
  w2 := BitVec.ofNat 64 (n >>> 128)
  w3 := BitVec.ofNat 64 (n >>> 192)
  w4 := BitVec.ofNat 64 (n >>> 256)
  w5 := BitVec.ofNat 64 (n >>> 320)

/-- The descriptor whose low `nbits` bits are `w`, every higher bit zero; a descriptor has 384 bits (R60). -/
def tableDescriptor (nbits w : Nat) : Descriptor :=
  Descriptor.ofNat (if 384 ≤ nbits then w else w % 2 ^ nbits)

/-- The instruction the decoder reads from the opcode table's `nbits` bits `w`, every higher bit of the descriptor zero. -/
def decodeTableWord (nbits w : Nat) : Option Instr :=
  match decode (tableDescriptor nbits w) with
  | .ok i => some i
  | .error _ => none

/-- `W0` from its fields, `RSV = 0` (R61). -/
def controlWord (op : Opcode) (mode : BitVec 2) (codec level : Byte) (ts : BitVec 32) : Word :=
  ts ++ level ++ codec ++ 0#6 ++ mode ++ op.toByte

/-- The descriptor of a command: used fields in their places, every other field zero (R61 to R63). -/
def encode : Instr → Descriptor
  | .shuf ts src len dst => ⟨controlWord .shuf 0 0 0 ts, src, len, dst, 0, 0⟩
  | .unshuf ts src len dst => ⟨controlWord .unshuf 0 0 0 ts, src, len, dst, 0, 0⟩
  | .bshuf ts src len dst => ⟨controlWord .bshuf 0 0 0 ts, src, len, dst, 0, 0⟩
  | .bunshuf ts src len dst => ⟨controlWord .bunshuf 0 0 0 ts, src, len, dst, 0, 0⟩
  | .shufip mode ts src len => ⟨controlWord .shufip mode.toBits 0 0 ts, src, len, 0, 0, 0⟩
  | .unshufip mode ts src len => ⟨controlWord .unshufip mode.toBits 0 0 ts, src, len, 0, 0, 0⟩
  | .hparse src len => ⟨controlWord .hparse 0 0 0 0, src, len, 0, 0, 0⟩
  | .hser dst hlo hhi => ⟨controlWord .hser 0 0 0 0, 0, 0, dst, hlo, hhi⟩
  | .hmode hlo => ⟨controlWord .hmode 0 0 0 0, 0, 0, 0, hlo, 0⟩
  | .hhassh hlo => ⟨controlWord .hhassh 0 0 0 0, 0, 0, 0, hlo, 0⟩
  | .hhasbs hlo => ⟨controlWord .hhasbs 0 0 0 0, 0, 0, 0, hlo, 0⟩
  | .hismc hlo => ⟨controlWord .hismc 0 0 0 0, 0, 0, 0, hlo, 0⟩
  | .dsize src len => ⟨controlWord .dsize 0 0 0 0, src, len, 0, 0, 0⟩
  | .fopen src len => ⟨controlWord .fopen 0 0 0 0, src, len, 0, 0, 0⟩
  | .fclose ts src len dst hlo hhi => ⟨controlWord .fclose 0 0 0 ts, src, len, dst, hlo, hhi⟩
  | .fpre mode codec level ts src len dst => ⟨controlWord .fpre mode.toBits codec level ts, src, len, dst, 0, 0⟩
  | .fwrap mode codec ts src len dst src2 len2 =>
      ⟨controlWord .fwrap mode.toBits codec 0 ts, src, len, dst, src2, len2⟩

end Sys2Proof
end

