-- ==== Sys2Proof/Config.lean ====
section
/-! DEFINITION. What an implementation fixes (00_scope.md section 4, 92_eei_decisions.md section 1) and the one value the
spec leaves open. The OPEN parameters are plain data that the state carries and no step changes, so that a statement about
every state is a statement about every choice of them. -/

namespace Sys2Proof

/-- The implementation parameters a model takes as arguments (00_scope.md section 4). `N_ENGINES` is 1 (R220). -/
structure Params where
  /-- `MEM_SIZE`, bytes of buffer memory (R19, D7). -/
  memSize : Nat
  /-- `SIMD_CAP`, the value `CAP.SIMD` takes at reset (R16, D31). -/
  simdCap : Bool
  /-- `CODEC_MASK_RESET`, word 0: ids 0 to 63 (R17, D13). -/
  maskReset0 : Word
  /-- `CODEC_MASK_RESET`, word 1: ids 64 to 127. -/
  maskReset1 : Word
  /-- `CODEC_MASK_RESET`, word 2: ids 128 to 191. -/
  maskReset2 : Word
  /-- `CODEC_MASK_RESET`, word 3: ids 192 to 255. -/
  maskReset3 : Word
  deriving DecidableEq, Repr

/-- The range the spec gives `MEM_SIZE`: `1 <= MEM_SIZE <= 2^64`. -/
def Params.wf (p : Params) : Bool :=
  decide (1 ≤ p.memSize) && decide (p.memSize ≤ 2 ^ 64)

/-- The parameters of `State.reset`. `CODEC_MASK_RESET` is the spec's (ids 1 to 5, R17). DESIGN CHOICE (log entries 2
and 3): `MEM_SIZE` is the 0x1000 of the spec's own vectors, `SIMD_CAP` is 0. -/
def Params.initial : Params where
  memSize := 0x1000
  simdCap := false
  maskReset0 := 0x3E#64
  maskReset1 := 0#64
  maskReset2 := 0#64
  maskReset3 := 0#64

/-- Free value (log entry 7, DESIGN CHOICE): what FOPEN leaves in `RES0` when `SRC + 16` does not fit the 64-bit register,
as a function of the descriptor (R1). The spec states no result there; nothing can be proved about this value. -/
opaque Config.payloadAddressPast64 (src len : Word) : Word

end Sys2Proof
end

