-- ==== Sys2Proof/Machine/State.lean ====
section
/-! DEFINITION. The state of one BSPE instance (R10), the host's pending actions, the reasons a step can stop, and the state
right after power-on and reset (R23, R240). -/

namespace Sys2Proof.Machine

/-- Buffer memory (R19) as the cells that differ from `unlistedByte`, addresses strictly rising. -/
abbrev Memory := List Host.Cell

/-- `STATUS` (R14) by its fields: all other bits read as zero, so nothing is stored for them. -/
structure Status where
  /-- `ERR`, bits [7:0]: error kind of the most recent completed command. -/
  err : ErrKind
  /-- `BUSY`, bit 8: 1 from the push of `W5` until the command completes. -/
  busy : Bool
  /-- `FAULT`, bit 9, with `FCODE`, bits [23:16]: none is `FAULT = 0`, `FCODE = 0`. -/
  fault : Option FaultCode
  deriving DecidableEq, Repr

/-- The descriptor assembly buffer (R18): the words pushed so far, `W0` first; the constructor is `PUSHCNT`. -/
inductive AsmBuffer where
  | empty
  | one (w0 : Word)
  | two (w0 w1 : Word)
  | three (w0 w1 w2 : Word)
  | four (w0 w1 w2 w3 : Word)
  | five (w0 w1 w2 w3 w4 : Word)
  deriving DecidableEq, Repr

/-- One action of the host or of the platform (R24, R45 registers by byte offset; R19, R245 direct buffer access; R240
reset). -/
inductive HostAction where
  /-- A 64-bit write to the register at a byte offset; offset 0 pushes a descriptor word through `CMD`. -/
  | writeReg (offset : Nat) (value : Word)
  /-- A 64-bit read of the register at a byte offset. -/
  | readReg (offset : Nat)
  /-- A direct write of buffer bytes from an address on. -/
  | writeBuf (addr : Nat) (bytes : List Byte)
  /-- A direct read of one buffer byte. -/
  | readBuf (addr : Nat)
  /-- The platform's reset. -/
  | reset
  deriving DecidableEq, Repr

/-- Why a step stops with a fault. No command does: a malformed command takes the sticky fault of R215, a next state. -/
inductive Fault where
  /-- Raised by the host's direct buffer access (`writeBuf`, `readBuf`) when a byte it names is not in `[0, MEM_SIZE)`: that
  address does not exist (R19, R45). Safe: the model stops. -/
  | hostBufferRange
  deriving DecidableEq, Repr

/-- Why a step has no meaning. -/
inductive Refusal where
  /-- Raised by an arm of `exec` whose instruction has no meaning yet. Safe: the model stops. -/
  | notModelled (mnemonic : String)
  /-- Raised by a host register access at an offset that is not a multiple of 8: all accesses are 64 bits wide and aligned
  (R24), such an access is not given by the spec. Safe: the model stops. -/
  | unalignedRegister (offset : Nat)
  /-- Raised by a host buffer access while `BUSY = 1` (R245, U6): the model gives such a schedule no step. Safe: the model
  stops. -/
  | bufferAccessWhileBusy
  deriving DecidableEq, Repr

/-- The whole state: R10's registers and memory, the parameters no step changes, and the host's side of the interface. -/
structure State where
  /-- The implementation parameters (00_scope.md section 4); no step changes them. The model's own field (log entry 2). -/
  params : Params
  /-- Buffer memory `mem` (R19). -/
  mem : Memory
  /-- `RES0` (R11). -/
  res0 : Word
  /-- `RES1` (R11). -/
  res1 : Word
  /-- `HDR_LO` (R12). -/
  hdrLo : Word
  /-- `HDR_HI` (R12). -/
  hdrHi : Word
  /-- `STATUS` (R14). -/
  status : Status
  /-- `CFG.LOCK`, the one implemented bit of `CFG` (R15). -/
  lock : Bool
  /-- `CAP.SIMD`, the one implemented bit of `CAP` (R16). -/
  simd : Bool
  /-- `CODEC_MASK0` (R17). -/
  codecMask0 : Word
  /-- `CODEC_MASK1` (R17). -/
  codecMask1 : Word
  /-- `CODEC_MASK2` (R17). -/
  codecMask2 : Word
  /-- `CODEC_MASK3` (R17). -/
  codecMask3 : Word
  /-- The descriptor assembly buffer with `PUSHCNT` (R18). -/
  asm : AsmBuffer
  /-- The host's pending actions, next first (R13, R249). The model's own field (log entry 4). -/
  host : List HostAction
  /-- What the host's most recent read returned. The model's own field (log entry 12). -/
  hostIn : Word
  deriving DecidableEq, Repr

/-- Reset values of every register (R23, R240, R241) over given parameters and a given memory content, which reset does not
change. -/
def State.afterReset (p : Params) (m : Memory) (host : List HostAction) (hostIn : Word) : State where
  params := p
  mem := m
  res0 := 0#64
  res1 := 0#64
  hdrLo := 0#64
  hdrHi := 0#64
  status := { err := .ok, busy := false, fault := none }
  lock := false
  simd := p.simdCap
  codecMask0 := p.maskReset0
  codecMask1 := p.maskReset1
  codecMask2 := p.maskReset2
  codecMask3 := p.maskReset3
  asm := .empty
  host := host
  hostIn := hostIn

/-- The machine right after power-on and reset: reset registers, nothing listed in memory, no host action pending. -/
def State.reset : State := State.afterReset Params.initial [] [] 0#64

end Sys2Proof.Machine
end

