-- ==== Sys2Proof/Machine/Flags.lean ====
section
/-! DEFINITION. Flag computations: the `Flags` byte of a header (R132 to R134, R147, R168) and the register views of
`STATUS`, `CFG` and `CAP` (R14 to R16). -/

namespace Sys2Proof.Machine

/-- `has_shuffle(f) = f[0]` (R134). -/
def hasShuffle (f : Byte) : Bool := f.getLsbD 0

/-- `is_memcpy(f) = f[1]` (R134). -/
def isMemcpy (f : Byte) : Bool := f.getLsbD 1

/-- `has_bitshuffle(f) = f[2]` (R134). -/
def hasBitshuffle (f : Byte) : Bool := f.getLsbD 2

/-- `shuffle_mode(f)` (R133): bit shuffle wins over byte shuffle. -/
def shuffleMode (f : Byte) : Mode :=
  if hasBitshuffle f then .bitShuffle else if hasShuffle f then .byteShuffle else .noShuffle

/-- The shuffle identifier as a result (R67, R133). -/
def modeId : Mode → Word
  | .noShuffle => 0
  | .byteShuffle => 1
  | .bitShuffle => 2

/-- A flag as a result: 0 or 1. -/
def flagWord (b : Bool) : Word := if b then 1 else 0

/-- The `Flags` field of a header immediate's low word, bits [23:16] (R71). -/
def flagsOfHlo (hlo : Word) : Byte := hlo.extractLsb' 16 8

/-- `mode_bits(mode)` (R168). -/
def modeBits : Mode → Byte
  | .noShuffle => 0x00
  | .byteShuffle => 0x01
  | .bitShuffle => 0x04

/-- The flags of an assembled header (R168): requested mode and memcpy decision, combined bitwise. -/
def frameFlags (mode : Mode) (memcpy : Bool) : Byte := modeBits mode ||| (if memcpy then 0x02 else 0x00)

/-- `STATUS` as the host reads it (R14): `ERR` [7:0], `BUSY` [8], `FAULT` [9], `FCODE` [23:16], zero elsewhere. -/
def Status.word (st : Status) : Word :=
  0#40 ++ (match st.fault with | some c => c.code | none => 0#8) ++ 0#6
    ++ BitVec.ofBool st.fault.isSome ++ BitVec.ofBool st.busy ++ st.err.code

/-- A one-bit register as the host reads it: bit 0, zero elsewhere (`CFG` R15, `CAP` R16). -/
def bit0Word (b : Bool) : Word := 0#63 ++ BitVec.ofBool b

end Sys2Proof.Machine
end

