-- ==== Sys2Proof/Machine/Memory.lean ====
section
/-! DEFINITION. Buffer memory as a canonical list of cells: one byte, one store, and the ranges `MemRead` and `MemWrite` of
00_scope.md section 5. Every access is built from single bytes (R44), in ascending address order. -/

namespace Sys2Proof.Machine

/-- What an address with no cell reads as. DESIGN CHOICE (log entry 1): the spec leaves the content of never-written memory
unspecified (R23, U9). -/
def unlistedByte : Byte := 0

/-- The canonical form: addresses strictly rising, and no cell equal to what an unlisted address reads as. -/
def Memory.wf (m : Memory) : Bool :=
  decide (m.Pairwise (fun c d => c.1 < d.1)) && m.all (fun c => c.2 != unlistedByte)

/-- Every cell lies in `[0, n)`. -/
def Memory.inside (m : Memory) (n : Nat) : Bool := m.all (fun c => decide (c.1 < n))

/-- The byte of buffer memory at an address (R19). -/
def memByte : Memory → Nat → Byte
  | [], _ => unlistedByte
  | c :: m, a => if c.1 = a then c.2 else memByte m a

/-- Sets the byte at an address, keeping the canonical form: writing `unlistedByte` drops the cell. -/
def memSet : Memory → Nat → Byte → Memory
  | [], a, v => if v = unlistedByte then [] else [(a, v)]
  | c :: m, a, v =>
    if a < c.1 then (if v = unlistedByte then c :: m else (a, v) :: c :: m)
    else if c.1 = a then (if v = unlistedByte then m else (a, v) :: m)
    else c :: memSet m a v

/-- `MemRead(addr, n)`: byte `i` is the byte at `addr + i`. -/
def memRead (m : Memory) (addr n : Nat) : List Byte :=
  (List.range n).map (fun i => memByte m (addr + i))

/-- `MemWrite(addr, n, s)` with `n = len(s)`: the byte at `addr + i` becomes `s[i]`. -/
def memWrite : Memory → Nat → List Byte → Memory
  | m, _, [] => m
  | m, addr, b :: s => memWrite (memSet m addr b) (addr + 1) s

end Sys2Proof.Machine
end

