-- ==== Sys2Proof/Machine/Header.lean ====
section
/-! DEFINITION. The 16-byte frame header: little-endian numbers (R40, 00_scope.md section 5), the seven fields (R131), the
two-word packing (R148), parse and serialize (R135, R136). -/

namespace Sys2Proof.Machine

/-- `le(s)`: the little-endian value of a byte sequence. -/
def le : List Byte → Nat
  | [] => 0
  | b :: s => b.toNat + 256 * le s

/-- `bytes_le(v, n)`: the `n` low bytes of `v`, least significant first. -/
def bytesLe (v : Nat) : Nat → List Byte
  | 0 => []
  | n + 1 => BitVec.ofNat 8 v :: bytesLe (v / 256) n

/-- `s[a:b]`, half open. -/
def slice (s : List Byte) (a b : Nat) : List Byte := (s.drop a).take (b - a)

/-- A header value: the record of the seven fields (R131). -/
structure Header where
  version : Byte
  versionLZ : Byte
  flags : Byte
  typeSize : Byte
  nBytesOrig : BitVec 32
  blockSize : BitVec 32
  nBytesComp : BitVec 32
  deriving DecidableEq, Repr

/-- `hdr_fields(s)` for 16 bytes (R131). -/
def hdrFields (s : List Byte) : Header where
  version := s.getD 0 0
  versionLZ := s.getD 1 0
  flags := s.getD 2 0
  typeSize := s.getD 3 0
  nBytesOrig := BitVec.ofNat 32 (le (slice s 4 8))
  blockSize := BitVec.ofNat 32 (le (slice s 8 12))
  nBytesComp := BitVec.ofNat 32 (le (slice s 12 16))

/-- `hdr_bytes(h)` (R131). -/
def hdrBytes (h : Header) : List Byte :=
  [h.version, h.versionLZ, h.flags, h.typeSize] ++ bytesLe h.nBytesOrig.toNat 4
    ++ bytesLe h.blockSize.toNat 4 ++ bytesLe h.nBytesComp.toNat 4

/-- `hdr_words(s)` (R148): 16 header bytes as the pair (low word, high word). -/
def hdrWords (s : List Byte) : Word × Word :=
  (BitVec.ofNat 64 (le (slice s 0 8)), BitVec.ofNat 64 (le (slice s 8 16)))

/-- The 16 bytes a header immediate denotes (R71, R148). -/
def immediateBytes (hlo hhi : Word) : List Byte := bytesLe hlo.toNat 8 ++ bytesLe hhi.toNat 8

/-- `parse(s)` (R135): the length test first, then the version; everything else is accepted as it is. -/
def parse (s : List Byte) : Except ErrKind Header :=
  if s.length < 16 then .error .invalidHeader
  else if s.getD 0 0 ≠ 2#8 then .error .invalidVersion
  else .ok (hdrFields (slice s 0 16))

/-- `serialize(h)` (R136): no check. -/
def serialize (h : Header) : List Byte := hdrBytes h

/-- The header of HPARSE, DSIZE and FOPEN: of the `LEN` bytes at `SRC` only the first `min(LEN, 16)` are read (R48), and
parsed. Answers the bytes read and the fields. -/
def headerAt (m : Memory) (src len : Word) : Except ErrKind (List Byte × Header) :=
  let hb := memRead m src.toNat (min len.toNat 16)
  match parse hb with
  | .error k => .error k
  | .ok h => .ok (hb, h)

end Sys2Proof.Machine
end

