-- ==== Sys2Proof/Machine/Operands.lean ====
section
/-! DEFINITION. What the commands compute from their operands alone: the ranges a descriptor names (R48) with the range and
overlap tests (R46, R47, R214), the clamps of R166, and the registry lookup of R161. -/

namespace Sys2Proof.Machine

/-- `in_range(a, n)` (R46), the sum taken over the naturals. -/
def inRange (memSize a n : Nat) : Bool := decide (a + n ≤ memSize)

/-- `overlap(a, n, b, m)` (R47). -/
def overlap (a n b m : Nat) : Bool :=
  decide (0 < n) && decide (0 < m) && decide (a < b + m) && decide (b < a + n)

/-- The ranges a command names, as (address, length): those it reads, and the destination that must not overlap them. The
in-place forms name one range, exempt from the overlap test, so it stands among the sources (R47, R48). -/
structure Ranges where
  srcs : List (Nat × Nat)
  dst : Option (Nat × Nat)
  deriving DecidableEq, Repr

/-- Formats P, C and E: `[SRC, SRC+LEN)` to `[DST, DST+LEN)` (R48). -/
def rangesSrcDst (src len dst : Word) : Ranges where
  srcs := [(src.toNat, len.toNat)]
  dst := some (dst.toNat, len.toNat)

/-- Formats I and S: `[SRC, SRC+LEN)` alone (R48). -/
def rangesSrc (src len : Word) : Ranges where
  srcs := [(src.toNat, len.toNat)]
  dst := none

/-- Format H: `[DST, DST+16)` alone (R48). -/
def rangesHeaderOut (dst : Word) : Ranges where
  srcs := []
  dst := some (dst.toNat, 16)

/-- Format Q: no range (R48). -/
def rangesNone : Ranges where
  srcs := []
  dst := none

/-- `useMemcpy` of R170: equality counts as memcpy. -/
def useMemcpy (len len2 : Word) : Bool := decide (len.toNat ≤ len2.toNat)

/-- `plen` of R48 and R172: the length of the payload FWRAP emits. -/
def payloadLength (len len2 : Word) : Nat := if useMemcpy len len2 then len.toNat else len2.toNat

/-- Format W: two sources and `[DST, DST+16+plen)` (R48). -/
def rangesWrap (src len dst src2 len2 : Word) : Ranges where
  srcs := [(src.toNat, len.toNat), (src2.toNat, len2.toNat)]
  dst := some (dst.toNat, 16 + payloadLength len len2)

/-- Steps 3 and 4 of R76 (R214): `FC_RANGE` before `FC_OVERLAP`; the descriptor and `MEM_SIZE` only are looked at. -/
def rangeFault (memSize : Nat) (r : Ranges) : Option FaultCode :=
  if (r.srcs ++ r.dst.toList).all (fun x => inRange memSize x.1 x.2) then
    if r.dst.any (fun d => r.srcs.any (fun x => overlap x.1 x.2 d.1 d.2)) then some .overlap else none
  else some .range

/-- `ts' = max(TS, 1)` (R166). -/
def clampTypeSize (ts : BitVec 32) : Nat := max ts.toNat 1

/-- `level' = min(max(level, 1), 9)`, `LEVEL` sign-extended (R69, R166). -/
def clampLevel (level : Byte) : Nat := (min (max level.toInt 1) 9).toNat

/-- `CODEC_MASK0..3` by index (R17). -/
def State.codecMask (s : State) (k : Nat) : Word :=
  match k with
  | 0 => s.codecMask0
  | 1 => s.codecMask1
  | 2 => s.codecMask2
  | _ => s.codecMask3

/-- `registered(id)` (R161): bit `id mod 64` of `CODEC_MASK(id div 64)`. -/
def registered (s : State) (id : Byte) : Bool :=
  (s.codecMask (id.toNat / 64)).getLsbD (id.toNat % 64)

/-- The encode-side input checks R167 in their order: empty, too large for u32, codec not registered. -/
def encodeChecks (s : State) (len : Word) (codec : Byte) : Except ErrKind Unit :=
  if len.toNat = 0 then .error .invalidData
  else if 2 ^ 32 - 1 < len.toNat then .error .dataTooLarge
  else if registered s codec then .ok ()
  else .error .invalidCodec

end Sys2Proof.Machine
end

