-- ==== Sys2Proof/Machine/Ops.lean ====
section
/-! DEFINITION. The named operations over the state: the three ends of a command (R200), result registers, stores, the
acceptance of a descriptor, reset, and `runCommand`, the one frame every meaning stands in. -/

namespace Sys2Proof.Machine

/-- `x[RES0] <- v` (R11). -/
def State.setRes0 (s : State) (v : Word) : State := { s with res0 := v }

/-- `x[RES1] <- v` (R11). -/
def State.setRes1 (s : State) (v : Word) : State := { s with res1 := v }

/-- `(x[HDR_LO], x[HDR_HI]) <- (lo, hi)`: they are written together (R12). -/
def State.setHdr (s : State) (w : Word × Word) : State := { s with hdrLo := w.1, hdrHi := w.2 }

/-- `MemWrite(addr, len(bytes), bytes)` on the state's memory. -/
def State.store (s : State) (addr : Nat) (bytes : List Byte) : State :=
  { s with mem := memWrite s.mem addr bytes }

/-- Success (R200, R25): `ERR <- 0`, `BUSY <- 0`. -/
def State.succeed (s : State) : State := { s with status := { s.status with err := .ok, busy := false } }

/-- Error entry (R210): `ERR <- code`, `BUSY <- 0`, nothing else. -/
def State.returnError (s : State) (k : ErrKind) : State :=
  { s with status := { s.status with err := k, busy := false } }

/-- Fault entry (R215): `FAULT <- 1`, `FCODE <- f`, `BUSY <- 0`, nothing else; `ERR` keeps its value. -/
def State.takeFault (s : State) (f : FaultCode) : State :=
  { s with status := { s.status with fault := some f, busy := false } }

/-- The push of `W5` (R15, R18): `BUSY` and `LOCK` are set and the assembly buffer is emptied. -/
def State.accept (s : State) : State :=
  { s with asm := .empty, lock := true, status := { s.status with busy := true } }

/-- Reset (R240, R241): every register to its reset value; buffer memory, and what belongs to the host, unchanged. -/
def State.resetRegisters (s : State) : State := State.afterReset s.params s.mem s.host s.hostIn

/-- How every command runs (R76 steps 3 to 5, R216): the range tests first, each a fault entry; then the command's own
checks and body, which ends in an error entry or in success. All checks precede all writes (R54): on an error the body's
state is dropped. -/
def runCommand (r : Ranges) (s : State) (body : State → Except ErrKind State) :
    Host.Outcome State Fault Refusal :=
  match rangeFault s.params.memSize r with
  | some c => .next (s.takeFault c)
  | none =>
    match body s with
    | .error k => .next (s.returnError k)
    | .ok s' => .next s'.succeed

end Sys2Proof.Machine
end

