-- ==== Sys2Proof/Machine/Transform.lean ====
section
/-! DEFINITION. The transforms as pure functions of a byte sequence and a type size (R100 to R106, R114). Each is given by
the input index, or the eight input bytes, an output byte is made from: the maps of R102, R103, R105 and R106 read at the
output position `p`. -/

namespace Sys2Proof.Machine

/-- `degenerate(N, T)` (R101). -/
def degenerate (n t : Nat) : Bool := decide (t ≤ 1) || decide (n < t)

/-- `E = N div T` (R100). -/
def elements (n t : Nat) : Nat := n / t

/-- `G = E div 8` (R100). -/
def groups (n t : Nat) : Nat := elements n t / 8

/-- Byte `i` of a sequence. -/
def byteAt (s : List Byte) (i : Nat) : Byte := s.getD i 0

/-- The sequence of the same length whose byte `p` is `f p` (R107: no transform changes the length). -/
def rebuild (s : List Byte) (f : Nat → Byte) : List Byte := (List.range s.length).map f

/-- R102: output `p = j*E + i` receives input `i*T + j`; from `E*T` on, input `p`. -/
def byteShuffleIndex (n t p : Nat) : Nat :=
  let e := elements n t
  if p < e * t then (p % e) * t + p / e else p

/-- `shuffle(s, T)` (R102). -/
def byteShuffle (s : List Byte) (t : Nat) : List Byte :=
  if degenerate s.length t then s
  else rebuild s (fun p => byteAt s (byteShuffleIndex s.length t p))

/-- R103: output `p = i*T + j` receives input `j*E + i`; from `E*T` on, input `p`. -/
def byteUnshuffleIndex (n t p : Nat) : Nat :=
  let e := elements n t
  if p < e * t then (p % t) * e + p / t else p

/-- `unshuffle(s, T)` (R103). -/
def byteUnshuffle (s : List Byte) (t : Nat) : List Byte :=
  if degenerate s.length t then s
  else rebuild s (fun p => byteAt s (byteUnshuffleIndex s.length t p))

/-- Byte `m` of `tr8(b)` (R104): input byte `b_k` contributes `(b_k >> (7-m)) & 1` at bit position `7-k`. -/
def tr8 (b : Nat → Byte) (m : Nat) : Byte :=
  (List.range 8).foldl (fun acc k => acc ||| (((b k >>> (7 - m)) &&& 1#8) <<< (7 - k))) 0#8

/-- R105: for `p = g*8*T + j*8 + m` the output is byte `m` of the transpose of the 8 bytes at position `j` of group `g`;
from `G*8*T` on, the input byte. -/
def bitShuffleByte (s : List Byte) (t p : Nat) : Byte :=
  if p < groups s.length t * (8 * t) then
    let g := p / (8 * t)
    let r := p % (8 * t)
    tr8 (fun k => byteAt s (g * (8 * t) + k * t + r / 8)) (r % 8)
  else byteAt s p

/-- `bit_shuffle(s, T)` (R105). -/
def bitShuffle (s : List Byte) (t : Nat) : List Byte :=
  if degenerate s.length t then s else rebuild s (bitShuffleByte s t)

/-- R106: for `p = g*8*T + k*T + j` the output is byte `k` of the transpose of the 8 bytes at `g*8*T + j*8`; from `G*8*T`
on, the input byte. -/
def bitUnshuffleByte (s : List Byte) (t p : Nat) : Byte :=
  if p < groups s.length t * (8 * t) then
    let g := p / (8 * t)
    let r := p % (8 * t)
    tr8 (fun m => byteAt s (g * (8 * t) + (r % t) * 8 + m)) (r / t)
  else byteAt s p

/-- `bit_unshuffle(s, T)` (R106). -/
def bitUnshuffle (s : List Byte) (t : Nat) : List Byte :=
  if degenerate s.length t then s else rebuild s (bitUnshuffleByte s t)

/-- `forward(mode, s, T)` (R114). -/
def forward (mode : Mode) (s : List Byte) (t : Nat) : List Byte :=
  match mode with
  | .noShuffle => s
  | .byteShuffle => byteShuffle s t
  | .bitShuffle => bitShuffle s t

/-- `inverse(mode, s, T)` (R114). -/
def inverse (mode : Mode) (s : List Byte) (t : Nat) : List Byte :=
  match mode with
  | .noShuffle => s
  | .byteShuffle => byteUnshuffle s t
  | .bitShuffle => bitUnshuffle s t

end Sys2Proof.Machine
end

