-- ==== Sys2Proof/Machine/Frame.lean ====
section
/-! DEFINITION. The frame commands FOPEN, FCLOSE, FPRE, FWRAP (42_frame.md): validation and assembly around the host's codec
step. -/

namespace Sys2Proof.Machine

/-- `SRC + 16` for `RES0` (R163). DESIGN CHOICE (log entry 7): the one sum that leaves the 64-bit register, `2^64`, has no
stated result and is the free value. -/
def payloadAddress (src len : Word) : Word :=
  if src.toNat + 16 < 2 ^ 64 then BitVec.ofNat 64 (src.toNat + 16) else Config.payloadAddressPast64 src len

/-- FOPEN (R163): the checks in the order of R213. -/
def execFopen (src len : Word) (s : State) : Host.Outcome State Fault Refusal :=
  runCommand (rangesSrc src len) s fun s =>
    match headerAt s.mem src len with
    | .error k => .error k
    | .ok (hb, h) =>
      if h.nBytesComp.toNat < 16 ∨ len.toNat < h.nBytesComp.toNat then .error .invalidData
      else if isMemcpy h.flags = false ∧ registered s h.versionLZ = false then .error .invalidCodec
      else .ok (((s.setHdr (hdrWords hb)).setRes0 (payloadAddress src len)).setRes1
        (BitVec.ofNat 64 (h.nBytesComp.toNat - 16)))

/-- The type size of R164 step 5: the override if it is positive, else the header's. -/
def resolveTypeSize (h : Header) (tsovr : BitVec 32) : Nat :=
  if 0 < tsovr.toNat then tsovr.toNat else h.typeSize.toNat

/-- The post-decode plan (R164): a memcpy payload is copied (conflict C1), else the inverse transform when `ts > 1`. -/
def postDecode (h : Header) (d : List Byte) (tsovr : BitVec 32) : List Byte :=
  if isMemcpy h.flags then d
  else if 1 < resolveTypeSize h tsovr then inverse (shuffleMode h.flags) d (resolveTypeSize h tsovr)
  else d

/-- FCLOSE (R165): the length test, then the post-decode plan to `DST`. -/
def execFclose (ts : BitVec 32) (src len dst hlo hhi : Word) (s : State) : Host.Outcome State Fault Refusal :=
  runCommand (rangesSrcDst src len dst) s fun s =>
    let h := hdrFields (immediateBytes hlo hhi)
    if len.toNat ≠ h.nBytesOrig.toNat then .error .sizeMismatch
    else .ok ((s.store dst.toNat (postDecode h (memRead s.mem src.toNat len.toNat) ts)).setRes0 len)

/-- FPRE (R169): the checks of R167, then the forward transform to `DST` and the normalised options to `RES1`. -/
def execFpre (mode : Mode) (codec level : Byte) (ts : BitVec 32) (src len dst : Word) (s : State) :
    Host.Outcome State Fault Refusal :=
  runCommand (rangesSrcDst src len dst) s fun s =>
    match encodeChecks s len codec with
    | .error k => .error k
    | .ok _ =>
      .ok (((s.store dst.toNat (forward mode (memRead s.mem src.toNat len.toNat) (clampTypeSize ts))).setRes0
        len).setRes1 (BitVec.ofNat 64 (clampTypeSize ts + clampLevel level * 2 ^ 32)))

/-- The header FWRAP emits (R171). -/
def wrapHeader (mode : Mode) (codec : Byte) (ts : BitVec 32) (len len2 : Word) : Header where
  version := 2#8
  versionLZ := codec
  flags := frameFlags mode (useMemcpy len len2)
  typeSize := BitVec.ofNat 8 (clampTypeSize ts)
  nBytesOrig := BitVec.ofNat 32 len.toNat
  blockSize := BitVec.ofNat 32 len.toNat
  nBytesComp := BitVec.ofNat 32 (16 + payloadLength len len2)

/-- The payload FWRAP emits (R170): the original data on the memcpy path, else the codec's output. -/
def wrapPayload (src len src2 len2 : Word) (m : Memory) : List Byte :=
  if useMemcpy len len2 then memRead m src.toNat len.toNat else memRead m src2.toNat len2.toNat

/-- FWRAP (R172). `TS > 255` is a reserved encoding (R64), so it faults before the range tests (R214). -/
def execFwrap (mode : Mode) (codec : Byte) (ts : BitVec 32) (src len dst src2 len2 : Word) (s : State) :
    Host.Outcome State Fault Refusal :=
  if 255 < ts.toNat then .next (s.takeFault .reserved)
  else runCommand (rangesWrap src len dst src2 len2) s fun s =>
    match encodeChecks s len codec with
    | .error k => .error k
    | .ok _ =>
      if 2 ^ 32 - 1 < 16 + payloadLength len len2 then .error .dataTooLarge
      else
        let hb := hdrBytes (wrapHeader mode codec ts len len2)
        .ok ((((s.store dst.toNat (hb ++ wrapPayload src len src2 len2 s.mem)).setHdr (hdrWords hb)).setRes0
          (BitVec.ofNat 64 (16 + payloadLength len len2))).setRes1 (flagWord (useMemcpy len len2)))

end Sys2Proof.Machine
end

