-- ==== Sys2Proof/Machine/HeaderCmd.lean ====
section
/-! DEFINITION. The header commands HPARSE, HSER, HMODE, HHASSH, HHASBS, HISMC, DSIZE (41_header.md). -/

namespace Sys2Proof.Machine

/-- HPARSE (R138): the 16 header bytes to `HDR_LO`, `HDR_HI`. -/
def execHparse (src len : Word) (s : State) : Host.Outcome State Fault Refusal :=
  runCommand (rangesSrc src len) s fun s =>
    match headerAt s.mem src len with
    | .error k => .error k
    | .ok (hb, _) => .ok (s.setHdr (hdrWords hb))

/-- HSER (R139): the immediate's fields serialized at `DST`, unchecked; `RES0 <- 16`. -/
def execHser (dst hlo hhi : Word) (s : State) : Host.Outcome State Fault Refusal :=
  runCommand (rangesHeaderOut dst) s fun s =>
    .ok ((s.store dst.toNat (serialize (hdrFields (immediateBytes hlo hhi)))).setRes0 16)

/-- A flag query (format Q): `RES0` gets a function of the immediate's `Flags`; nothing else of `HLO` is looked at (R71). -/
def flagQuery (q : Byte → Word) (hlo : Word) (s : State) : Except ErrKind State :=
  .ok (s.setRes0 (q (flagsOfHlo hlo)))

/-- HMODE (R140): 0, 1 or 2. -/
def execHmode (hlo : Word) (s : State) : Host.Outcome State Fault Refusal :=
  runCommand rangesNone s (flagQuery (fun f => modeId (shuffleMode f)) hlo)

/-- HHASSH (R141). -/
def execHhassh (hlo : Word) (s : State) : Host.Outcome State Fault Refusal :=
  runCommand rangesNone s (flagQuery (fun f => flagWord (hasShuffle f)) hlo)

/-- HHASBS (R142). -/
def execHhasbs (hlo : Word) (s : State) : Host.Outcome State Fault Refusal :=
  runCommand rangesNone s (flagQuery (fun f => flagWord (hasBitshuffle f)) hlo)

/-- HISMC (R143). -/
def execHismc (hlo : Word) (s : State) : Host.Outcome State Fault Refusal :=
  runCommand rangesNone s (flagQuery (fun f => flagWord (isMemcpy f)) hlo)

/-- DSIZE (R144): `NBytesOrig` to `RES0`; `HDR_LO`, `HDR_HI` are not written. -/
def execDsize (src len : Word) (s : State) : Host.Outcome State Fault Refusal :=
  runCommand (rangesSrc src len) s fun s =>
    match headerAt s.mem src len with
    | .error k => .error k
    | .ok (_, h) => .ok (s.setRes0 (h.nBytesOrig.setWidth 64))

end Sys2Proof.Machine
end

