-- ==== Sys2Proof/Machine/Permute.lean ====
section
/-! DEFINITION. The permutation commands SHUF, UNSHUF, BSHUF, BUNSHUF, SHUFIP, UNSHUFIP (40_permute.md). -/

namespace Sys2Proof.Machine

/-- Steps 2 to 5 of R117 with `target` the address written: read `LEN` bytes at `SRC`, transform, store, `RES0 <- LEN`. -/
def permuteTo (f : List Byte → List Byte) (src len target : Word) (s : State) : Except ErrKind State :=
  .ok ((s.store target.toNat (f (memRead s.mem src.toNat len.toNat))).setRes0 len)

/-- SHUF (R110). -/
def execShuf (ts : BitVec 32) (src len dst : Word) (s : State) : Host.Outcome State Fault Refusal :=
  runCommand (rangesSrcDst src len dst) s (permuteTo (fun b => byteShuffle b ts.toNat) src len dst)

/-- UNSHUF (R111). -/
def execUnshuf (ts : BitVec 32) (src len dst : Word) (s : State) : Host.Outcome State Fault Refusal :=
  runCommand (rangesSrcDst src len dst) s (permuteTo (fun b => byteUnshuffle b ts.toNat) src len dst)

/-- BSHUF (R112). -/
def execBshuf (ts : BitVec 32) (src len dst : Word) (s : State) : Host.Outcome State Fault Refusal :=
  runCommand (rangesSrcDst src len dst) s (permuteTo (fun b => bitShuffle b ts.toNat) src len dst)

/-- BUNSHUF (R113). -/
def execBunshuf (ts : BitVec 32) (src len dst : Word) (s : State) : Host.Outcome State Fault Refusal :=
  runCommand (rangesSrcDst src len dst) s (permuteTo (fun b => bitUnshuffle b ts.toNat) src len dst)

/-- SHUFIP (R115): the transform of the whole buffer, written back over it (R49). -/
def execShufip (mode : Mode) (ts : BitVec 32) (src len : Word) (s : State) : Host.Outcome State Fault Refusal :=
  runCommand (rangesSrc src len) s (permuteTo (fun b => forward mode b ts.toNat) src len src)

/-- UNSHUFIP (R116). -/
def execUnshufip (mode : Mode) (ts : BitVec 32) (src len : Word) (s : State) : Host.Outcome State Fault Refusal :=
  runCommand (rangesSrc src len) s (permuteTo (fun b => inverse mode b ts.toNat) src len src)

end Sys2Proof.Machine
end

