-- ==== Sys2Proof/Machine/Dispatch.lean ====
section
/-! DEFINITION. One arm per command: the meaning it calls. -/

namespace Sys2Proof.Machine

def exec (i : Instr) (s : State) : Host.Outcome State Fault Refusal :=
  match i with
  | .shuf ts src len dst => Sys2Proof.Machine.execShuf ts src len dst s
  | .unshuf ts src len dst => Sys2Proof.Machine.execUnshuf ts src len dst s
  | .bshuf ts src len dst => Sys2Proof.Machine.execBshuf ts src len dst s
  | .bunshuf ts src len dst => Sys2Proof.Machine.execBunshuf ts src len dst s
  | .shufip mode ts src len => Sys2Proof.Machine.execShufip mode ts src len s
  | .unshufip mode ts src len => Sys2Proof.Machine.execUnshufip mode ts src len s
  | .hparse src len => Sys2Proof.Machine.execHparse src len s
  | .hser dst hlo hhi => Sys2Proof.Machine.execHser dst hlo hhi s
  | .hmode hlo => Sys2Proof.Machine.execHmode hlo s
  | .hhassh hlo => Sys2Proof.Machine.execHhassh hlo s
  | .hhasbs hlo => Sys2Proof.Machine.execHhasbs hlo s
  | .hismc hlo => Sys2Proof.Machine.execHismc hlo s
  | .dsize src len => Sys2Proof.Machine.execDsize src len s
  | .fopen src len => Sys2Proof.Machine.execFopen src len s
  | .fclose ts src len dst hlo hhi => Sys2Proof.Machine.execFclose ts src len dst hlo hhi s
  | .fpre mode codec level ts src len dst => Sys2Proof.Machine.execFpre mode codec level ts src len dst s
  | .fwrap mode codec ts src len dst src2 len2 => Sys2Proof.Machine.execFwrap mode codec ts src len dst src2 len2 s

end Sys2Proof.Machine
end

