-- ==== Sys2Proof/Machine/Port.lean ====
section
/-! DEFINITION. The host's side (R18, R24, R45, R75, R215, R240, R245, R246): the `CMD` port that assembles and issues
descriptors, register reads and writes by offset, direct buffer access, and reset. -/

namespace Sys2Proof.Machine

/-- The decoded descriptor runs; a descriptor that decodes to no command takes the fault decoding names (R66, R76). -/
def issue (d : Descriptor) (s : State) : Host.Outcome State Fault Refusal :=
  match decode d with
  | .ok i => exec i s
  | .error c => .next (s.takeFault c)

/-- A push to `CMD` (R18): discarded while `FAULT = 1` (R215) or `BUSY = 1` (R246); the sixth word issues the descriptor. -/
def push (w : Word) (s : State) : Host.Outcome State Fault Refusal :=
  if s.status.fault.isSome || s.status.busy then .next s
  else
    match s.asm with
    | .empty => .next { s with asm := .one w }
    | .one w0 => .next { s with asm := .two w0 w }
    | .two w0 w1 => .next { s with asm := .three w0 w1 w }
    | .three w0 w1 w2 => .next { s with asm := .four w0 w1 w2 w }
    | .four w0 w1 w2 w3 => .next { s with asm := .five w0 w1 w2 w3 w }
    | .five w0 w1 w2 w3 w4 => issue ⟨w0, w1, w2, w3, w4, w⟩ s.accept

/-- What the host reads at an aligned register offset (R24, R45): `CMD` and every offset from 0x60 on read 0. -/
def readRegister (offset : Nat) (s : State) : Word :=
  match offset with
  | 0x08 => s.status.word
  | 0x10 => s.res0
  | 0x18 => s.res1
  | 0x20 => s.hdrLo
  | 0x28 => s.hdrHi
  | 0x30 => bit0Word s.lock
  | 0x38 => bit0Word s.simd
  | 0x40 => s.codecMask0
  | 0x48 => s.codecMask1
  | 0x50 => s.codecMask2
  | 0x58 => s.codecMask3
  | _ => 0

/-- A register write that is not a push (R24, R45): `CFG` bit 0 = 1 sets `LOCK`; `CODEC_MASK0..3` are stored while
`LOCK = 0`; every other write is ignored. -/
def writeRegister (offset : Nat) (v : Word) (s : State) : State :=
  match offset with
  | 0x30 => { s with lock := s.lock || v.getLsbD 0 }
  | 0x40 => if s.lock then s else { s with codecMask0 := v }
  | 0x48 => if s.lock then s else { s with codecMask1 := v }
  | 0x50 => if s.lock then s else { s with codecMask2 := v }
  | 0x58 => if s.lock then s else { s with codecMask3 := v }
  | _ => s

/-- The host may touch the bytes `[addr, addr+n)`: the engine is idle (R245) and the bytes exist (R19). -/
def withBuffer (addr n : Nat) (s : State) (k : State) : Host.Outcome State Fault Refusal :=
  if s.status.busy then .refused .bufferAccessWhileBusy
  else if inRange s.params.memSize addr n then .next k
  else .fault .hostBufferRange

/-- What one host action does (R24, R240, R245). -/
def hostAct (a : HostAction) (s : State) : Host.Outcome State Fault Refusal :=
  match a with
  | .writeReg offset v =>
    if offset % 8 ≠ 0 then .refused (.unalignedRegister offset)
    else if offset = 0 then push v s
    else .next (writeRegister offset v s)
  | .readReg offset =>
    if offset % 8 ≠ 0 then .refused (.unalignedRegister offset)
    else .next { s with hostIn := readRegister offset s }
  | .writeBuf addr bytes => withBuffer addr bytes.length s (s.store addr bytes)
  | .readBuf addr => withBuffer addr 1 s { s with hostIn := (memByte s.mem addr).setWidth 64 }
  | .reset => .next s.resetRegisters

/-- The next pending host action happens; with none pending the engine is idle and nothing changes (R249). -/
def nextAction (s : State) : Host.Outcome State Fault Refusal :=
  match s.host with
  | [] => .next s
  | a :: rest => hostAct a { s with host := rest }

/-- The first five words of a descriptor in the assembly buffer and the push of the sixth as the host's next action: the
very next step issues it (R18, R75). -/
def placeDescriptor (d : Descriptor) (s : State) : State :=
  { s with asm := .five d.w0 d.w1 d.w2 d.w3 d.w4, host := .writeReg 0 d.w5 :: s.host }

end Sys2Proof.Machine
end

