-- ==== Sys2Proof/Machine/Step.lean ====
section
/-! DEFINITION. One step: the host's next action, in which the push of `W5` executes a whole command (R248). -/

namespace Sys2Proof.Machine

/-- One step of the machine (R248, R249). -/
def step (s : State) : Host.Outcome State Fault Refusal := nextAction s

/-- `s` with the descriptor whose low `nbits` bits are `w` (the rest zero) about to be completed: its first five words pushed
and the push of `W5` pending. -/
def State.withFetchWord (s : State) (nbits w : Nat) : State :=
  placeDescriptor (tableDescriptor nbits w) s

end Sys2Proof.Machine
end

