-- ==== Sys2Proof/Machine/Assembler.lean ====
section
/-! DEFINITION. The assembler of R73 over its operands: the names and aliases, the symbolic values, the rule that an unused
field may not be written, and the defaults. Characters (how a number is spelled) are below it. -/

namespace Sys2Proof.Machine

/-- The codecs GB names, with their `name()` (R146, R73). -/
inductive CodecName where
  | blosclz | lz4 | lz4hc | snappy | zlib | zstd
  deriving DecidableEq, Repr

/-- The codec identifiers, values of `VersionLZ` (R146). -/
def CodecName.id : CodecName → Byte
  | .blosclz => 0
  | .lz4 => 1
  | .lz4hc => 2
  | .snappy => 3
  | .zlib => 4
  | .zstd => 5

/-- The operand names of R73. -/
inductive OperandName where
  | src | len | dst | src2 | len2 | hlo | hhi | ts | mode | codec | level | buf | tsovr | hdr
  deriving DecidableEq, Repr

/-- What may stand to the right of `=` (R73). -/
inductive OperandValue where
  | number (v : Int)
  | mode (m : Mode)
  | codec (c : CodecName)
  | header (h : Header)
  deriving DecidableEq, Repr

/-- One written operand, `name=value`. -/
structure Operand where
  name : OperandName
  value : OperandValue
  deriving DecidableEq, Repr

/-- The descriptor fields a name writes in a command (R61, R62, R73); none where the format does not use them. -/
def OperandName.fields (op : Opcode) (n : OperandName) : List Field :=
  let named : List Field :=
    match n with
    | .src => [.src]
    | .len => [.len]
    | .dst => [.dst]
    | .src2 => if op.format = .W then [.w4] else []
    | .len2 => if op.format = .W then [.w5] else []
    | .hlo => if op.format = .W then [] else [.w4]
    | .hhi => if op.format = .W then [] else [.w5]
    | .ts => [.ts]
    | .mode => [.mode]
    | .codec => [.codec]
    | .level => [.level]
    | .buf => if op.format = .I then [.src] else []
    | .tsovr => if op.format = .C then [.ts] else []
    | .hdr => if op.format = .W then [] else [.w4, .w5]
  if named.all (fun f => op.format.uses f) then named else []

/-- A number fits a field: `LEVEL` is signed, every other field unsigned (R61, R62, R69). -/
def numberFor (f : Field) (v : Int) : Option Nat :=
  match f with
  | .level => if -128 ≤ v ∧ v ≤ 127 then some (v % 256).toNat else none
  | .mode => if 0 ≤ v ∧ v < 3 then some v.toNat else none
  | .codec => if 0 ≤ v ∧ v < 256 then some v.toNat else none
  | .ts => if 0 ≤ v ∧ v < 2 ^ 32 then some v.toNat else none
  | .src | .len | .dst | .w4 | .w5 => if 0 ≤ v ∧ v < 2 ^ 64 then some v.toNat else none

/-- The value a written operand gives one field: mode names for `mode`, codec names for `codec`, a header for the two
immediate words, numbers for every field. -/
def valueFor (f : Field) (v : OperandValue) : Option Nat :=
  match v, f with
  | .number n, f => numberFor f n
  | .mode m, .mode => some m.toBits.toNat
  | .codec c, .codec => some c.id.toNat
  | .header h, .w4 => some (hdrWords (hdrBytes h)).1.toNat
  | .header h, .w5 => some (hdrWords (hdrBytes h)).2.toNat
  | _, _ => none

/-- The defaults GB has (R73): `codec=lz4`, `level=5`, `mode=byte`, `ts=4`, `tsovr=0`; any other used field is required. -/
def defaultFor (op : Opcode) (f : Field) : Option Nat :=
  match f with
  | .codec => some 1
  | .level => some 5
  | .mode => some 1
  | .ts => if op.format = .C then some 0 else some 4
  | .src | .len | .dst | .w4 | .w5 => none

/-- Whether an operand is of a kind its name takes: `hdr` takes a header and nothing else does. -/
def Operand.kindOk (o : Operand) : Bool :=
  match o.name, o.value with
  | .hdr, .header _ => true
  | .hdr, _ => false
  | _, .header _ => false
  | _, _ => true

/-- The value of a field among the written operands: written once, not written, or wrong (an error). -/
def fieldValue (op : Opcode) (ops : List Operand) (f : Field) : Option Nat :=
  match ops.filter (fun o => (o.name.fields op).contains f) with
  | [] => if op.format.uses f then defaultFor op f else some 0
  | [o] => valueFor f o.value
  | _ :: _ :: _ => none

/-- A written command to its instruction (R73); none where R73 does not allow it or the descriptor is reserved. -/
def assemble (op : Opcode) (ops : List Operand) : Option Instr :=
  if ops.all (fun o => o.kindOk && !(o.name.fields op).isEmpty) then
    match fieldValue op ops .mode, fieldValue op ops .codec, fieldValue op ops .level, fieldValue op ops .ts,
      fieldValue op ops .src, fieldValue op ops .len, fieldValue op ops .dst, fieldValue op ops .w4,
      fieldValue op ops .w5 with
    | some mode, some codec, some level, some ts, some src, some len, some dst, some w4, some w5 =>
      match decode ⟨controlWord op (BitVec.ofNat 2 mode) (BitVec.ofNat 8 codec) (BitVec.ofNat 8 level)
          (BitVec.ofNat 32 ts), BitVec.ofNat 64 src, BitVec.ofNat 64 len, BitVec.ofNat 64 dst, BitVec.ofNat 64 w4,
          BitVec.ofNat 64 w5⟩ with
      | .ok i => some i
      | .error _ => none
    | _, _, _, _, _, _, _, _, _ => none
  else none

end Sys2Proof.Machine
end

