-- ==== Sys2Proof/Machine/Pseudo.lean ====
section
/-! DEFINITION. The pseudo-commands of R74 as the host's side of a composition (R173, R174): the first command, what the host
does with the state that command leaves, the codec step in between (R160), and the second command. -/

namespace Sys2Proof.Machine

/-- The pseudo-commands (R74). `tmp` is the buffer FPRE writes. -/
inductive Pseudo where
  | info (src len : Word)
  | decompress (frame len dst : Word)
  | decompressWithSize (frame len dst : Word) (tsovr : BitVec 32)
  | compress (data len dst tmp : Word) (codec level : Byte) (mode : Mode) (ts : BitVec 32)
  | compressWithOptions (data len dst tmp : Word) (codec level : Byte) (mode : Mode) (ts : BitVec 32)
  deriving DecidableEq, Repr

/-- What the host asks of the external codec (R160). -/
inductive CodecRequest where
  /-- `decompress(mem[addr : addr+len], expected)` by the codec with this id. -/
  | decompress (id : Byte) (addr len expected : Word)
  /-- `compress(mem[addr : addr+len], level)` by the codec with this id. -/
  | compress (id : Byte) (addr len : Word) (level : Byte)
  deriving DecidableEq, Repr

/-- What the codec step left: its output in a buffer, or a failure (R207, R208). -/
inductive CodecResult where
  | buffer (addr len : Word)
  | failed
  deriving DecidableEq, Repr

/-- What the host does after the first command. -/
inductive PseudoNext where
  /-- Nothing more to do: the results are in the registers. -/
  | done
  /-- The operation ends with this error kind. -/
  | stopped (k : ErrKind)
  /-- The engine has faulted (R215): only reset goes on. -/
  | faulted (c : FaultCode)
  /-- The codec must run before the second command. -/
  | codec (r : CodecRequest)
  /-- The second command. -/
  | issue (i : Instr)
  deriving DecidableEq, Repr

/-- A `ts` above 255 is a reserved FWRAP encoding: the pseudo-command is then not expressible (R74). -/
def Pseudo.expressible : Pseudo → Bool
  | .compress _ _ _ _ _ _ _ ts | .compressWithOptions _ _ _ _ _ _ _ ts => decide (ts.toNat ≤ 255)
  | .info _ _ | .decompress _ _ _ | .decompressWithSize _ _ _ _ => true

/-- The first command of the expansion (R74). -/
def Pseudo.first : Pseudo → Instr
  | .info src len => .hparse src len
  | .decompress frame len _ | .decompressWithSize frame len _ _ => .fopen frame len
  | .compress data len _ tmp codec level mode ts | .compressWithOptions data len _ tmp codec level mode ts =>
    .fpre mode codec level ts data len tmp

/-- After FOPEN (R173): a memcpy frame goes to FCLOSE as it is, any other through the codec named by `VersionLZ`. -/
def decompressNext (dst : Word) (tsovr : BitVec 32) (s : State) : Option CodecResult → PseudoNext
  | r =>
    let close (src len : Word) : PseudoNext := .issue (.fclose tsovr src len dst s.hdrLo s.hdrHi)
    let h := hdrFields (immediateBytes s.hdrLo s.hdrHi)
    if isMemcpy h.flags then close s.res0 s.res1
    else
      match r with
      | none => .codec (.decompress h.versionLZ s.res0 s.res1 (h.nBytesOrig.setWidth 64))
      | some .failed => .stopped .decompressionFailed
      | some (.buffer addr len) => close addr len

/-- After FPRE (R174): the codec compresses the shuffled data at `level' = RES1[39:32]`, then FWRAP with the same options. -/
def compressNext (data len dst tmp : Word) (codec : Byte) (mode : Mode) (ts : BitVec 32) (s : State) :
    Option CodecResult → PseudoNext
  | none => .codec (.compress codec tmp len (s.res1.extractLsb' 32 8))
  | some .failed => .stopped .compressionFailed
  | some (.buffer addr clen) => .issue (.fwrap mode codec ts data len dst addr clen)

/-- What the host does in the state the first command left, given what the codec step has answered so far (R74): it stops on
a fault and on an error of the first command. -/
def Pseudo.next (p : Pseudo) (s : State) (r : Option CodecResult) : PseudoNext :=
  match s.status.fault with
  | some c => .faulted c
  | none =>
    if s.status.err ≠ .ok then .stopped s.status.err
    else
      match p with
      | .info _ _ => .done
      | .decompress _ _ dst => decompressNext dst 0 s r
      | .decompressWithSize _ _ dst tsovr => decompressNext dst tsovr s r
      | .compress data len dst tmp codec _ mode ts | .compressWithOptions data len dst tmp codec _ mode ts =>
        compressNext data len dst tmp codec mode ts s r

/-- The six pushes by which the host issues a command (R75), as host actions. -/
def issueActions (i : Instr) : List HostAction :=
  let d := encode i
  [.writeReg 0 d.w0, .writeReg 0 d.w1, .writeReg 0 d.w2, .writeReg 0 d.w3, .writeReg 0 d.w4, .writeReg 0 d.w5]

end Sys2Proof.Machine
end

