-- ==== Sys2Proof/Safety.lean ====
section
/-! DEFINITION. What holds of every state a run can reach, and what a safe run is, in the terms the statements use. -/

namespace Sys2Proof.Machine

/-- What every step keeps (R10, R14, R15, R16, R19, R201, R215, R248): the parameters are legal, memory is in canonical form
and inside `[0, MEM_SIZE)`, no command is in flight, `CAP.SIMD` is what reset made it, `ERR` holds no code of the host's codec
step, and a faulted engine has an empty assembly buffer and a set lock. -/
def State.Inv (s : State) : Prop :=
  s.params.wf = true ∧ s.mem.wf = true ∧ s.mem.inside s.params.memSize = true ∧
  s.status.busy = false ∧ s.simd = s.params.simdCap ∧
  s.status.err ≠ .compressionFailed ∧ s.status.err ≠ .decompressionFailed ∧
  (s.status.fault.isSome = true → s.asm = .empty ∧ s.lock = true)

/-- The engine accepts a descriptor (R75): no fault and no command in flight. -/
def State.Ready (s : State) : Prop := s.status.fault = none ∧ s.status.busy = false

/-- A run is safe when it has not left the machine: no fault of the model, no refusal. -/
def SafeOutcome (o : Host.Outcome State Fault Refusal) : Prop := ∃ s, o = .next s

end Sys2Proof.Machine
end

