-- ==== Sys2Proof/Certificates/Slice0/Obligations.lean ====
section
/-! DEFINITION. The statements for the provers. The first part writes the spec's own formulas over bytes, numbers and ranges
(index maps, header numbers, the tables of R25, R48, R201), apart from the model's operations; the statements compare the
model with them. -/

namespace Sys2Proof.Spec

open Machine

/-! ## The three ends of a command (R25, R200, R210, R215) -/

/-- A successful end: memory and result registers as given, `ERR = 0`, `BUSY = 0`, everything else unchanged (R25). -/
def success (s : State) (m : Memory) (r0 r1 lo hi : Word) : State :=
  { s with mem := m, res0 := r0, res1 := r1, hdrLo := lo, hdrHi := hi,
           status := { err := .ok, busy := false, fault := s.status.fault } }

/-- An error end (R210). -/
def errorEnd (s : State) (k : ErrKind) : State :=
  { s with status := { err := k, busy := false, fault := s.status.fault } }

/-- A fault end (R215). -/
def faultEnd (s : State) (c : FaultCode) : State :=
  { s with status := { err := s.status.err, busy := false, fault := some c } }

/-- Every byte outside `[a, a+n)` reads as before. -/
def SameOutside (m m' : Memory) (a n : Nat) : Prop :=
  ∀ x, ¬ (a ≤ x ∧ x < a + n) → memByte m' x = memByte m x

/-! ## Ranges (R46, R47, R48) -/

/-- `[a, a+n)` lies in buffer memory (R46). -/
abbrev Fits (s : State) (a n : Nat) : Prop := a + n ≤ s.params.memSize

/-- Two ranges share a byte (R47). -/
abbrev Overlaps (a n b m : Nat) : Prop := 0 < n ∧ 0 < m ∧ a < b + m ∧ b < a + n

/-- The source ranges a command names (R48). -/
def readRanges : Instr → List (Nat × Nat)
  | .shuf _ src len _ | .unshuf _ src len _ | .bshuf _ src len _ | .bunshuf _ src len _
  | .shufip _ _ src len | .unshufip _ _ src len
  | .hparse src len | .dsize src len | .fopen src len
  | .fclose _ src len _ _ _ | .fpre _ _ _ _ src len _ => [(src.toNat, len.toNat)]
  | .fwrap _ _ _ src len _ src2 len2 => [(src.toNat, len.toNat), (src2.toNat, len2.toNat)]
  | .hser _ _ _ | .hmode _ | .hhassh _ | .hhasbs _ | .hismc _ => []

/-- The destination range a command names (R48). -/
def writeRange : Instr → Option (Nat × Nat)
  | .shuf _ _ len dst | .unshuf _ _ len dst | .bshuf _ _ len dst | .bunshuf _ _ len dst
  | .fclose _ _ len dst _ _ | .fpre _ _ _ _ _ len dst => some (dst.toNat, len.toNat)
  | .shufip _ _ src len | .unshufip _ _ src len => some (src.toNat, len.toNat)
  | .hser dst _ _ => some (dst.toNat, 16)
  | .fwrap _ _ _ _ len dst _ len2 =>
    some (dst.toNat, 16 + (if len.toNat ≤ len2.toNat then len.toNat else len2.toNat))
  | .hparse _ _ | .dsize _ _ | .fopen _ _ | .hmode _ | .hhassh _ | .hhasbs _ | .hismc _ => none

/-- The in-place commands, exempt from the overlap test (R47). -/
def inPlace : Instr → Bool
  | .shufip _ _ _ _ | .unshufip _ _ _ _ => true
  | .shuf _ _ _ _ | .unshuf _ _ _ _ | .bshuf _ _ _ _ | .bunshuf _ _ _ _
  | .hparse _ _ | .hser _ _ _ | .hmode _ | .hhassh _ | .hhasbs _ | .hismc _ | .dsize _ _
  | .fopen _ _ | .fclose _ _ _ _ _ _ | .fpre _ _ _ _ _ _ _ | .fwrap _ _ _ _ _ _ _ _ => false

/-- Some range the command names is not in memory: `FC_RANGE` (R214). -/
def RangeViolation (i : Instr) (s : State) : Prop :=
  ∃ r ∈ readRanges i ++ (writeRange i).toList, ¬ Fits s r.1 r.2

/-- Some source range overlaps the destination range: `FC_OVERLAP` (R214). -/
def OverlapViolation (i : Instr) : Prop :=
  inPlace i = false ∧ ∃ r ∈ readRanges i, ∃ w ∈ (writeRange i).toList, Overlaps r.1 r.2 w.1 w.2

/-- A command passes the fault tests: its range lies in memory and source and destination do not overlap. -/
def Clear (i : Instr) (s : State) : Prop := i.wf = true ∧ ¬ RangeViolation i s ∧ ¬ OverlapViolation i

/-! ## What each command writes and raises (R25, R201) -/

/-- The commands with a `RES0` entry in the table of R25. -/
def writesRes0 : Instr → Bool
  | .hparse _ _ => false
  | .shuf _ _ _ _ | .unshuf _ _ _ _ | .bshuf _ _ _ _ | .bunshuf _ _ _ _ | .shufip _ _ _ _ | .unshufip _ _ _ _
  | .hser _ _ _ | .hmode _ | .hhassh _ | .hhasbs _ | .hismc _ | .dsize _ _
  | .fopen _ _ | .fclose _ _ _ _ _ _ | .fpre _ _ _ _ _ _ _ | .fwrap _ _ _ _ _ _ _ _ => true

/-- The commands with a `RES1` entry in the table of R25. -/
def writesRes1 : Instr → Bool
  | .fopen _ _ | .fpre _ _ _ _ _ _ _ | .fwrap _ _ _ _ _ _ _ _ => true
  | .shuf _ _ _ _ | .unshuf _ _ _ _ | .bshuf _ _ _ _ | .bunshuf _ _ _ _ | .shufip _ _ _ _ | .unshufip _ _ _ _
  | .hparse _ _ | .hser _ _ _ | .hmode _ | .hhassh _ | .hhasbs _ | .hismc _ | .dsize _ _
  | .fclose _ _ _ _ _ _ => false

/-- The commands with a `HDR_LO`, `HDR_HI` entry in the table of R25. -/
def writesHdr : Instr → Bool
  | .hparse _ _ | .fopen _ _ | .fwrap _ _ _ _ _ _ _ _ => true
  | .shuf _ _ _ _ | .unshuf _ _ _ _ | .bshuf _ _ _ _ | .bunshuf _ _ _ _ | .shufip _ _ _ _ | .unshufip _ _ _ _
  | .hser _ _ _ | .hmode _ | .hhassh _ | .hhasbs _ | .hismc _ | .dsize _ _
  | .fclose _ _ _ _ _ _ | .fpre _ _ _ _ _ _ _ => false

/-- The error kinds a command can raise (R201). -/
def raises : Instr → List ErrKind
  | .hparse _ _ | .dsize _ _ => [.invalidHeader, .invalidVersion]
  | .fopen _ _ => [.invalidHeader, .invalidVersion, .invalidData, .invalidCodec]
  | .fclose _ _ _ _ _ _ => [.sizeMismatch]
  | .fpre _ _ _ _ _ _ _ | .fwrap _ _ _ _ _ _ _ _ => [.invalidData, .dataTooLarge, .invalidCodec]
  | .shuf _ _ _ _ | .unshuf _ _ _ _ | .bshuf _ _ _ _ | .bunshuf _ _ _ _ | .shufip _ _ _ _ | .unshufip _ _ _ _
  | .hser _ _ _ | .hmode _ | .hhassh _ | .hhasbs _ | .hismc _ => []

/-! ## The transforms as relations between input and output bytes (R101 to R106, R114) -/

/-- A buffer of `n` bytes is copied. -/
def Copied (n : Nat) (inp out : Nat → Byte) : Prop := ∀ p, p < n → out p = inp p

/-- R101. -/
abbrev Degenerate (n t : Nat) : Prop := t ≤ 1 ∨ n < t

/-- R102 with R101: output `j*E + i` is input `i*T + j`, the bytes from `E*T` on pass through. -/
def ByteShuffled (n t : Nat) (inp out : Nat → Byte) : Prop :=
  (Degenerate n t → Copied n inp out) ∧
  (¬ Degenerate n t →
    (∀ i j, i < n / t → j < t → out (j * (n / t) + i) = inp (i * t + j)) ∧
    ∀ p, n / t * t ≤ p → p < n → out p = inp p)

/-- R103 with R101: output `i*T + j` is input `j*E + i`. -/
def ByteUnshuffled (n t : Nat) (inp out : Nat → Byte) : Prop :=
  (Degenerate n t → Copied n inp out) ∧
  (¬ Degenerate n t →
    (∀ i j, i < n / t → j < t → out (i * t + j) = inp (j * (n / t) + i)) ∧
    ∀ p, n / t * t ≤ p → p < n → out p = inp p)

/-- R105 with R101 and R104, bit by bit: bit `7-k` of output byte `g*8*T + j*8 + m` is bit `7-m` of input byte
`g*8*T + k*T + j`; the bytes from `G*8*T` on pass through. -/
def BitShuffled (n t : Nat) (inp out : Nat → Byte) : Prop :=
  (Degenerate n t → Copied n inp out) ∧
  (¬ Degenerate n t →
    (∀ g j m k, g < n / t / 8 → j < t → m < 8 → k < 8 →
      (out (g * 8 * t + j * 8 + m)).getLsbD (7 - k) = (inp (g * 8 * t + k * t + j)).getLsbD (7 - m)) ∧
    ∀ p, n / t / 8 * 8 * t ≤ p → p < n → out p = inp p)

/-- R106 with R101 and R104, bit by bit: bit `7-m` of output byte `g*8*T + k*T + j` is bit `7-k` of input byte
`g*8*T + j*8 + m`. -/
def BitUnshuffled (n t : Nat) (inp out : Nat → Byte) : Prop :=
  (Degenerate n t → Copied n inp out) ∧
  (¬ Degenerate n t →
    (∀ g j m k, g < n / t / 8 → j < t → m < 8 → k < 8 →
      (out (g * 8 * t + k * t + j)).getLsbD (7 - m) = (inp (g * 8 * t + j * 8 + m)).getLsbD (7 - k)) ∧
    ∀ p, n / t / 8 * 8 * t ≤ p → p < n → out p = inp p)

/-- `forward(mode, s, T)` (R114). -/
def Forwarded (mode : Mode) (n t : Nat) (inp out : Nat → Byte) : Prop :=
  match mode with
  | .noShuffle => Copied n inp out
  | .byteShuffle => ByteShuffled n t inp out
  | .bitShuffle => BitShuffled n t inp out

/-- `inverse(mode, s, T)` (R114). -/
def Inverted (mode : Mode) (n t : Nat) (inp out : Nat → Byte) : Prop :=
  match mode with
  | .noShuffle => Copied n inp out
  | .byteShuffle => ByteUnshuffled n t inp out
  | .bitShuffle => BitUnshuffled n t inp out

/-- The bytes of buffer memory from an address on. -/
def bytesFrom (m : Memory) (a : Nat) : Nat → Byte := fun k => memByte m (a + k)

/-! ## Numbers in memory and in immediates (R40, R131, R161, R166, R168) -/

/-- The little-endian number in the `n` bytes at an address (R40). -/
def numberAt (m : Memory) (a : Nat) : Nat → Nat
  | 0 => 0
  | n + 1 => numberAt m a n + (memByte m (a + n)).toNat * 256 ^ n

/-- The bytes at `a` hold `v` little-endian in `n` bytes. -/
def HoldsNumber (m : Memory) (a n v : Nat) : Prop :=
  ∀ k, k < n → (memByte m (a + k)).toNat = v / 256 ^ k % 256

/-- Codec id `c` is registered: bit `c` of the 256-bit presence vector (R17). -/
abbrev Registered (s : State) (c : Nat) : Prop :=
  (s.codecMask0.toNat + s.codecMask1.toNat * 2 ^ 64 + s.codecMask2.toNat * 2 ^ 128
    + s.codecMask3.toNat * 2 ^ 192).testBit c = true

/-- `shuffle_mode` of a flags number (R133): bit 2 before bit 0. -/
def modeOfFlags (f : Nat) : Mode :=
  if f.testBit 2 then .bitShuffle else if f.testBit 0 then .byteShuffle else .noShuffle

/-- `level'` of R166 for a signed level. -/
def levelClamped (l : Int) : Nat := if l < 1 then 1 else if 9 < l then 9 else l.toNat

/-- The weight of a mode's flag (R168). -/
def modeWeight : Mode → Nat
  | .noShuffle => 0
  | .byteShuffle => 1
  | .bitShuffle => 4

/-- Fields of the low header word (R12, R71). -/
def hloFlags (hlo : Word) : Nat := hlo.toNat / 2 ^ 16 % 256
/-- `TypeSize` of the low header word. -/
def hloTypeSize (hlo : Word) : Nat := hlo.toNat / 2 ^ 24 % 256
/-- `NBytesOrig` of the low header word. -/
def hloOrig (hlo : Word) : Nat := hlo.toNat / 2 ^ 32

/-- The post-decode plan of R164 on `n` decoded bytes. -/
def PostDecoded (hlo : Word) (tsovr n : Nat) (inp out : Nat → Byte) : Prop :=
  let ts := if 0 < tsovr then tsovr else hloTypeSize hlo
  if (hloFlags hlo).testBit 1 then Copied n inp out
  else if 1 < ts then Inverted (modeOfFlags (hloFlags hlo)) n ts inp out
  else Copied n inp out

/-! ## Descriptors by number (R61 to R67) -/

/-- The mode a legal `MODE` number names (R67). -/
def modeOfNumber (v : Nat) : Mode := if v = 0 then .noShuffle else if v = 1 then .byteShuffle else .bitShuffle

/-- How a format P descriptor with this opcode decodes: `MODE`, `RSV`, `CODEC`, `LEVEL`, `W4`, `W5` must be zero (R63). -/
def DecodesP (opc : Nat) (mk : BitVec 32 → Word → Word → Word → Instr) : Prop :=
  ∀ d : Descriptor, d.w0.toNat % 2 ^ 8 = opc →
    decode d = if d.w0.toNat / 2 ^ 8 % 2 ^ 24 = 0 ∧ d.w4 = 0 ∧ d.w5 = 0
      then .ok (mk (BitVec.ofNat 32 (d.w0.toNat / 2 ^ 32)) d.w1 d.w2 d.w3) else .error .reserved

/-- Format I: `RSV`, `CODEC`, `LEVEL`, `W3`, `W4`, `W5` zero and `MODE` not 3 (R63, R67). -/
def DecodesI (opc : Nat) (mk : Mode → BitVec 32 → Word → Word → Instr) : Prop :=
  ∀ d : Descriptor, d.w0.toNat % 2 ^ 8 = opc →
    decode d = if d.w0.toNat / 2 ^ 10 % 2 ^ 22 = 0 ∧ d.w0.toNat / 2 ^ 8 % 4 ≠ 3 ∧ d.w3 = 0 ∧ d.w4 = 0 ∧ d.w5 = 0
      then .ok (mk (modeOfNumber (d.w0.toNat / 2 ^ 8 % 4)) (BitVec.ofNat 32 (d.w0.toNat / 2 ^ 32)) d.w1 d.w2)
      else .error .reserved

/-- Format S: everything but `OPC`, `SRC`, `LEN` zero (R63). -/
def DecodesS (opc : Nat) (mk : Word → Word → Instr) : Prop :=
  ∀ d : Descriptor, d.w0.toNat % 2 ^ 8 = opc →
    decode d = if d.w0.toNat / 2 ^ 8 = 0 ∧ d.w3 = 0 ∧ d.w4 = 0 ∧ d.w5 = 0
      then .ok (mk d.w1 d.w2) else .error .reserved

/-- Format H: everything but `OPC`, `DST`, `HLO`, `HHI` zero (R63). -/
def DecodesH (opc : Nat) (mk : Word → Word → Word → Instr) : Prop :=
  ∀ d : Descriptor, d.w0.toNat % 2 ^ 8 = opc →
    decode d = if d.w0.toNat / 2 ^ 8 = 0 ∧ d.w1 = 0 ∧ d.w2 = 0
      then .ok (mk d.w3 d.w4 d.w5) else .error .reserved

/-- Format Q: everything but `OPC` and `HLO` zero (R63). -/
def DecodesQ (opc : Nat) (mk : Word → Instr) : Prop :=
  ∀ d : Descriptor, d.w0.toNat % 2 ^ 8 = opc →
    decode d = if d.w0.toNat / 2 ^ 8 = 0 ∧ d.w1 = 0 ∧ d.w2 = 0 ∧ d.w3 = 0 ∧ d.w5 = 0
      then .ok (mk d.w4) else .error .reserved

/-- Format C: `MODE`, `RSV`, `CODEC`, `LEVEL` zero (R63). -/
def DecodesC (opc : Nat) (mk : BitVec 32 → Word → Word → Word → Word → Word → Instr) : Prop :=
  ∀ d : Descriptor, d.w0.toNat % 2 ^ 8 = opc →
    decode d = if d.w0.toNat / 2 ^ 8 % 2 ^ 24 = 0
      then .ok (mk (BitVec.ofNat 32 (d.w0.toNat / 2 ^ 32)) d.w1 d.w2 d.w3 d.w4 d.w5) else .error .reserved

/-- Format E: `RSV`, `W4`, `W5` zero and `MODE` not 3 (R63, R67). -/
def DecodesE (opc : Nat) (mk : Mode → Byte → Byte → BitVec 32 → Word → Word → Word → Instr) : Prop :=
  ∀ d : Descriptor, d.w0.toNat % 2 ^ 8 = opc →
    decode d = if d.w0.toNat / 2 ^ 10 % 2 ^ 6 = 0 ∧ d.w0.toNat / 2 ^ 8 % 4 ≠ 3 ∧ d.w4 = 0 ∧ d.w5 = 0
      then .ok (mk (modeOfNumber (d.w0.toNat / 2 ^ 8 % 4)) (BitVec.ofNat 8 (d.w0.toNat / 2 ^ 16))
        (BitVec.ofNat 8 (d.w0.toNat / 2 ^ 24)) (BitVec.ofNat 32 (d.w0.toNat / 2 ^ 32)) d.w1 d.w2 d.w3)
      else .error .reserved

/-- Format W: `RSV` and `LEVEL` zero, `MODE` not 3, `TS` at most 255 (R63, R64). -/
def DecodesW (opc : Nat) (mk : Mode → Byte → BitVec 32 → Word → Word → Word → Word → Word → Instr) : Prop :=
  ∀ d : Descriptor, d.w0.toNat % 2 ^ 8 = opc →
    decode d = if d.w0.toNat / 2 ^ 10 % 2 ^ 6 = 0 ∧ d.w0.toNat / 2 ^ 24 % 2 ^ 8 = 0 ∧ d.w0.toNat / 2 ^ 8 % 4 ≠ 3 ∧
        d.w0.toNat / 2 ^ 32 ≤ 255
      then .ok (mk (modeOfNumber (d.w0.toNat / 2 ^ 8 % 4)) (BitVec.ofNat 8 (d.w0.toNat / 2 ^ 16))
        (BitVec.ofNat 32 (d.w0.toNat / 2 ^ 32)) d.w1 d.w2 d.w3 d.w4 d.w5)
      else .error .reserved

/-- The opcode numbers of R65. -/
def opcodes : List Nat :=
  [0x01, 0x02, 0x03, 0x04, 0x05, 0x06, 0x10, 0x11, 0x12, 0x13, 0x14, 0x15, 0x16, 0x20, 0x21, 0x22, 0x23]

/-! ## Shapes of statements -/

/-- The fault ends of a command with a source and a destination range of `len` bytes (R214, R215). -/
def SrcDstFaults (i : Instr) (s : State) (src len dst : Nat) : Prop :=
  (¬ (Fits s src len ∧ Fits s dst len) → exec i s = .next (faultEnd s .range)) ∧
  (Fits s src len → Fits s dst len → Overlaps src len dst len → exec i s = .next (faultEnd s .overlap))

/-- An out-of-place transform command (R117): its fault ends, and on every other descriptor the destination holds the
transformed source, `RES0 = LEN`, nothing else is written. -/
def TransformsTo (i : Instr) (src len dst : Word) (rel : (Nat → Byte) → (Nat → Byte) → Prop) : Prop :=
  ∀ s : State, s.mem.wf = true →
    SrcDstFaults i s src.toNat len.toNat dst.toNat ∧
    (Fits s src.toNat len.toNat → Fits s dst.toNat len.toNat →
      ¬ Overlaps src.toNat len.toNat dst.toNat len.toNat →
      ∃ m, exec i s = .next (success s m len s.res1 s.hdrLo s.hdrHi) ∧
        rel (bytesFrom s.mem src.toNat) (bytesFrom m dst.toNat) ∧ SameOutside s.mem m dst.toNat len.toNat)

/-- An in-place transform command (R115, R116, R117). -/
def TransformsInPlace (i : Instr) (src len : Word) (rel : (Nat → Byte) → (Nat → Byte) → Prop) : Prop :=
  ∀ s : State, s.mem.wf = true →
    (¬ Fits s src.toNat len.toNat → exec i s = .next (faultEnd s .range)) ∧
    (Fits s src.toNat len.toNat →
      ∃ m, exec i s = .next (success s m len s.res1 s.hdrLo s.hdrHi) ∧
        rel (bytesFrom s.mem src.toNat) (bytesFrom m src.toNat) ∧ SameOutside s.mem m src.toNat len.toNat)

/-- A flag query (R140 to R143): always succeeds and writes `RES0` only. -/
def Queries (i : Instr) (v : Nat) : Prop :=
  ∀ s : State, exec i s = .next (success s s.mem (BitVec.ofNat 64 v) s.res1 s.hdrLo s.hdrHi)

/-- The first failing encode-side check (R167). -/
def encodeError (s : State) (len codec : Nat) (k : ErrKind) : Prop :=
  (len = 0 ∧ k = .invalidData) ∨ (2 ^ 32 - 1 < len ∧ k = .dataTooLarge) ∨
    (len ≠ 0 ∧ len ≤ 2 ^ 32 - 1 ∧ ¬ Registered s codec ∧ k = .invalidCodec)

/-- The three commands that test codec registration (R1). -/
def testsRegistry : Instr → Bool
  | .fopen _ _ | .fpre _ _ _ _ _ _ _ | .fwrap _ _ _ _ _ _ _ _ => true
  | .shuf _ _ _ _ | .unshuf _ _ _ _ | .bshuf _ _ _ _ | .bunshuf _ _ _ _ | .shufip _ _ _ _ | .unshufip _ _ _ _
  | .hparse _ _ | .hser _ _ _ | .hmode _ | .hhassh _ | .hhasbs _ | .hismc _ | .dsize _ _
  | .fclose _ _ _ _ _ _ => false

/-- Two states agree on everything a command may look at (R1): `MEM_SIZE`, the bytes of its source ranges and, for the
commands that test it, the registry. -/
def AgreeFor (i : Instr) (s s' : State) : Prop :=
  s.params.memSize = s'.params.memSize ∧
  (testsRegistry i = true → s.codecMask0 = s'.codecMask0 ∧ s.codecMask1 = s'.codecMask1 ∧
    s.codecMask2 = s'.codecMask2 ∧ s.codecMask3 = s'.codecMask3) ∧
  ∀ r ∈ readRanges i, ∀ a, r.1 ≤ a → a < r.1 + r.2 → memByte s.mem a = memByte s'.mem a

end Sys2Proof.Spec

open Sys2Proof Sys2Proof.Machine Sys2Proof.Spec

/-! ## Encoding -/

/-- R60 to R64: the descriptor of a well-formed instruction decodes to it, whatever its operands. -/
def Obligations.DecodeOfEncode : Prop :=
  ∀ i : Instr, i.wf = true → decode (encode i) = .ok i

/-- R64: decoding is injective on well-formed descriptors; what it answers is well-formed and has that one bit pattern. -/
def Obligations.EncodeOfDecode : Prop :=
  ∀ (d : Descriptor) (i : Instr), decode d = .ok i → i.wf = true ∧ encode i = d

/-- R61 to R67 and steps 1 and 2 of R76: which descriptors decode to which command, and which fault the others name. -/
def Obligations.DecodeFollowsOpcodeMap : Prop :=
  (∀ d : Descriptor, d.w0.toNat % 2 ^ 8 ∉ opcodes → decode d = .error .opcode) ∧
  DecodesP 0x01 Instr.shuf ∧ DecodesP 0x02 Instr.unshuf ∧ DecodesP 0x03 Instr.bshuf ∧ DecodesP 0x04 Instr.bunshuf ∧
  DecodesI 0x05 Instr.shufip ∧ DecodesI 0x06 Instr.unshufip ∧
  DecodesS 0x10 Instr.hparse ∧ DecodesH 0x11 Instr.hser ∧
  DecodesQ 0x12 Instr.hmode ∧ DecodesQ 0x13 Instr.hhassh ∧ DecodesQ 0x14 Instr.hhasbs ∧ DecodesQ 0x15 Instr.hismc ∧
  DecodesS 0x16 Instr.dsize ∧ DecodesS 0x20 Instr.fopen ∧ DecodesC 0x21 Instr.fclose ∧
  DecodesE 0x22 Instr.fpre ∧ DecodesW 0x23 Instr.fwrap

/-- Words of 95_test_vectors.md (K1, K3, H1, F4, E2, W1, K8, K9, W5) decode as the spec reads them. -/
def Obligations.SampleDescriptorsDecode : Prop :=
  decode ⟨0x0000000400000001, 0x100, 0xA, 0x200, 0, 0⟩ = .ok (.shuf 4 0x100 10 0x200) ∧
  decode ⟨0x0000000200000205, 0x100, 0x13, 0, 0, 0⟩ = .ok (.shufip .bitShuffle 2 0x100 19) ∧
  decode ⟨0x0000000000000011, 0, 0, 0x300, 0x0000010001000102, 0x0000011000000100⟩
    = .ok (.hser 0x300 0x0000010001000102 0x0000011000000100) ∧
  decode ⟨0x0000000400000021, 0x100, 8, 0x200, 0x0000000802010102, 0x0000001400000008⟩
    = .ok (.fclose 4 0x100 8 0x200 0x0000000802010102 0x0000001400000008) ∧
  decode ⟨0x00000000FD050222, 0x100, 0xC, 0x200, 0, 0⟩ = .ok (.fpre .bitShuffle 5 0xFD 0 0x100 12 0x200) ∧
  decode ⟨0x0000000400010123, 0x100, 0xC, 0x300, 0x280, 7⟩ = .ok (.fwrap .byteShuffle 1 4 0x100 12 0x300 0x280 7) ∧
  decode ⟨0, 0, 0, 0, 0, 0⟩ = .error .opcode ∧
  decode ⟨0x0000000400000305, 0x100, 0xA, 0, 0, 0⟩ = .error .reserved ∧
  decode ⟨0x0000010000010123, 0x100, 4, 0x200, 0x300, 0⟩ = .error .reserved

/-! ## Permutation commands -/

/-- R110: SHUF on every descriptor; encoding, faults, result, and what it leaves unchanged. -/
def Obligations.ShufRearrangesBytes : Prop :=
  DecodesP 0x01 Instr.shuf ∧
  ∀ ts src len dst, TransformsTo (.shuf ts src len dst) src len dst (ByteShuffled len.toNat ts.toNat)

/-- R111: UNSHUF on every descriptor. -/
def Obligations.UnshufRestoresOrder : Prop :=
  DecodesP 0x02 Instr.unshuf ∧
  ∀ ts src len dst, TransformsTo (.unshuf ts src len dst) src len dst (ByteUnshuffled len.toNat ts.toNat)

/-- R112: BSHUF on every descriptor. -/
def Obligations.BshufTransposesBits : Prop :=
  DecodesP 0x03 Instr.bshuf ∧
  ∀ ts src len dst, TransformsTo (.bshuf ts src len dst) src len dst (BitShuffled len.toNat ts.toNat)

/-- R113: BUNSHUF on every descriptor. -/
def Obligations.BunshufTransposesBack : Prop :=
  DecodesP 0x04 Instr.bunshuf ∧
  ∀ ts src len dst, TransformsTo (.bunshuf ts src len dst) src len dst (BitUnshuffled len.toNat ts.toNat)

/-- R115: SHUFIP on every descriptor. -/
def Obligations.ShufipTransformsInPlace : Prop :=
  DecodesI 0x05 Instr.shufip ∧
  ∀ mode ts src len, TransformsInPlace (.shufip mode ts src len) src len (Forwarded mode len.toNat ts.toNat)

/-- R116: UNSHUFIP on every descriptor; after SHUFIP with the same operands it restores the whole memory. -/
def Obligations.UnshufipUndoesShufip : Prop :=
  DecodesI 0x06 Instr.unshufip ∧
  (∀ mode ts src len, TransformsInPlace (.unshufip mode ts src len) src len (Inverted mode len.toNat ts.toNat)) ∧
  ∀ mode ts src len (s t : State), s.mem.wf = true → Fits s src.toNat len.toNat →
    exec (.shufip mode ts src len) s = .next t →
    exec (.unshufip mode ts src len) t = .next (success s s.mem len s.res1 s.hdrLo s.hdrHi)

/-- R104 and R118 (a): the 8 by 8 transpose bit by bit, and that it is its own inverse. -/
def Obligations.BitTransposeIsSelfInverse : Prop :=
  ∀ (b : Nat → Byte),
    (∀ m k, m < 8 → k < 8 → (tr8 b m).getLsbD (7 - k) = (b k).getLsbD (7 - m)) ∧
    ∀ k, k < 8 → tr8 (tr8 b) k = b k

/-- R107: no transform changes the length. -/
def Obligations.TransformsKeepLength : Prop :=
  ∀ (s : List Byte) (t : Nat),
    (byteShuffle s t).length = s.length ∧ (byteUnshuffle s t).length = s.length ∧
    (bitShuffle s t).length = s.length ∧ (bitUnshuffle s t).length = s.length

/-- R108: the round trips in both orders for every type size, and the identity of the inverse where the forward transform is
the identity. -/
def Obligations.TransformsRoundTrip : Prop :=
  ∀ (s : List Byte) (t : Nat),
    byteUnshuffle (byteShuffle s t) t = s ∧ bitUnshuffle (bitShuffle s t) t = s ∧
    byteShuffle (byteUnshuffle s t) t = s ∧ bitShuffle (bitUnshuffle s t) t = s ∧
    (byteShuffle s t = s → byteUnshuffle s t = s)

/-- R118 (b) for the byte shuffle, and R118 (d): the bytes are permuted; with a single element nothing moves. -/
def Obligations.ByteShufflePermutes : Prop :=
  ∀ (s : List Byte) (t : Nat), (byteShuffle s t).Perm s ∧ (s.length = t → byteShuffle s t = s)

/-! ## Header commands -/

/-- R131, R136, R137, R148: fields, bytes and words of a header carry the same 128 bits, and parsing undoes serializing. -/
def Obligations.HeaderPackingIsLossless : Prop :=
  (∀ h : Header, (hdrBytes h).length = 16 ∧ hdrFields (hdrBytes h) = h ∧
    (h.version = 2#8 → parse (serialize h) = .ok h)) ∧
  (∀ s : List Byte, s.length = 16 → hdrBytes (hdrFields s) = s ∧
    immediateBytes (hdrWords s).1 (hdrWords s).2 = s) ∧
  (∀ lo hi : Word, hdrWords (immediateBytes lo hi) = (lo, hi)) ∧
  (∀ (s : List Byte) (h : Header), parse s = .ok h → serialize h = s.take 16)

/-- R135: `parse` tests the length, then the version, and accepts everything else. -/
def Obligations.ParseTestsLengthThenVersion : Prop :=
  ∀ s : List Byte,
    (s.length < 16 → parse s = .error .invalidHeader) ∧
    (16 ≤ s.length → s.head? ≠ some 2#8 → parse s = .error .invalidVersion) ∧
    (16 ≤ s.length → s.head? = some 2#8 → parse s = .ok (hdrFields (s.take 16)))

/-- R133, R134: the flag functions of every flags byte. -/
def Obligations.FlagFunctionsReadTheirBits : Prop :=
  ∀ f : Byte, shuffleMode f = modeOfFlags f.toNat ∧ hasShuffle f = f.toNat.testBit 0 ∧
    isMemcpy f = f.toNat.testBit 1 ∧ hasBitshuffle f = f.toNat.testBit 2

/-- R168: the flags of an assembled header are the mode's weight plus 2 for memcpy, bits 3 to 7 zero, and the decoder reads
the mode and the decision back. -/
def Obligations.FrameFlagsCombineModeAndMemcpy : Prop :=
  ∀ (mode : Mode) (mc : Bool),
    (frameFlags mode mc).toNat = modeWeight mode + (if mc then 2 else 0) ∧
    shuffleMode (frameFlags mode mc) = mode ∧ isMemcpy (frameFlags mode mc) = mc

/-- R138: HPARSE on every descriptor. -/
def Obligations.HparseDeliversHeader : Prop :=
  DecodesS 0x10 Instr.hparse ∧
  ∀ (src len : Word) (s : State),
    (¬ Fits s src.toNat len.toNat → exec (.hparse src len) s = .next (faultEnd s .range)) ∧
    (Fits s src.toNat len.toNat → len.toNat < 16 → exec (.hparse src len) s = .next (errorEnd s .invalidHeader)) ∧
    (Fits s src.toNat len.toNat → 16 ≤ len.toNat → memByte s.mem src.toNat ≠ 2#8 →
      exec (.hparse src len) s = .next (errorEnd s .invalidVersion)) ∧
    (Fits s src.toNat len.toNat → 16 ≤ len.toNat → memByte s.mem src.toNat = 2#8 →
      exec (.hparse src len) s = .next (success s s.mem s.res0 s.res1
        (BitVec.ofNat 64 (numberAt s.mem src.toNat 8)) (BitVec.ofNat 64 (numberAt s.mem (src.toNat + 8) 8))))

/-- R139: HSER on every descriptor. -/
def Obligations.HserStoresImmediate : Prop :=
  DecodesH 0x11 Instr.hser ∧
  ∀ (dst hlo hhi : Word) (s : State), s.mem.wf = true →
    (¬ Fits s dst.toNat 16 → exec (.hser dst hlo hhi) s = .next (faultEnd s .range)) ∧
    (Fits s dst.toNat 16 →
      ∃ m, exec (.hser dst hlo hhi) s = .next (success s m 16 s.res1 s.hdrLo s.hdrHi) ∧
        HoldsNumber m dst.toNat 8 hlo.toNat ∧ HoldsNumber m (dst.toNat + 8) 8 hhi.toNat ∧
        SameOutside s.mem m dst.toNat 16)

/-- R140 to R143: the four flag queries read the immediate's `Flags` and nothing else. -/
def Obligations.FlagQueriesAnswer : Prop :=
  DecodesQ 0x12 Instr.hmode ∧ DecodesQ 0x13 Instr.hhassh ∧ DecodesQ 0x14 Instr.hhasbs ∧ DecodesQ 0x15 Instr.hismc ∧
  ∀ hlo : Word,
    Queries (.hmode hlo) (if hlo.toNat.testBit 18 then 2 else if hlo.toNat.testBit 16 then 1 else 0) ∧
    Queries (.hhassh hlo) (if hlo.toNat.testBit 16 then 1 else 0) ∧
    Queries (.hhasbs hlo) (if hlo.toNat.testBit 18 then 1 else 0) ∧
    Queries (.hismc hlo) (if hlo.toNat.testBit 17 then 1 else 0)

/-- R144: DSIZE on every descriptor. -/
def Obligations.DsizeReadsOriginalSize : Prop :=
  DecodesS 0x16 Instr.dsize ∧
  ∀ (src len : Word) (s : State),
    (¬ Fits s src.toNat len.toNat → exec (.dsize src len) s = .next (faultEnd s .range)) ∧
    (Fits s src.toNat len.toNat → len.toNat < 16 → exec (.dsize src len) s = .next (errorEnd s .invalidHeader)) ∧
    (Fits s src.toNat len.toNat → 16 ≤ len.toNat → memByte s.mem src.toNat ≠ 2#8 →
      exec (.dsize src len) s = .next (errorEnd s .invalidVersion)) ∧
    (Fits s src.toNat len.toNat → 16 ≤ len.toNat → memByte s.mem src.toNat = 2#8 →
      exec (.dsize src len) s = .next (success s s.mem
        (BitVec.ofNat 64 (numberAt s.mem (src.toNat + 4) 4)) s.res1 s.hdrLo s.hdrHi))

/-- R138, R139: a serialized header parses back to the words it was made from exactly when its version is 2. -/
def Obligations.HparseReadsBackHser : Prop :=
  ∀ (dst hlo hhi : Word) (s t : State), s.mem.wf = true → Fits s dst.toNat 16 →
    exec (.hser dst hlo hhi) s = .next t →
    exec (.hparse dst 16) t =
      if hlo.toNat % 256 = 2 then .next (success t t.mem t.res0 t.res1 hlo hhi)
      else .next (errorEnd t .invalidVersion)

/-! ## Frame commands -/

/-- R161, R17: `registered` is the presence bit of the id. -/
def Obligations.RegisteredIsPresenceBit : Prop :=
  ∀ (s : State) (c : Byte), registered s c = true ↔ Registered s c.toNat

/-- R163: FOPEN on every descriptor; the checks in their order, and the results. Where `SRC + 16` does not fit the 64-bit
`RES0` the spec states no value for it; the command still completes, and nothing is said of that one value. -/
def Obligations.FopenValidatesFrame : Prop :=
  DecodesS 0x20 Instr.fopen ∧
  ∀ (src len : Word) (s : State),
    let i := Instr.fopen src len
    let comp := numberAt s.mem (src.toNat + 12) 4
    let memcpy := (memByte s.mem (src.toNat + 2)).toNat.testBit 1
    let known := Registered s (memByte s.mem (src.toNat + 1)).toNat
    (¬ Fits s src.toNat len.toNat → exec i s = .next (faultEnd s .range)) ∧
    (Fits s src.toNat len.toNat →
      (len.toNat < 16 → exec i s = .next (errorEnd s .invalidHeader)) ∧
      (16 ≤ len.toNat → memByte s.mem src.toNat ≠ 2#8 → exec i s = .next (errorEnd s .invalidVersion)) ∧
      (16 ≤ len.toNat → memByte s.mem src.toNat = 2#8 → comp < 16 ∨ len.toNat < comp →
        exec i s = .next (errorEnd s .invalidData)) ∧
      (16 ≤ len.toNat → memByte s.mem src.toNat = 2#8 → 16 ≤ comp → comp ≤ len.toNat → memcpy = false → ¬ known →
        exec i s = .next (errorEnd s .invalidCodec)) ∧
      (16 ≤ len.toNat → memByte s.mem src.toNat = 2#8 → 16 ≤ comp → comp ≤ len.toNat → memcpy = true ∨ known →
        ∃ addr : Word, (src.toNat + 16 < 2 ^ 64 → addr.toNat = src.toNat + 16) ∧
          exec i s = .next (success s s.mem addr (BitVec.ofNat 64 (comp - 16))
            (BitVec.ofNat 64 (numberAt s.mem src.toNat 8)) (BitVec.ofNat 64 (numberAt s.mem (src.toNat + 8) 8)))))

/-- R164, R165: FCLOSE on every descriptor; the length test, then the post-decode plan. -/
def Obligations.FcloseDeliversData : Prop :=
  DecodesC 0x21 Instr.fclose ∧
  ∀ (ts : BitVec 32) (src len dst hlo hhi : Word) (s : State), s.mem.wf = true →
    let i := Instr.fclose ts src len dst hlo hhi
    SrcDstFaults i s src.toNat len.toNat dst.toNat ∧
    (Fits s src.toNat len.toNat → Fits s dst.toNat len.toNat →
      ¬ Overlaps src.toNat len.toNat dst.toNat len.toNat →
      (len.toNat ≠ hloOrig hlo → exec i s = .next (errorEnd s .sizeMismatch)) ∧
      (len.toNat = hloOrig hlo →
        ∃ m, exec i s = .next (success s m len s.res1 s.hdrLo s.hdrHi) ∧
          PostDecoded hlo ts.toNat len.toNat (bytesFrom s.mem src.toNat) (bytesFrom m dst.toNat) ∧
          SameOutside s.mem m dst.toNat len.toNat))

/-- R166, R167, R169: FPRE on every descriptor. -/
def Obligations.FprePreparesData : Prop :=
  DecodesE 0x22 Instr.fpre ∧
  ∀ (mode : Mode) (codec level : Byte) (ts : BitVec 32) (src len dst : Word) (s : State), s.mem.wf = true →
    let i := Instr.fpre mode codec level ts src len dst
    SrcDstFaults i s src.toNat len.toNat dst.toNat ∧
    (Fits s src.toNat len.toNat → Fits s dst.toNat len.toNat →
      ¬ Overlaps src.toNat len.toNat dst.toNat len.toNat →
      (∀ k, encodeError s len.toNat codec.toNat k → exec i s = .next (errorEnd s k)) ∧
      (0 < len.toNat → len.toNat ≤ 2 ^ 32 - 1 → Registered s codec.toNat →
        ∃ m, exec i s = .next (success s m len
            (BitVec.ofNat 64 (max ts.toNat 1 + levelClamped level.toInt * 2 ^ 32)) s.hdrLo s.hdrHi) ∧
          Forwarded mode len.toNat (max ts.toNat 1) (bytesFrom s.mem src.toNat) (bytesFrom m dst.toNat) ∧
          SameOutside s.mem m dst.toNat len.toNat))

/-- R168, R170, R171, R172: FWRAP on every descriptor. -/
def Obligations.FwrapAssemblesFrame : Prop :=
  DecodesW 0x23 Instr.fwrap ∧
  ∀ (mode : Mode) (codec : Byte) (ts : BitVec 32) (src len dst src2 len2 : Word) (s : State),
    s.mem.wf = true → ts.toNat ≤ 255 →
    let i := Instr.fwrap mode codec ts src len dst src2 len2
    let mc := decide (len.toNat ≤ len2.toNat)
    let plen := if len.toNat ≤ len2.toNat then len.toNat else len2.toNat
    let from_ := if len.toNat ≤ len2.toNat then src.toNat else src2.toNat
    let flags := modeWeight mode + (if len.toNat ≤ len2.toNat then 2 else 0)
    let lo := 2 + codec.toNat * 2 ^ 8 + flags * 2 ^ 16 + max ts.toNat 1 * 2 ^ 24 + len.toNat * 2 ^ 32
    let hi := len.toNat + (16 + plen) * 2 ^ 32
    let inRanges := Fits s src.toNat len.toNat ∧ Fits s src2.toNat len2.toNat ∧ Fits s dst.toNat (16 + plen)
    let clash := Overlaps src.toNat len.toNat dst.toNat (16 + plen) ∨
      Overlaps src2.toNat len2.toNat dst.toNat (16 + plen)
    (¬ inRanges → exec i s = .next (faultEnd s .range)) ∧
    (inRanges → clash → exec i s = .next (faultEnd s .overlap)) ∧
    (inRanges → ¬ clash →
      (∀ k, encodeError s len.toNat codec.toNat k → exec i s = .next (errorEnd s k)) ∧
      (0 < len.toNat → len.toNat ≤ 2 ^ 32 - 1 → Registered s codec.toNat →
        (2 ^ 32 - 1 < 16 + plen → exec i s = .next (errorEnd s .dataTooLarge)) ∧
        (16 + plen ≤ 2 ^ 32 - 1 →
          ∃ m, exec i s = .next (success s m (BitVec.ofNat 64 (16 + plen)) (if mc then 1 else 0)
              (BitVec.ofNat 64 lo) (BitVec.ofNat 64 hi)) ∧
            HoldsNumber m dst.toNat 8 lo ∧ HoldsNumber m (dst.toNat + 8) 8 hi ∧
            Copied plen (bytesFrom s.mem from_) (bytesFrom m (dst.toNat + 16)) ∧
            SameOutside s.mem m dst.toNat (16 + plen))))

/-- R162 (a) to (d), R171: the frame a successful FWRAP leaves opens at once, with the same header words, its payload
address and its payload length. -/
def Obligations.WrappedFrameOpens : Prop :=
  ∀ (mode : Mode) (codec : Byte) (ts : BitVec 32) (src len dst src2 len2 : Word) (s t : State),
    s.mem.wf = true → s.status.fault = none →
    exec (.fwrap mode codec ts src len dst src2 len2) s = .next t → t.status.fault = none → t.status.err = .ok →
    ∃ addr : Word, (dst.toNat + 16 < 2 ^ 64 → addr.toNat = dst.toNat + 16) ∧
      exec (.fopen dst t.res0) t
        = .next (success t t.mem addr (if len.toNat ≤ len2.toNat then len else len2) t.hdrLo t.hdrHi)

/-- R176: in a produced frame `MEMCPY` is set exactly when the codec gained nothing; then the payload is the original data
and `NBytesComp = 16 + NBytesOrig`; otherwise `NBytesComp < 16 + NBytesOrig`. -/
def Obligations.MemcpyCoherence : Prop :=
  ∀ (mode : Mode) (codec : Byte) (ts : BitVec 32) (src len dst src2 len2 : Word) (s t : State),
    s.mem.wf = true → s.status.fault = none →
    exec (.fwrap mode codec ts src len dst src2 len2) s = .next t → t.status.fault = none → t.status.err = .ok →
    ((memByte t.mem (dst.toNat + 2)).toNat.testBit 1 = true ↔ len.toNat ≤ len2.toNat) ∧
    ((memByte t.mem (dst.toNat + 2)).toNat.testBit 1 = true →
      numberAt t.mem (dst.toNat + 12) 4 = 16 + numberAt t.mem (dst.toNat + 4) 4 ∧
      Copied len.toNat (bytesFrom s.mem src.toNat) (bytesFrom t.mem (dst.toNat + 16))) ∧
    ((memByte t.mem (dst.toNat + 2)).toNat.testBit 1 = false →
      numberAt t.mem (dst.toNat + 12) 4 < 16 + numberAt t.mem (dst.toNat + 4) 4)

/-- R175 on the memcpy path: FWRAP, FOPEN, FCLOSE return the original data, whatever shuffle mode the header records. -/
def Obligations.MemcpyFrameRoundTrip : Prop :=
  ∀ (mode : Mode) (codec : Byte) (ts : BitVec 32) (src len dst src2 len2 out : Word) (s t u : State),
    s.mem.wf = true → s.params.wf = true → s.status.fault = none → len.toNat ≤ len2.toNat →
    exec (.fwrap mode codec ts src len dst src2 len2) s = .next t → t.status.fault = none → t.status.err = .ok →
    exec (.fopen dst t.res0) t = .next u →
    Fits s out.toNat len.toNat → ¬ Overlaps (dst.toNat + 16) len.toNat out.toNat len.toNat →
    ∃ m, exec (.fclose 0 u.res0 u.res1 out u.hdrLo u.hdrHi) u = .next (success u m len u.res1 u.hdrLo u.hdrHi) ∧
      Copied len.toNat (bytesFrom s.mem src.toNat) (bytesFrom m out.toNat)

/-- R175 on the codec path: where the codec gives back the bytes FPRE prepared (the codec law, R160), FCLOSE with the header
FWRAP made returns the original data. `s` is the state before FPRE, `w` the one FWRAP starts from, `u` the one in which the
host has placed the decoded bytes at `dec`. -/
def Obligations.CodecFrameRoundTrip : Prop :=
  ∀ (mode : Mode) (codec level : Byte) (ts : BitVec 32) (src len tmp dst blob blen dec out : Word) (s p w t u : State),
    s.mem.wf = true → s.status.fault = none → w.status.fault = none → u.mem.wf = true →
    exec (.fpre mode codec level ts src len tmp) s = .next p → p.status.fault = none → p.status.err = .ok →
    blen.toNat < len.toNat →
    exec (.fwrap mode codec ts src len dst blob blen) w = .next t → t.status.fault = none → t.status.err = .ok →
    Copied len.toNat (bytesFrom p.mem tmp.toNat) (bytesFrom u.mem dec.toNat) →
    Fits u dec.toNat len.toNat → Fits u out.toNat len.toNat →
    ¬ Overlaps dec.toNat len.toNat out.toNat len.toNat →
    ∃ m, exec (.fclose 0 dec len out t.hdrLo t.hdrHi) u = .next (success u m len u.res1 u.hdrLo u.hdrHi) ∧
      Copied len.toNat (bytesFrom s.mem src.toNat) (bytesFrom m out.toNat)

/-- R173: DECOMPRESS_WITH_SIZE on a memcpy frame that opens: no codec step is asked for, and the second command delivers
`f[16 : NBytesComp]` when `NBytesComp - 16 = NBytesOrig` and `SizeMismatch` otherwise. -/
def Obligations.DecompressOfMemcpyFrame : Prop :=
  ∀ (frame len dst : Word) (tsovr : BitVec 32) (s t : State),
    s.mem.wf = true → s.status.fault = none → frame.toNat + 16 < 2 ^ 64 →
    exec (Pseudo.decompressWithSize frame len dst tsovr).first s = .next t →
    t.status.fault = none → t.status.err = .ok → (memByte s.mem (frame.toNat + 2)).toNat.testBit 1 = true →
    let comp := numberAt s.mem (frame.toNat + 12) 4
    let orig := numberAt s.mem (frame.toNat + 4) 4
    Fits s dst.toNat (comp - 16) → ¬ Overlaps (frame.toNat + 16) (comp - 16) dst.toNat (comp - 16) →
    ∃ i, (Pseudo.decompressWithSize frame len dst tsovr).next t none = .issue i ∧
      (comp - 16 = orig → ∃ m, exec i t = .next (success t m (BitVec.ofNat 64 (comp - 16)) t.res1 t.hdrLo t.hdrHi) ∧
        Copied (comp - 16) (bytesFrom s.mem (frame.toNat + 16)) (bytesFrom m dst.toNat)) ∧
      (comp - 16 ≠ orig → exec i t = .next (errorEnd t .sizeMismatch))

/-- R209 (a) against R47, R48 and R213 (log entry 13): FPRE can end in `DataTooLarge` only when `MEM_SIZE >= 2^33`, as R209's
remark says; FWRAP, whose destination may be short, can end so in a smaller memory. -/
def Obligations.DataTooLargeAndMemorySize : Prop :=
  (∀ (mode : Mode) (codec level : Byte) (ts : BitVec 32) (src len dst : Word) (s t : State),
    s.status.err ≠ .dataTooLarge → exec (.fpre mode codec level ts src len dst) s = .next t →
    t.status.err = .dataTooLarge → 2 ^ 33 ≤ s.params.memSize) ∧
  ∃ (s : State) (len dst src2 : Word), s.Inv ∧ s.params.memSize < 2 ^ 33 ∧
    exec (.fwrap .noShuffle 1 4 0 len dst src2 7) s = .next (errorEnd s .dataTooLarge)

/-! ## The assembler -/

/-- R73: the defaults `codec=lz4`, `level=5`, `mode=byte`, `ts=4` and, in FCLOSE, `tsovr=0`; an omitted operand without a
default and an operand the format does not use are refused. -/
def Obligations.AssemblerFillsDefaults : Prop :=
  ∀ src len dst hlo hhi : Word,
    let num (n : OperandName) (w : Word) : Operand := ⟨n, .number w.toNat⟩
    assemble .fpre [num .src src, num .len len, num .dst dst] = some (.fpre .byteShuffle 1 5 4 src len dst) ∧
    assemble .shufip [num .buf src, num .len len] = some (.shufip .byteShuffle 4 src len) ∧
    assemble .fclose [num .src src, num .len len, num .dst dst, num .hlo hlo, num .hhi hhi]
      = some (.fclose 0 src len dst hlo hhi) ∧
    assemble .shuf [num .src src, num .len len] = none ∧
    assemble .shuf [num .src src, num .len len, num .dst dst, num .hlo hlo] = none

/-! ## Every command -/

/-- R200, R210, R215: every command, on every state, ends in success, in an error or in a fault, and in no other way. -/
def Obligations.CommandsEndInOneOfThreeWays : Prop :=
  ∀ (i : Instr) (s : State),
    (∃ m r0 r1 lo hi, exec i s = .next (success s m r0 r1 lo hi)) ∨
    (∃ k, k ≠ .ok ∧ exec i s = .next (errorEnd s k)) ∨
    ∃ c, exec i s = .next (faultEnd s c)

/-- R211: a command that ends in an error or a fault leaves the result registers and all of buffer memory as they were. -/
def Obligations.NoPartialResults : Prop :=
  ∀ (i : Instr) (s t : State), s.status.fault = none → exec i s = .next t →
    t.status.fault.isSome = true ∨ t.status.err ≠ .ok →
    t.mem = s.mem ∧ t.res0 = s.res0 ∧ t.res1 = s.res1 ∧ t.hdrLo = s.hdrLo ∧ t.hdrHi = s.hdrHi

/-- R46, R47, R48, R214, R216: the fault tests come first and in their order; the error tests of the same command do not
matter then. -/
def Obligations.FaultTestsComeFirst : Prop :=
  ∀ (i : Instr) (s : State),
    (i.wf = false → exec i s = .next (faultEnd s .reserved)) ∧
    (i.wf = true → RangeViolation i s → exec i s = .next (faultEnd s .range)) ∧
    (i.wf = true → ¬ RangeViolation i s → OverlapViolation i → exec i s = .next (faultEnd s .overlap))

/-- R201, R218: a well-formed command whose ranges are in memory and do not alias ends in success or in one of the errors
the spec lists for it; no data faults it. -/
def Obligations.DataNeverFaults : Prop :=
  ∀ (i : Instr) (s : State), Clear i s →
    ∃ t, exec i s = .next t ∧ t.status.fault = s.status.fault ∧ t.status.busy = false ∧
      (t.status.err = .ok ∨ t.status.err ∈ raises i)

/-- R25: what a command may change; every other register and every byte outside its destination range is unchanged. -/
def Obligations.CommandsWriteOnlyTheirRow : Prop :=
  ∀ (i : Instr) (s t : State), s.mem.wf = true → exec i s = .next t →
    (writesRes0 i = false → t.res0 = s.res0) ∧ (writesRes1 i = false → t.res1 = s.res1) ∧
    (writesHdr i = false → t.hdrLo = s.hdrLo ∧ t.hdrHi = s.hdrHi) ∧
    (∀ a, (∀ w ∈ (writeRange i).toList, ¬ (w.1 ≤ a ∧ a < w.1 + w.2)) → memByte t.mem a = memByte s.mem a) ∧
    t.params = s.params ∧ t.lock = s.lock ∧ t.simd = s.simd ∧
    t.codecMask0 = s.codecMask0 ∧ t.codecMask1 = s.codecMask1 ∧ t.codecMask2 = s.codecMask2 ∧
    t.codecMask3 = s.codecMask3 ∧ t.asm = s.asm ∧ t.host = s.host ∧ t.hostIn = s.hostIn

/-- R1: a command's end and everything it writes depend only on its operands, `MEM_SIZE`, the bytes of its source ranges
and, for FOPEN, FPRE and FWRAP, the registry: two states that agree on those end alike, whatever else differs. -/
def Obligations.CommandsAreFunctionsOfTheirInputs : Prop :=
  ∀ (i : Instr) (s s' t t' : State), s.mem.wf = true → s'.mem.wf = true → AgreeFor i s s' →
    s.status.fault = none → s'.status.fault = none → exec i s = .next t → exec i s' = .next t' →
    t.status.fault = t'.status.fault ∧
    (t.status.fault = none → t.status.err = t'.status.err) ∧
    (t.status.fault = none → t.status.err = .ok →
      (writesRes0 i = true → t.res0 = t'.res0) ∧ (writesRes1 i = true → t.res1 = t'.res1) ∧
      (writesHdr i = true → t.hdrLo = t'.hdrLo ∧ t.hdrHi = t'.hdrHi) ∧
      ∀ w ∈ (writeRange i).toList, ∀ a, w.1 ≤ a → a < w.1 + w.2 → memByte t.mem a = memByte t'.mem a)

/-- R16, R109: `CAP.SIMD` changes nothing a command does. -/
def Obligations.SimdFlagIsInvisible : Prop :=
  ∀ (i : Instr) (s t : State) (b : Bool), exec i s = .next t →
    exec i { s with simd := b } = .next { t with simd := b }

/-! ## Host, reset and runs -/

/-- R23, R241: the register values after reset, for every choice of the parameters and every memory content, which reset
does not change. -/
def Obligations.ResetValues : Prop :=
  ∀ (s : State), hostAct .reset s = .next s.resetRegisters ∧
    let r := s.resetRegisters
    r.status = { err := .ok, busy := false, fault := none } ∧ r.status.word = 0 ∧
    r.res0 = 0 ∧ r.res1 = 0 ∧ r.hdrLo = 0 ∧ r.hdrHi = 0 ∧ r.lock = false ∧ r.simd = s.params.simdCap ∧
    r.codecMask0 = s.params.maskReset0 ∧ r.codecMask1 = s.params.maskReset1 ∧
    r.codecMask2 = s.params.maskReset2 ∧ r.codecMask3 = s.params.maskReset3 ∧
    r.asm = .empty ∧ r.mem = s.mem ∧
    State.reset.codecMask0 = 0x3E ∧ State.reset.codecMask1 = 0 ∧ State.reset.codecMask2 = 0 ∧
    State.reset.codecMask3 = 0 ∧
    (∀ c : Byte, registered State.reset c = true ↔ 1 ≤ c.toNat ∧ c.toNat ≤ 5)

/-- The invariant holds after reset, for the model's parameters (log entries 2 and 3) and for every legal choice. -/
def Obligations.ResetMeetsInvariant : Prop :=
  State.reset.Inv ∧
  ∀ (p : Params) (m : Memory) (h : List HostAction) (w : Word), p.wf = true → m.wf = true →
    m.inside p.memSize = true → (State.afterReset p m h w).Inv

/-- R10, R14, R15, R19, R201, R215, R248: every step keeps the invariant, from every state that meets it. -/
def Obligations.StepKeepsInvariant : Prop :=
  ∀ s t : State, s.Inv → step s = .next t → t.Inv

/-- R18, R75, R76: when the sixth word of a descriptor is pushed, the step is the decoded command on a state with the assembly
buffer empty, `LOCK` and `BUSY` set, and the host's list one shorter; a descriptor that decodes to no command takes the fault
decoding names. `withFetchWord` places such a descriptor. -/
def Obligations.StepRunsDecodedCommand : Prop :=
  (∀ (s : State) (d : Descriptor) (rest : List HostAction), s.Ready →
    s.asm = .five d.w0 d.w1 d.w2 d.w3 d.w4 → s.host = .writeReg 0 d.w5 :: rest →
    let issued : State := { s with host := rest, asm := .empty, lock := true, status := { s.status with busy := true } }
    (∀ i, decode d = .ok i → step s = exec i issued) ∧
    (∀ c, decode d = .error c → step s = .next (faultEnd issued c))) ∧
  ∀ (s : State) (n w : Nat) (i : Instr), s.Ready → decodeTableWord n w = some i →
    step (s.withFetchWord n w) =
      exec i { s with asm := .empty, lock := true, status := { s.status with busy := true } }

/-- R18, R75: six pushes in a row issue one command; the words reach it in the order they were pushed. -/
def Obligations.SixPushesIssueOneCommand : Prop :=
  ∀ (s : State) (d : Descriptor) (i : Instr) (rest : List HostAction), s.Ready → s.asm = .empty → decode d = .ok i →
    s.host = [.writeReg 0 d.w0, .writeReg 0 d.w1, .writeReg 0 d.w2, .writeReg 0 d.w3, .writeReg 0 d.w4,
      .writeReg 0 d.w5] ++ rest →
    Host.Core.run core 6 s = exec i { s with host := rest, lock := true, status := { s.status with busy := true } }

/-- R18, R246: a push that does not complete a descriptor changes the assembly buffer and nothing else. -/
def Obligations.PartialDescriptorHasNoEffect : Prop :=
  ∀ (s : State) (v : Word) (rest : List HostAction), s.Ready → s.host = .writeReg 0 v :: rest →
    (∀ w0 w1 w2 w3 w4, s.asm ≠ .five w0 w1 w2 w3 w4) →
    ∃ a, a ≠ .empty ∧ step s = .next { s with asm := a, host := rest }

/-- R215, R246: while `FAULT = 1` (or `BUSY = 1`) a push is discarded; and on a faulted engine no step but reset changes
`STATUS`, a result register, the assembly buffer or, other than by the host's own buffer writes, memory. -/
def Obligations.FaultIsStickyUntilReset : Prop :=
  (∀ (s : State) (v : Word) (rest : List HostAction),
    s.status.fault.isSome = true ∨ s.status.busy = true → s.host = .writeReg 0 v :: rest →
    step s = .next { s with host := rest }) ∧
  ∀ s t : State, s.status.fault.isSome = true → step s = .next t →
    (∀ rest, s.host ≠ .reset :: rest) →
    t.status = s.status ∧ t.asm = s.asm ∧ t.res0 = s.res0 ∧ t.res1 = s.res1 ∧ t.hdrLo = s.hdrLo ∧ t.hdrHi = s.hdrHi ∧
    ((∀ a bs rest, s.host ≠ .writeBuf a bs :: rest) → t.mem = s.mem)

/-- R15, R243: once `LOCK = 1` every step but reset keeps `LOCK` and the registry. -/
def Obligations.LockFreezesRegistry : Prop :=
  ∀ s t : State, s.lock = true → step s = .next t → (∀ rest, s.host ≠ .reset :: rest) →
    t.lock = true ∧ t.codecMask0 = s.codecMask0 ∧ t.codecMask1 = s.codecMask1 ∧ t.codecMask2 = s.codecMask2 ∧
    t.codecMask3 = s.codecMask3

/-- R24, R45: what a host write to each register offset does. -/
def Obligations.HostRegisterWrites : Prop :=
  ∀ (s : State) (v : Word),
    (∀ offset, offset % 8 = 0 → offset ∉ [0x00, 0x30, 0x40, 0x48, 0x50, 0x58] →
      hostAct (.writeReg offset v) s = .next s) ∧
    hostAct (.writeReg 0x30 v) s = .next (if v.toNat % 2 = 1 then { s with lock := true } else s) ∧
    hostAct (.writeReg 0x40 v) s = .next (if s.lock then s else { s with codecMask0 := v }) ∧
    hostAct (.writeReg 0x48 v) s = .next (if s.lock then s else { s with codecMask1 := v }) ∧
    hostAct (.writeReg 0x50 v) s = .next (if s.lock then s else { s with codecMask2 := v }) ∧
    hostAct (.writeReg 0x58 v) s = .next (if s.lock then s else { s with codecMask3 := v })

/-- R14, R15, R16, R24, R45: what a host read of each register offset returns, the fields of `STATUS` at their bits; a read
changes nothing on the engine's side. -/
def Obligations.HostRegisterReads : Prop :=
  ∀ (s : State),
    (∀ offset, offset % 8 = 0 →
      hostAct (.readReg offset) s = .next { s with hostIn := readRegister offset s }) ∧
    (readRegister 0x08 s).toNat = s.status.err.code.toNat + (if s.status.busy then 2 ^ 8 else 0) +
      (match s.status.fault with | some c => 2 ^ 9 + c.code.toNat * 2 ^ 16 | none => 0) ∧
    readRegister 0x10 s = s.res0 ∧ readRegister 0x18 s = s.res1 ∧
    readRegister 0x20 s = s.hdrLo ∧ readRegister 0x28 s = s.hdrHi ∧
    (readRegister 0x30 s).toNat = (if s.lock then 1 else 0) ∧ (readRegister 0x38 s).toNat = (if s.simd then 1 else 0) ∧
    readRegister 0x40 s = s.codecMask0 ∧ readRegister 0x48 s = s.codecMask1 ∧
    readRegister 0x50 s = s.codecMask2 ∧ readRegister 0x58 s = s.codecMask3 ∧
    readRegister 0x00 s = 0 ∧ ∀ offset, 0x60 ≤ offset → readRegister offset s = 0

/-- R19, R44, R245: the host's direct buffer access while the engine is idle: a write stores its bytes and nothing else, a
read returns the byte last written; outside memory, and while a command is in flight, the model stops (log entries 6, 10). -/
def Obligations.HostBufferAccess : Prop :=
  ∀ (s : State) (a : Nat) (bs : List Byte), s.mem.wf = true →
    (s.status.busy = true → hostAct (.writeBuf a bs) s = .refused .bufferAccessWhileBusy) ∧
    (s.status.busy = false → ¬ Fits s a bs.length → hostAct (.writeBuf a bs) s = .fault .hostBufferRange) ∧
    (s.status.busy = false → Fits s a bs.length →
      ∃ m, hostAct (.writeBuf a bs) s = .next { s with mem := m } ∧ SameOutside s.mem m a bs.length ∧
        (∀ k, k < bs.length → memByte m (a + k) = bs.getD k 0) ∧
        ∀ k, k < bs.length → hostAct (.readBuf (a + k)) { s with mem := m }
          = .next { s with mem := m, hostIn := (bs.getD k 0).setWidth 64 })
end

