-- ==== Sys2Proof/Laws/Decode.lean ====
section
/-! SUPPORT. Laws of the decoder and the encoder: the fields of a control word built from its fields, the fields of any control
word as numbers, and the two directions of the opcode and mode numbers. -/

namespace Sys2Proof

open Machine (FaultCode)

/-- The fields of a control word are the ones it was built from, and `RSV = 0` (R61). -/
theorem fields_controlWord (op : Opcode) (m : BitVec 2) (c l : Byte) (ts : BitVec 32) :
    (controlWord op m c l ts).extractLsb' 0 8 = op.toByte ∧ (controlWord op m c l ts).extractLsb' 8 2 = m ∧
    (controlWord op m c l ts).extractLsb' 10 6 = 0#6 ∧ (controlWord op m c l ts).extractLsb' 16 8 = c ∧
    (controlWord op m c l ts).extractLsb' 24 8 = l ∧ (controlWord op m c l ts).extractLsb' 32 32 = ts := by
  show (ts ++ l ++ c ++ 0#6 ++ m ++ op.toByte).extractLsb' 0 8 = _ ∧
    (ts ++ l ++ c ++ 0#6 ++ m ++ op.toByte).extractLsb' 8 2 = _ ∧
    (ts ++ l ++ c ++ 0#6 ++ m ++ op.toByte).extractLsb' 10 6 = _ ∧
    (ts ++ l ++ c ++ 0#6 ++ m ++ op.toByte).extractLsb' 16 8 = _ ∧
    (ts ++ l ++ c ++ 0#6 ++ m ++ op.toByte).extractLsb' 24 8 = _ ∧
    (ts ++ l ++ c ++ 0#6 ++ m ++ op.toByte).extractLsb' 32 32 = _
  refine ⟨?_, ?_, ?_, ?_, ?_, ?_⟩
  all_goals
    apply BitVec.eq_of_getLsbD_eq
    intro i hi
    simp only [BitVec.getLsbD_extractLsb', BitVec.getLsbD_append]
    interval_cases i <;> simp

/-- Every control word is built from its six fields (R61: they tile the 64 bits). -/
theorem controlWord_fields (w : Word) :
    w = (w.extractLsb' 32 32 ++ w.extractLsb' 24 8 ++ w.extractLsb' 16 8 ++ w.extractLsb' 10 6 ++ w.extractLsb' 8 2
      ++ w.extractLsb' 0 8 : BitVec 64) := by
  apply BitVec.eq_of_getLsbD_eq
  intro i hi
  simp only [BitVec.getLsbD_extractLsb', BitVec.getLsbD_append]
  interval_cases i <;> simp

/-- A bit field as a number. -/
theorem toNat_field (w : Word) (lo n : Nat) : (w.extractLsb' lo n).toNat = w.toNat / 2 ^ lo % 2 ^ n := by
  rw [BitVec.extractLsb'_toNat, Nat.shiftRight_eq_div_pow]

@[simp] theorem Opcode.ofByte_toByte (op : Opcode) : Opcode.ofByte op.toByte = some op := by cases op <;> rfl

/-- An opcode byte has one name. -/
theorem Opcode.toByte_of_ofByte {b : Byte} {op : Opcode} (h : Opcode.ofByte b = some op) : op.toByte = b := by
  revert b
  cases op <;> decide

@[simp] theorem Mode.ofBits_toBits (m : Mode) : Mode.ofBits m.toBits = some m := by cases m <;> rfl

/-- A mode number has one name, and 3 has none (R67). -/
theorem Mode.toBits_of_ofBits {b : BitVec 2} {m : Mode} (h : Mode.ofBits b = some m) : m.toBits = b := by
  revert b
  cases m <;> decide

end Sys2Proof
end

