-- ==== Sys2Proof/Laws/Ops.lean ====
section
/-! SUPPORT. What the shared operations can do, said once: the range tests of each format, the three ends of `runCommand`,
the encode-side checks, and the header read of HPARSE, DSIZE and FOPEN. -/

namespace Sys2Proof.Machine

theorem inRange_iff {n a k : Nat} : inRange n a k = true ↔ a + k ≤ n := by simp [inRange]

theorem overlap_iff {a n b m : Nat} : overlap a n b m = true ↔ 0 < n ∧ 0 < m ∧ a < b + m ∧ b < a + n := by
  simp [overlap, and_assoc]

/-- The range tests of formats P, C and E. -/
theorem rangeFault_srcDst (n : Nat) (src len dst : Word) :
    rangeFault n (rangesSrcDst src len dst) =
      if src.toNat + len.toNat ≤ n ∧ dst.toNat + len.toNat ≤ n then
        if 0 < len.toNat ∧ 0 < len.toNat ∧ src.toNat < dst.toNat + len.toNat ∧ dst.toNat < src.toNat + len.toNat
        then some .overlap else none
      else some .range := by
  simp [rangeFault, rangesSrcDst, inRange_iff, overlap_iff]

/-- The range test of formats I and S. -/
theorem rangeFault_src (n : Nat) (src len : Word) :
    rangeFault n (rangesSrc src len) = if src.toNat + len.toNat ≤ n then none else some .range := by
  simp [rangeFault, rangesSrc, inRange_iff]

/-- The range test of format H. -/
theorem rangeFault_headerOut (n : Nat) (dst : Word) :
    rangeFault n (rangesHeaderOut dst) = if dst.toNat + 16 ≤ n then none else some .range := by
  simp [rangeFault, rangesHeaderOut, inRange_iff]

/-- Format Q names no range. -/
theorem rangeFault_none (n : Nat) : rangeFault n rangesNone = none := rfl

/-- The range tests of format W. -/
theorem rangeFault_wrap (n : Nat) (src len dst src2 len2 : Word) :
    rangeFault n (rangesWrap src len dst src2 len2) =
      if src.toNat + len.toNat ≤ n ∧ src2.toNat + len2.toNat ≤ n ∧ dst.toNat + (16 + payloadLength len len2) ≤ n then
        if (0 < len.toNat ∧ 0 < 16 + payloadLength len len2 ∧ src.toNat < dst.toNat + (16 + payloadLength len len2) ∧
              dst.toNat < src.toNat + len.toNat) ∨
            (0 < len2.toNat ∧ 0 < 16 + payloadLength len len2 ∧
              src2.toNat < dst.toNat + (16 + payloadLength len len2) ∧ dst.toNat < src2.toNat + len2.toNat)
        then some .overlap else none
      else some .range := by
  simp [rangeFault, rangesWrap, inRange_iff, overlap_iff]

/-- The payload length by cases on the memcpy decision (R170). -/
theorem payloadLength_eq (len len2 : Word) :
    payloadLength len len2 = if len.toNat ≤ len2.toNat then len.toNat else len2.toNat := by
  simp [payloadLength, useMemcpy]

/-- A command that answers a next state has taken a fault, returned an error, or completed its body. -/
theorem runCommand_cases {r : Ranges} {s t : State} {body : State → Except ErrKind State}
    (h : runCommand r s body = .next t) :
    (∃ c, rangeFault s.params.memSize r = some c ∧ t = s.takeFault c) ∨
    (rangeFault s.params.memSize r = none ∧ ∃ k, body s = .error k ∧ t = s.returnError k) ∨
    (rangeFault s.params.memSize r = none ∧ ∃ s', body s = .ok s' ∧ t = s'.succeed) := by
  unfold runCommand at h
  split at h
  · exact .inl ⟨_, ‹_›, by cases h; rfl⟩
  · split at h
    · exact .inr (.inl ⟨‹_›, _, ‹_›, by cases h; rfl⟩)
    · exact .inr (.inr ⟨‹_›, _, ‹_›, by cases h; rfl⟩)

theorem runCommand_fault {r : Ranges} {s : State} {body : State → Except ErrKind State} {c : FaultCode}
    (h : rangeFault s.params.memSize r = some c) : runCommand r s body = .next (s.takeFault c) := by
  simp [runCommand, h]

theorem runCommand_error {r : Ranges} {s : State} {body : State → Except ErrKind State} {k : ErrKind}
    (h : rangeFault s.params.memSize r = none) (hb : body s = .error k) :
    runCommand r s body = .next (s.returnError k) := by
  simp [runCommand, h, hb]

theorem runCommand_ok {r : Ranges} {s s' : State} {body : State → Except ErrKind State}
    (h : rangeFault s.params.memSize r = none) (hb : body s = .ok s') :
    runCommand r s body = .next s'.succeed := by
  simp [runCommand, h, hb]

/-- The encode-side checks pass, or name the first failing one (R167). -/
theorem encodeChecks_cases (s : State) (len : Word) (codec : Byte) :
    (len.toNat = 0 ∧ encodeChecks s len codec = .error .invalidData) ∨
    (2 ^ 32 - 1 < len.toNat ∧ encodeChecks s len codec = .error .dataTooLarge) ∨
    (0 < len.toNat ∧ len.toNat ≤ 2 ^ 32 - 1 ∧ registered s codec = false ∧
      encodeChecks s len codec = .error .invalidCodec) ∨
    (0 < len.toNat ∧ len.toNat ≤ 2 ^ 32 - 1 ∧ registered s codec = true ∧ encodeChecks s len codec = .ok ()) := by
  unfold encodeChecks
  split
  · exact .inl ⟨‹_›, rfl⟩
  · split
    · exact .inr (.inl ⟨‹_›, rfl⟩)
    · split
      · exact .inr (.inr (.inr ⟨by omega, by omega, ‹_›, rfl⟩))
      · exact .inr (.inr (.inl ⟨by omega, by omega, by simpa using ‹¬ registered s codec = true›, rfl⟩))

/-- A header is read, or the length test fails, or the version test fails (R135). -/
theorem headerAt_cases (m : Memory) (src len : Word) :
    (len.toNat < 16 ∧ headerAt m src len = .error .invalidHeader) ∨
    (16 ≤ len.toNat ∧ memByte m src.toNat ≠ 2#8 ∧ headerAt m src len = .error .invalidVersion) ∨
    (16 ≤ len.toNat ∧ memByte m src.toNat = 2#8 ∧
      headerAt m src len = .ok (memRead m src.toNat 16, hdrFields (memRead m src.toNat 16))) := by
  by_cases hl : len.toNat < 16
  · refine .inl ⟨hl, ?_⟩
    have : (memRead m src.toNat (min len.toNat 16)).length < 16 := by simp [memRead]; omega
    simp [headerAt, parse, this]
  · have hmin : min len.toNat 16 = 16 := by omega
    have hlen : ¬ (memRead m src.toNat 16).length < 16 := by simp [memRead]
    have h0 : (memRead m src.toNat 16).getD 0 0 = memByte m src.toNat := by simp [memRead, List.getD]
    have hs : slice (memRead m src.toNat 16) 0 16 = memRead m src.toNat 16 := by
      simp [slice, List.take_of_length_le, memRead]
    by_cases hv : memByte m src.toNat = 2#8
    · refine .inr (.inr ⟨by omega, hv, ?_⟩)
      simp only [headerAt, hmin, parse, if_neg hlen, h0, hv, hs]
      simp
    · refine .inr (.inl ⟨by omega, hv, ?_⟩)
      simp only [headerAt, hmin, parse, if_neg hlen, h0]
      simp [hv]

end Sys2Proof.Machine
end

