-- ==== Sys2Proof/Laws/Exec.lean ====
section
/-! SUPPORT. What a command can do, said once for all 17: the ranges it names, the error it ends in or the effect it has, and
the equation of `exec` with those. Statements over all commands need only this equation and a case split on `Effect.of`. -/

namespace Sys2Proof.Machine

/-- The ranges of each command (R48). -/
def commandRanges : Instr → Ranges
  | .shuf _ src len dst | .unshuf _ src len dst | .bshuf _ src len dst | .bunshuf _ src len dst
  | .fclose _ src len dst _ _ | .fpre _ _ _ _ src len dst => rangesSrcDst src len dst
  | .shufip _ _ src len | .unshufip _ _ src len
  | .hparse src len | .dsize src len | .fopen src len => rangesSrc src len
  | .hser dst _ _ => rangesHeaderOut dst
  | .hmode _ | .hhassh _ | .hhasbs _ | .hismc _ => rangesNone
  | .fwrap _ _ _ src len dst src2 len2 => rangesWrap src len dst src2 len2

/-- What a successful command writes (R25): bytes to an address, `RES0`, `RES1`, the header pair; none is unchanged. -/
structure Effect where
  bytes : Option (Nat × List Byte)
  res0 : Option Word
  res1 : Option Word
  hdr : Option (Word × Word)

/-- Memory after an effect. -/
def Effect.mem (e : Effect) (m : Memory) : Memory :=
  match e.bytes with
  | none => m
  | some x => memWrite m x.1 x.2

/-- The state after an effect, before the status is written. -/
def Effect.apply (e : Effect) (s : State) : State :=
  { s with
    mem := e.mem s.mem
    res0 := e.res0.getD s.res0
    res1 := e.res1.getD s.res1
    hdrLo := (e.hdr.map Prod.fst).getD s.hdrLo
    hdrHi := (e.hdr.map Prod.snd).getD s.hdrHi }

/-- An effect that stores bytes and sets `RES0`. -/
def Effect.store (a : Nat) (bs : List Byte) (v : Word) : Effect := ⟨some (a, bs), some v, none, none⟩

/-- An effect that sets `RES0` only. -/
def Effect.answer (v : Word) : Effect := ⟨none, some v, none, none⟩

/-- The error a command ends in, or its effect, once its ranges are clear. -/
def Effect.of (s : State) : Instr → Except ErrKind Effect
  | .shuf ts src len dst =>
    .ok (.store dst.toNat (byteShuffle (memRead s.mem src.toNat len.toNat) ts.toNat) len)
  | .unshuf ts src len dst =>
    .ok (.store dst.toNat (byteUnshuffle (memRead s.mem src.toNat len.toNat) ts.toNat) len)
  | .bshuf ts src len dst =>
    .ok (.store dst.toNat (bitShuffle (memRead s.mem src.toNat len.toNat) ts.toNat) len)
  | .bunshuf ts src len dst =>
    .ok (.store dst.toNat (bitUnshuffle (memRead s.mem src.toNat len.toNat) ts.toNat) len)
  | .shufip mode ts src len =>
    .ok (.store src.toNat (forward mode (memRead s.mem src.toNat len.toNat) ts.toNat) len)
  | .unshufip mode ts src len =>
    .ok (.store src.toNat (inverse mode (memRead s.mem src.toNat len.toNat) ts.toNat) len)
  | .hparse src len =>
    match headerAt s.mem src len with
    | .error k => .error k
    | .ok (hb, _) => .ok ⟨none, none, none, some (hdrWords hb)⟩
  | .hser dst hlo hhi => .ok (.store dst.toNat (serialize (hdrFields (immediateBytes hlo hhi))) 16)
  | .hmode hlo => .ok (.answer (modeId (shuffleMode (flagsOfHlo hlo))))
  | .hhassh hlo => .ok (.answer (flagWord (hasShuffle (flagsOfHlo hlo))))
  | .hhasbs hlo => .ok (.answer (flagWord (hasBitshuffle (flagsOfHlo hlo))))
  | .hismc hlo => .ok (.answer (flagWord (isMemcpy (flagsOfHlo hlo))))
  | .dsize src len =>
    match headerAt s.mem src len with
    | .error k => .error k
    | .ok (_, h) => .ok (.answer (h.nBytesOrig.setWidth 64))
  | .fopen src len =>
    match headerAt s.mem src len with
    | .error k => .error k
    | .ok (hb, h) =>
      if h.nBytesComp.toNat < 16 ∨ len.toNat < h.nBytesComp.toNat then .error .invalidData
      else if isMemcpy h.flags = false ∧ registered s h.versionLZ = false then .error .invalidCodec
      else .ok ⟨none, some (payloadAddress src len), some (BitVec.ofNat 64 (h.nBytesComp.toNat - 16)),
        some (hdrWords hb)⟩
  | .fclose ts src len dst hlo hhi =>
    let h := hdrFields (immediateBytes hlo hhi)
    if len.toNat ≠ h.nBytesOrig.toNat then .error .sizeMismatch
    else .ok (.store dst.toNat (postDecode h (memRead s.mem src.toNat len.toNat) ts) len)
  | .fpre mode codec level ts src len dst =>
    match encodeChecks s len codec with
    | .error k => .error k
    | .ok _ =>
      .ok ⟨some (dst.toNat, forward mode (memRead s.mem src.toNat len.toNat) (clampTypeSize ts)), some len,
        some (BitVec.ofNat 64 (clampTypeSize ts + clampLevel level * 2 ^ 32)), none⟩
  | .fwrap mode codec ts src len dst src2 len2 =>
    match encodeChecks s len codec with
    | .error k => .error k
    | .ok _ =>
      if 2 ^ 32 - 1 < 16 + payloadLength len len2 then .error .dataTooLarge
      else
        let hb := hdrBytes (wrapHeader mode codec ts len len2)
        .ok ⟨some (dst.toNat, hb ++ wrapPayload src len src2 len2 s.mem),
          some (BitVec.ofNat 64 (16 + payloadLength len len2)), some (flagWord (useMemcpy len len2)),
          some (hdrWords hb)⟩

theorem apply_store (a : Nat) (bs : List Byte) (v : Word) (s : State) :
    (Effect.store a bs v).apply s = (s.store a bs).setRes0 v := rfl

theorem apply_answer (v : Word) (s : State) : (Effect.answer v).apply s = s.setRes0 v := rfl

theorem apply_hdr (w : Word × Word) (s : State) : (⟨none, none, none, some w⟩ : Effect).apply s = s.setHdr w := rfl

theorem apply_hdr_results (x y : Word) (w : Word × Word) (s : State) :
    (⟨none, some x, some y, some w⟩ : Effect).apply s = ((s.setHdr w).setRes0 x).setRes1 y := rfl

theorem apply_store_results (a : Nat) (bs : List Byte) (x y : Word) (s : State) :
    (⟨some (a, bs), some x, some y, none⟩ : Effect).apply s = ((s.store a bs).setRes0 x).setRes1 y := rfl

theorem apply_all (a : Nat) (bs : List Byte) (x y : Word) (w : Word × Word) (s : State) :
    (⟨some (a, bs), some x, some y, some w⟩ : Effect).apply s =
      (((s.store a bs).setHdr w).setRes0 x).setRes1 y := rfl

/-- Every command on every state: a reserved encoding, then a range fault, then an error, then the effect. -/
theorem exec_eq (i : Instr) (s : State) :
    exec i s =
      if i.wf then
        match rangeFault s.params.memSize (commandRanges i) with
        | some c => .next (s.takeFault c)
        | none =>
          match Effect.of s i with
          | .error k => .next (s.returnError k)
          | .ok e => .next (e.apply s).succeed
      else .next (s.takeFault .reserved) := by
  cases i
  case hparse src len =>
    simp only [exec, execHparse, Instr.wf, commandRanges, Effect.of, runCommand, if_true]
    rcases rangeFault s.params.memSize _ with _ | c
    · rcases headerAt s.mem src len with k | ⟨hb, h⟩ <;> simp only [apply_hdr]
    · rfl
  case dsize src len =>
    simp only [exec, execDsize, Instr.wf, commandRanges, Effect.of, runCommand, if_true]
    rcases rangeFault s.params.memSize _ with _ | c
    · rcases headerAt s.mem src len with k | ⟨hb, h⟩ <;> simp only [apply_answer]
    · rfl
  case fopen src len =>
    simp only [exec, execFopen, Instr.wf, commandRanges, Effect.of, runCommand, if_true]
    rcases rangeFault s.params.memSize _ with _ | c
    · rcases headerAt s.mem src len with k | ⟨hb, h⟩
      · rfl
      · by_cases h1 : h.nBytesComp.toNat < 16 ∨ len.toNat < h.nBytesComp.toNat
        · simp only [h1, if_true]
        · by_cases h2 : isMemcpy h.flags = false ∧ registered s h.versionLZ = false
          · simp only [h1, h2, if_false, and_self, if_true]
          · simp only [h1, h2, if_false, apply_hdr_results]
    · rfl
  case fclose ts src len dst hlo hhi =>
    simp only [exec, execFclose, Instr.wf, commandRanges, Effect.of, runCommand, if_true]
    rcases rangeFault s.params.memSize _ with _ | c
    · by_cases h : len.toNat ≠ (hdrFields (immediateBytes hlo hhi)).nBytesOrig.toNat
      · rw [if_pos h, if_pos h]
      · rw [if_neg h, if_neg h]; simp only [apply_store]
    · rfl
  case fpre mode codec level ts src len dst =>
    simp only [exec, execFpre, Instr.wf, commandRanges, Effect.of, runCommand, if_true]
    rcases rangeFault s.params.memSize _ with _ | c
    · cases encodeChecks s len codec <;> simp only [apply_store_results]
    · rfl
  case fwrap mode codec ts src len dst src2 len2 =>
    simp only [exec, execFwrap, Instr.wf, commandRanges, Effect.of, runCommand, decide_eq_true_eq]
    by_cases h : ts.toNat ≤ 255
    · rw [if_neg (by omega), if_pos h]
      rcases rangeFault s.params.memSize _ with _ | c
      · rcases encodeChecks s len codec with k | u
        · rfl
        · by_cases h2 : 2 ^ 32 - 1 < 16 + payloadLength len len2
          · simp only [h2, if_true]
          · simp only [h2, if_false, apply_all]
      · rfl
    · rw [if_pos (by omega), if_neg h]
  all_goals
    simp only [exec, execShuf, execUnshuf, execBshuf, execBunshuf, execShufip, execUnshufip, execHser, execHmode,
      execHhassh, execHhasbs, execHismc, Instr.wf, commandRanges, Effect.of, runCommand, if_true, permuteTo, flagQuery,
      apply_store, apply_answer, rangeFault_none]
  all_goals rcases rangeFault s.params.memSize _ with _ | c <;> rfl

end Sys2Proof.Machine
end

