-- ==== Sys2Proof/Laws/Memory.lean ====
section
/-! SUPPORT. Laws of buffer memory: what a store and a range store read back as, that both keep the canonical form and stay
inside the address space, and that a canonical memory is determined by its bytes. -/

namespace Sys2Proof.Machine

@[simp] theorem memByte_nil (a : Nat) : memByte [] a = unlistedByte := rfl

theorem memByte_cons (c : Host.Cell) (m : Memory) (a : Nat) :
    memByte (c :: m) a = if c.1 = a then c.2 else memByte m a := rfl

theorem wf_nil : Memory.wf [] = true := rfl

/-- The canonical form of a list is that of its tail, with the first cell below it and not `unlistedByte`. -/
theorem wf_cons {c : Host.Cell} {m : Memory} :
    Memory.wf (c :: m) = true ↔ (∀ d ∈ m, c.1 < d.1) ∧ c.2 ≠ unlistedByte ∧ Memory.wf m = true := by
  simp only [Memory.wf, List.pairwise_cons, List.all_cons, Bool.and_eq_true, decide_eq_true_eq, bne_iff_ne]
  tauto

theorem inside_cons {c : Host.Cell} {m : Memory} {n : Nat} :
    Memory.inside (c :: m) n = true ↔ c.1 < n ∧ Memory.inside m n = true := by
  simp [Memory.inside]

/-- An address below every cell is unlisted. -/
theorem memByte_of_lt {m : Memory} {a : Nat} (h : ∀ d ∈ m, a < d.1) : memByte m a = unlistedByte := by
  induction m with
  | nil => rfl
  | cons c m ih =>
    have hc := h c (by simp)
    rw [memByte_cons, if_neg (by omega), ih (fun d hd => h d (by simp [hd]))]

/-- A listed byte is not `unlistedByte`, in canonical form. -/
theorem memByte_of_mem {m : Memory} {c : Host.Cell} (h : Memory.wf m = true) (hc : c ∈ m) : memByte m c.1 = c.2 := by
  induction m with
  | nil => simp at hc
  | cons d m ih =>
    obtain ⟨hlt, -, hm⟩ := wf_cons.1 h
    rw [memByte_cons]
    rcases List.mem_cons.1 hc with rfl | hc
    · simp
    · rw [if_neg (by have := hlt c hc; omega), ih hm hc]

/-- The cells of a set memory are old cells or the new one. -/
theorem mem_memSet {m : Memory} {a : Nat} {v : Byte} {d : Host.Cell} (h : d ∈ memSet m a v) : d ∈ m ∨ d = (a, v) := by
  induction m with
  | nil =>
    simp only [memSet] at h
    split at h <;> simp_all
  | cons c m ih =>
    simp only [memSet] at h
    split at h
    · split at h
      · exact .inl h
      · rcases List.mem_cons.1 h with h | h
        · exact .inr h
        · exact .inl h
    · split at h
      · split at h
        · exact .inl (List.mem_cons_of_mem _ h)
        · rcases List.mem_cons.1 h with h | h
          · exact .inr h
          · exact .inl (List.mem_cons_of_mem _ h)
      · rcases List.mem_cons.1 h with rfl | h
        · simp
        · rcases ih h with h | h <;> simp_all

/-- A store keeps the canonical form. -/
theorem wf_memSet {m : Memory} (a : Nat) (v : Byte) (h : Memory.wf m = true) : Memory.wf (memSet m a v) = true := by
  induction m with
  | nil =>
    simp only [memSet]
    split
    · exact wf_nil
    · exact wf_cons.2 ⟨by simp, by simpa using ‹_›, wf_nil⟩
  | cons c m ih =>
    obtain ⟨hlt, hne, hm⟩ := wf_cons.1 h
    simp only [memSet]
    split
    · rename_i hac
      split
      · exact h
      · exact wf_cons.2 ⟨by
          intro d hd
          rcases List.mem_cons.1 hd with rfl | hd
          · exact hac
          · exact Nat.lt_trans hac (hlt d hd), by simpa using ‹_›, h⟩
    · split
      · split
        · exact hm
        · exact wf_cons.2 ⟨fun d hd => by simpa [‹c.1 = a›] using hlt d hd, by simpa using ‹_›, hm⟩
      · refine wf_cons.2 ⟨fun d hd => ?_, hne, ih hm⟩
        rcases mem_memSet hd with hd | rfl
        · exact hlt d hd
        · show c.1 < a
          omega

/-- A store inside the address space stays inside it. -/
theorem inside_memSet {m : Memory} {n a : Nat} (v : Byte) (h : Memory.inside m n = true) (ha : a < n) :
    Memory.inside (memSet m a v) n = true := by
  simp only [Memory.inside, List.all_eq_true, decide_eq_true_eq] at h ⊢
  intro d hd
  rcases mem_memSet hd with hd | rfl
  · exact h d hd
  · exact ha

/-- Read after write: the stored byte at its address, every other byte as before. -/
theorem memByte_memSet {m : Memory} (a : Nat) (v : Byte) (x : Nat) (h : Memory.wf m = true) :
    memByte (memSet m a v) x = if x = a then v else memByte m x := by
  induction m with
  | nil =>
    simp only [memSet]
    split
    · simp_all
    · simp only [memByte_cons, memByte_nil, eq_comm]
  | cons c m ih =>
    obtain ⟨hlt, -, hm⟩ := wf_cons.1 h
    simp only [memSet]
    split
    · rename_i hac
      split
      · rename_i hv
        split
        · rename_i hx
          subst hx
          rw [hv]
          exact memByte_of_lt (fun d hd => by
            rcases List.mem_cons.1 hd with rfl | hd
            · exact hac
            · exact Nat.lt_trans hac (hlt d hd))
        · rfl
      · rw [memByte_cons (a, v)]
        simp only [eq_comm]
    · split
      · rename_i _ hca
        split
        · rename_i hv
          split
          · rename_i hx
            subst hx
            rw [hv]
            exact memByte_of_lt (fun d hd => hca ▸ hlt d hd)
          · rw [memByte_cons, if_neg (by omega)]
        · rw [memByte_cons, memByte_cons]
          split <;> split <;> simp_all
      · rw [memByte_cons, memByte_cons, ih hm]
        split
        · rw [if_neg (by omega)]
        · rfl

/-- A range store keeps the canonical form. -/
theorem wf_memWrite {m : Memory} (a : Nat) (bs : List Byte) (h : Memory.wf m = true) :
    Memory.wf (memWrite m a bs) = true := by
  induction bs generalizing m a with
  | nil => exact h
  | cons b bs ih => exact ih (a + 1) (wf_memSet a b h)

/-- A range store inside the address space stays inside it. -/
theorem inside_memWrite {m : Memory} {n : Nat} (a : Nat) (bs : List Byte) (h : Memory.inside m n = true)
    (ha : a + bs.length ≤ n) : Memory.inside (memWrite m a bs) n = true := by
  induction bs generalizing m a with
  | nil => exact h
  | cons b bs ih =>
    rw [List.length_cons] at ha
    exact ih (a + 1) (inside_memSet b h (by omega)) (by omega)

/-- Everything a range store does: byte `k` of the sequence at `a + k`, every byte outside the range as before. -/
theorem memByte_memWrite {m : Memory} (a : Nat) (bs : List Byte) (x : Nat) (h : Memory.wf m = true) :
    memByte (memWrite m a bs) x = if a ≤ x ∧ x < a + bs.length then bs.getD (x - a) 0 else memByte m x := by
  induction bs generalizing m a with
  | nil => rw [if_neg (by simp)]; rfl
  | cons b bs ih =>
    rw [memWrite, ih (a + 1) (wf_memSet a b h), memByte_memSet a b x h, List.length_cons]
    by_cases hx : x = a
    · subst hx
      simp
    · by_cases h1 : a + 1 ≤ x ∧ x < a + 1 + bs.length
      · rw [if_pos h1, if_pos (by omega)]
        obtain ⟨k, hk⟩ : ∃ k, x - a = k + 1 := ⟨x - a - 1, by omega⟩
        rw [hk, List.getD_cons_succ]
        congr 1
        omega
      · rw [if_neg h1, if_neg hx, if_neg (by omega)]

theorem length_memRead (m : Memory) (a n : Nat) : (memRead m a n).length = n := by simp [memRead]

/-- Byte `k` of a range read. -/
theorem getD_memRead (m : Memory) (a : Nat) {n k : Nat} (h : k < n) :
    (memRead m a n).getD k 0 = memByte m (a + k) := by
  simp [memRead, List.getD, h]

/-- Two ranges that hold the same bytes read alike. -/
theorem memRead_congr {m m' : Memory} {a b n : Nat} (h : ∀ k, k < n → memByte m (a + k) = memByte m' (b + k)) :
    memRead m a n = memRead m' b n := by
  simp only [memRead]
  exact List.map_congr_left (fun k hk => h k (by simpa using hk))

/-- A canonical memory is determined by its bytes: equal memories are equal data. -/
theorem memory_ext {m m' : Memory} (h : Memory.wf m = true) (h' : Memory.wf m' = true)
    (hb : ∀ a, memByte m a = memByte m' a) : m = m' := by
  induction m generalizing m' with
  | nil =>
    cases m' with
    | nil => rfl
    | cons d m' =>
      obtain ⟨-, hne, -⟩ := wf_cons.1 h'
      have := hb d.1
      simp only [memByte_nil, memByte_cons, if_true] at this
      exact absurd this.symm hne
  | cons c m ih =>
    obtain ⟨hlt, hne, hm⟩ := wf_cons.1 h
    cases m' with
    | nil =>
      have := hb c.1
      simp only [memByte_nil, memByte_cons, if_true] at this
      exact absurd this hne
    | cons d m' =>
      obtain ⟨hlt', hne', hm'⟩ := wf_cons.1 h'
      have hkey : c.1 = d.1 := by
        rcases Nat.lt_trichotomy c.1 d.1 with hcd | hcd | hcd
        · have := hb c.1
          rw [memByte_cons, if_pos rfl, memByte_of_lt (m := d :: m') (fun e he => by
            rcases List.mem_cons.1 he with rfl | he
            · exact hcd
            · exact Nat.lt_trans hcd (hlt' e he))] at this
          exact absurd this hne
        · exact hcd
        · have := hb d.1
          rw [memByte_cons d, if_pos rfl, memByte_of_lt (m := c :: m) (fun e he => by
            rcases List.mem_cons.1 he with rfl | he
            · exact hcd
            · exact Nat.lt_trans hcd (hlt e he))] at this
          exact absurd this.symm hne'
      have hval : c.2 = d.2 := by
        have := hb c.1
        rw [memByte_cons, if_pos rfl, memByte_cons, if_pos hkey.symm] at this
        exact this
      have hcd : c = d := Prod.ext hkey hval
      subst hcd
      congr 1
      refine ih hm hm' (fun a => ?_)
      have := hb a
      rw [memByte_cons, memByte_cons] at this
      by_cases ha : c.1 = a
      · rw [memByte_of_lt (fun e he => ha ▸ hlt e he), memByte_of_lt (fun e he => ha ▸ hlt' e he)]
      · rwa [if_neg ha, if_neg ha] at this

end Sys2Proof.Machine
end

