-- ==== Sys2Proof/Laws/Header.lean ====
section
/-! SUPPORT. Laws of the little-endian numbers and of the lengths of the header's byte sequences. -/

namespace Sys2Proof.Machine

@[simp] theorem length_bytesLe (v n : Nat) : (bytesLe v n).length = n := by
  induction n generalizing v with
  | zero => rfl
  | succ n ih => simp [bytesLe, ih]

/-- Byte `k` of a little-endian number. -/
theorem getD_bytesLe {v n k : Nat} (h : k < n) : ((bytesLe v n).getD k 0).toNat = v / 256 ^ k % 256 := by
  induction n generalizing v k with
  | zero => omega
  | succ n ih =>
    cases k with
    | zero => simp [bytesLe]
    | succ k =>
      rw [bytesLe, List.getD_cons_succ, ih (by omega), Nat.div_div_eq_div_mul, Nat.pow_succ, Nat.mul_comm 256]

/-- The value of a little-endian number, truncated to its bytes. -/
theorem le_bytesLe (v n : Nat) : le (bytesLe v n) = v % 256 ^ n := by
  induction n generalizing v with
  | zero => simp [bytesLe, le, Nat.mod_one]
  | succ n ih =>
    rw [bytesLe, le, ih, Nat.pow_succ, Nat.mul_comm (256 ^ n), Nat.mod_mul]
    simp

theorem le_lt (s : List Byte) : le s < 256 ^ s.length := by
  induction s with
  | nil => simp [le]
  | cons b s ih =>
    have := b.isLt
    rw [le, List.length_cons, Nat.pow_succ]
    omega

/-- A byte sequence is the little-endian writing of its value. -/
theorem bytesLe_le (s : List Byte) : bytesLe (le s) s.length = s := by
  induction s with
  | nil => rfl
  | cons b s ih =>
    have hb := b.isLt
    rw [le, List.length_cons, bytesLe, show (b.toNat + 256 * le s) / 256 = le s by omega, ih]
    congr 1
    apply BitVec.eq_of_toNat_eq
    simp
    omega

theorem le_append (s t : List Byte) : le (s ++ t) = le s + 256 ^ s.length * le t := by
  induction s with
  | nil => simp [le]
  | cons b s ih =>
    rw [List.cons_append, le, ih, le, List.length_cons, Nat.pow_succ]
    ring

theorem length_slice {s : List Byte} {a b : Nat} (h : b ≤ s.length) : (slice s a b).length = b - a := by
  simp [slice]
  omega

@[simp] theorem length_hdrBytes (h : Header) : (hdrBytes h).length = 16 := by simp [hdrBytes]

@[simp] theorem length_immediateBytes (hlo hhi : Word) : (immediateBytes hlo hhi).length = 16 := by
  simp [immediateBytes]

/-- A slice of a range read is the read of the smaller range. -/
theorem slice_memRead (m : Memory) (a : Nat) {n x y : Nat} (hx : x ≤ y) (hy : y ≤ n) :
    slice (memRead m a n) x y = memRead m (a + x) (y - x) := by
  have hl : (slice (memRead m a n) x y).length = y - x := length_slice (by rwa [length_memRead])
  refine List.ext_getElem (by rw [hl, length_memRead]) (fun p hp hp' => ?_)
  rw [length_memRead] at hp'
  have h1 := getD_memRead m a (n := n) (k := x + p) (by omega)
  have h2 := getD_memRead m (a + x) hp'
  rw [Nat.add_assoc, ← h1] at h2
  have e1 : (slice (memRead m a n) x y)[p] = (memRead m a n).getD (x + p) 0 := by
    have hb : x + p < (memRead m a n).length := by rw [length_memRead]; omega
    rw [List.getD_eq_getElem _ _ hb]
    simp [slice]
  have e2 : (memRead m (a + x) (y - x))[p] = (memRead m (a + x) (y - x)).getD p 0 := by
    rw [List.getD_eq_getElem _ _ (by rwa [length_memRead])]
  rw [e1, e2, h2]

/-- The header words of 16 bytes in memory (R148). -/
theorem hdrWords_memRead (m : Memory) (a : Nat) :
    hdrWords (memRead m a 16) = (BitVec.ofNat 64 (le (memRead m a 8)), BitVec.ofNat 64 (le (memRead m (a + 8) 8))) := by
  simp only [hdrWords, slice_memRead m a (show 0 ≤ 8 by omega) (show 8 ≤ 16 by omega),
    slice_memRead m a (show 8 ≤ 16 by omega) (show 16 ≤ 16 by omega), Nat.add_zero, Nat.sub_zero, Nat.reduceSub]

/-- The header fields of 16 bytes in memory (R131). -/
theorem hdrFields_memRead (m : Memory) (a : Nat) :
    hdrFields (memRead m a 16) =
      { version := memByte m a
        versionLZ := memByte m (a + 1)
        flags := memByte m (a + 2)
        typeSize := memByte m (a + 3)
        nBytesOrig := BitVec.ofNat 32 (le (memRead m (a + 4) 4))
        blockSize := BitVec.ofNat 32 (le (memRead m (a + 8) 4))
        nBytesComp := BitVec.ofNat 32 (le (memRead m (a + 12) 4)) } := by
  simp only [hdrFields, getD_memRead m a (show 0 < 16 by omega), getD_memRead m a (show 1 < 16 by omega),
    getD_memRead m a (show 2 < 16 by omega), getD_memRead m a (show 3 < 16 by omega),
    slice_memRead m a (show 4 ≤ 8 by omega) (show 8 ≤ 16 by omega),
    slice_memRead m a (show 8 ≤ 12 by omega) (show 12 ≤ 16 by omega),
    slice_memRead m a (show 12 ≤ 16 by omega) (show 16 ≤ 16 by omega), Nat.add_zero, Nat.reduceSub]

end Sys2Proof.Machine
end

