-- ==== Sys2Proof/Laws/PerInstr.lean ====
section
/-! SUPPORT. Per-instruction facts about the encoding, one lemma per constructor: the control word carries the command's own
opcode of R65 and `RSV = 0` (R61, R64), so no two commands share a descriptor. -/

namespace Sys2Proof.Laws.EncodesOwnOpcode

/-- The opcode of a command (R65). -/
def opcodeOf : Instr → Opcode
  | .shuf _ _ _ _ => .shuf
  | .unshuf _ _ _ _ => .unshuf
  | .bshuf _ _ _ _ => .bshuf
  | .bunshuf _ _ _ _ => .bunshuf
  | .shufip _ _ _ _ => .shufip
  | .unshufip _ _ _ _ => .unshufip
  | .hparse _ _ => .hparse
  | .hser _ _ _ => .hser
  | .hmode _ => .hmode
  | .hhassh _ => .hhassh
  | .hhasbs _ => .hhasbs
  | .hismc _ => .hismc
  | .dsize _ _ => .dsize
  | .fopen _ _ => .fopen
  | .fclose _ _ _ _ _ _ => .fclose
  | .fpre _ _ _ _ _ _ _ => .fpre
  | .fwrap _ _ _ _ _ _ _ _ => .fwrap

/-- The descriptor of a command holds its opcode and reserved bits of zero. -/
def Statement (i : Instr) : Prop :=
  Opcode.ofByte (encode i).opc = some (opcodeOf i) ∧ (encode i).rsv = 0

theorem of_controlWord (op : Opcode) (m : BitVec 2) (c l : Byte) (ts : BitVec 32) (w1 w2 w3 w4 w5 : Word) :
    Opcode.ofByte (Descriptor.opc ⟨controlWord op m c l ts, w1, w2, w3, w4, w5⟩) = some op ∧
    Descriptor.rsv ⟨controlWord op m c l ts, w1, w2, w3, w4, w5⟩ = 0 := by
  simp [Descriptor.opc, Descriptor.rsv, fields_controlWord]

theorem shuf (ts : BitVec 32) (src len dst : Word) : Statement (.shuf ts src len dst) := of_controlWord ..
theorem unshuf (ts : BitVec 32) (src len dst : Word) : Statement (.unshuf ts src len dst) := of_controlWord ..
theorem bshuf (ts : BitVec 32) (src len dst : Word) : Statement (.bshuf ts src len dst) := of_controlWord ..
theorem bunshuf (ts : BitVec 32) (src len dst : Word) : Statement (.bunshuf ts src len dst) := of_controlWord ..
theorem shufip (mode : Mode) (ts : BitVec 32) (src len : Word) : Statement (.shufip mode ts src len) := of_controlWord ..
theorem unshufip (mode : Mode) (ts : BitVec 32) (src len : Word) : Statement (.unshufip mode ts src len) :=
  of_controlWord ..
theorem hparse (src len : Word) : Statement (.hparse src len) := of_controlWord ..
theorem hser (dst hlo hhi : Word) : Statement (.hser dst hlo hhi) := of_controlWord ..
theorem hmode (hlo : Word) : Statement (.hmode hlo) := of_controlWord ..
theorem hhassh (hlo : Word) : Statement (.hhassh hlo) := of_controlWord ..
theorem hhasbs (hlo : Word) : Statement (.hhasbs hlo) := of_controlWord ..
theorem hismc (hlo : Word) : Statement (.hismc hlo) := of_controlWord ..
theorem dsize (src len : Word) : Statement (.dsize src len) := of_controlWord ..
theorem fopen (src len : Word) : Statement (.fopen src len) := of_controlWord ..
theorem fclose (ts : BitVec 32) (src len dst hlo hhi : Word) : Statement (.fclose ts src len dst hlo hhi) :=
  of_controlWord ..
theorem fpre (mode : Mode) (codec level : Byte) (ts : BitVec 32) (src len dst : Word) :
    Statement (.fpre mode codec level ts src len dst) := of_controlWord ..
theorem fwrap (mode : Mode) (codec : Byte) (ts : BitVec 32) (src len dst src2 len2 : Word) :
    Statement (.fwrap mode codec ts src len dst src2 len2) := of_controlWord ..

end Sys2Proof.Laws.EncodesOwnOpcode
end

