-- ==== Sys2Proof/Laws/State.lean ====
section
/-! SUPPORT. One lemma per field per named update of the state, true by rfl, so that no later proof unfolds a record update. -/

namespace Sys2Proof.Machine

@[simp] theorem State.setRes0_params (s : State) (v : Word) : (s.setRes0 v).params = s.params := rfl
@[simp] theorem State.setRes0_mem (s : State) (v : Word) : (s.setRes0 v).mem = s.mem := rfl
@[simp] theorem State.setRes0_res0 (s : State) (v : Word) : (s.setRes0 v).res0 = v := rfl
@[simp] theorem State.setRes0_res1 (s : State) (v : Word) : (s.setRes0 v).res1 = s.res1 := rfl
@[simp] theorem State.setRes0_hdrLo (s : State) (v : Word) : (s.setRes0 v).hdrLo = s.hdrLo := rfl
@[simp] theorem State.setRes0_hdrHi (s : State) (v : Word) : (s.setRes0 v).hdrHi = s.hdrHi := rfl
@[simp] theorem State.setRes0_status (s : State) (v : Word) : (s.setRes0 v).status = s.status := rfl
@[simp] theorem State.setRes0_lock (s : State) (v : Word) : (s.setRes0 v).lock = s.lock := rfl
@[simp] theorem State.setRes0_simd (s : State) (v : Word) : (s.setRes0 v).simd = s.simd := rfl
@[simp] theorem State.setRes0_codecMask0 (s : State) (v : Word) : (s.setRes0 v).codecMask0 = s.codecMask0 := rfl
@[simp] theorem State.setRes0_codecMask1 (s : State) (v : Word) : (s.setRes0 v).codecMask1 = s.codecMask1 := rfl
@[simp] theorem State.setRes0_codecMask2 (s : State) (v : Word) : (s.setRes0 v).codecMask2 = s.codecMask2 := rfl
@[simp] theorem State.setRes0_codecMask3 (s : State) (v : Word) : (s.setRes0 v).codecMask3 = s.codecMask3 := rfl
@[simp] theorem State.setRes0_asm (s : State) (v : Word) : (s.setRes0 v).asm = s.asm := rfl
@[simp] theorem State.setRes0_host (s : State) (v : Word) : (s.setRes0 v).host = s.host := rfl
@[simp] theorem State.setRes0_hostIn (s : State) (v : Word) : (s.setRes0 v).hostIn = s.hostIn := rfl

@[simp] theorem State.setRes1_params (s : State) (v : Word) : (s.setRes1 v).params = s.params := rfl
@[simp] theorem State.setRes1_mem (s : State) (v : Word) : (s.setRes1 v).mem = s.mem := rfl
@[simp] theorem State.setRes1_res0 (s : State) (v : Word) : (s.setRes1 v).res0 = s.res0 := rfl
@[simp] theorem State.setRes1_res1 (s : State) (v : Word) : (s.setRes1 v).res1 = v := rfl
@[simp] theorem State.setRes1_hdrLo (s : State) (v : Word) : (s.setRes1 v).hdrLo = s.hdrLo := rfl
@[simp] theorem State.setRes1_hdrHi (s : State) (v : Word) : (s.setRes1 v).hdrHi = s.hdrHi := rfl
@[simp] theorem State.setRes1_status (s : State) (v : Word) : (s.setRes1 v).status = s.status := rfl
@[simp] theorem State.setRes1_lock (s : State) (v : Word) : (s.setRes1 v).lock = s.lock := rfl
@[simp] theorem State.setRes1_simd (s : State) (v : Word) : (s.setRes1 v).simd = s.simd := rfl
@[simp] theorem State.setRes1_codecMask0 (s : State) (v : Word) : (s.setRes1 v).codecMask0 = s.codecMask0 := rfl
@[simp] theorem State.setRes1_codecMask1 (s : State) (v : Word) : (s.setRes1 v).codecMask1 = s.codecMask1 := rfl
@[simp] theorem State.setRes1_codecMask2 (s : State) (v : Word) : (s.setRes1 v).codecMask2 = s.codecMask2 := rfl
@[simp] theorem State.setRes1_codecMask3 (s : State) (v : Word) : (s.setRes1 v).codecMask3 = s.codecMask3 := rfl
@[simp] theorem State.setRes1_asm (s : State) (v : Word) : (s.setRes1 v).asm = s.asm := rfl
@[simp] theorem State.setRes1_host (s : State) (v : Word) : (s.setRes1 v).host = s.host := rfl
@[simp] theorem State.setRes1_hostIn (s : State) (v : Word) : (s.setRes1 v).hostIn = s.hostIn := rfl

@[simp] theorem State.setHdr_params (s : State) (w : Word × Word) : (s.setHdr w).params = s.params := rfl
@[simp] theorem State.setHdr_mem (s : State) (w : Word × Word) : (s.setHdr w).mem = s.mem := rfl
@[simp] theorem State.setHdr_res0 (s : State) (w : Word × Word) : (s.setHdr w).res0 = s.res0 := rfl
@[simp] theorem State.setHdr_res1 (s : State) (w : Word × Word) : (s.setHdr w).res1 = s.res1 := rfl
@[simp] theorem State.setHdr_hdrLo (s : State) (w : Word × Word) : (s.setHdr w).hdrLo = w.1 := rfl
@[simp] theorem State.setHdr_hdrHi (s : State) (w : Word × Word) : (s.setHdr w).hdrHi = w.2 := rfl
@[simp] theorem State.setHdr_status (s : State) (w : Word × Word) : (s.setHdr w).status = s.status := rfl
@[simp] theorem State.setHdr_lock (s : State) (w : Word × Word) : (s.setHdr w).lock = s.lock := rfl
@[simp] theorem State.setHdr_simd (s : State) (w : Word × Word) : (s.setHdr w).simd = s.simd := rfl
@[simp] theorem State.setHdr_codecMask0 (s : State) (w : Word × Word) : (s.setHdr w).codecMask0 = s.codecMask0 := rfl
@[simp] theorem State.setHdr_codecMask1 (s : State) (w : Word × Word) : (s.setHdr w).codecMask1 = s.codecMask1 := rfl
@[simp] theorem State.setHdr_codecMask2 (s : State) (w : Word × Word) : (s.setHdr w).codecMask2 = s.codecMask2 := rfl
@[simp] theorem State.setHdr_codecMask3 (s : State) (w : Word × Word) : (s.setHdr w).codecMask3 = s.codecMask3 := rfl
@[simp] theorem State.setHdr_asm (s : State) (w : Word × Word) : (s.setHdr w).asm = s.asm := rfl
@[simp] theorem State.setHdr_host (s : State) (w : Word × Word) : (s.setHdr w).host = s.host := rfl
@[simp] theorem State.setHdr_hostIn (s : State) (w : Word × Word) : (s.setHdr w).hostIn = s.hostIn := rfl

@[simp] theorem State.store_params (s : State) (a : Nat) (bs : List Byte) : (s.store a bs).params = s.params := rfl
@[simp] theorem State.store_mem (s : State) (a : Nat) (bs : List Byte) : (s.store a bs).mem = memWrite s.mem a bs := rfl
@[simp] theorem State.store_res0 (s : State) (a : Nat) (bs : List Byte) : (s.store a bs).res0 = s.res0 := rfl
@[simp] theorem State.store_res1 (s : State) (a : Nat) (bs : List Byte) : (s.store a bs).res1 = s.res1 := rfl
@[simp] theorem State.store_hdrLo (s : State) (a : Nat) (bs : List Byte) : (s.store a bs).hdrLo = s.hdrLo := rfl
@[simp] theorem State.store_hdrHi (s : State) (a : Nat) (bs : List Byte) : (s.store a bs).hdrHi = s.hdrHi := rfl
@[simp] theorem State.store_status (s : State) (a : Nat) (bs : List Byte) : (s.store a bs).status = s.status := rfl
@[simp] theorem State.store_lock (s : State) (a : Nat) (bs : List Byte) : (s.store a bs).lock = s.lock := rfl
@[simp] theorem State.store_simd (s : State) (a : Nat) (bs : List Byte) : (s.store a bs).simd = s.simd := rfl
@[simp] theorem State.store_codecMask0 (s : State) (a : Nat) (bs : List Byte) : (s.store a bs).codecMask0 = s.codecMask0 := rfl
@[simp] theorem State.store_codecMask1 (s : State) (a : Nat) (bs : List Byte) : (s.store a bs).codecMask1 = s.codecMask1 := rfl
@[simp] theorem State.store_codecMask2 (s : State) (a : Nat) (bs : List Byte) : (s.store a bs).codecMask2 = s.codecMask2 := rfl
@[simp] theorem State.store_codecMask3 (s : State) (a : Nat) (bs : List Byte) : (s.store a bs).codecMask3 = s.codecMask3 := rfl
@[simp] theorem State.store_asm (s : State) (a : Nat) (bs : List Byte) : (s.store a bs).asm = s.asm := rfl
@[simp] theorem State.store_host (s : State) (a : Nat) (bs : List Byte) : (s.store a bs).host = s.host := rfl
@[simp] theorem State.store_hostIn (s : State) (a : Nat) (bs : List Byte) : (s.store a bs).hostIn = s.hostIn := rfl

@[simp] theorem State.succeed_params (s : State) : s.succeed.params = s.params := rfl
@[simp] theorem State.succeed_mem (s : State) : s.succeed.mem = s.mem := rfl
@[simp] theorem State.succeed_res0 (s : State) : s.succeed.res0 = s.res0 := rfl
@[simp] theorem State.succeed_res1 (s : State) : s.succeed.res1 = s.res1 := rfl
@[simp] theorem State.succeed_hdrLo (s : State) : s.succeed.hdrLo = s.hdrLo := rfl
@[simp] theorem State.succeed_hdrHi (s : State) : s.succeed.hdrHi = s.hdrHi := rfl
@[simp] theorem State.succeed_status (s : State) : s.succeed.status = ⟨.ok, false, s.status.fault⟩ := rfl
@[simp] theorem State.succeed_lock (s : State) : s.succeed.lock = s.lock := rfl
@[simp] theorem State.succeed_simd (s : State) : s.succeed.simd = s.simd := rfl
@[simp] theorem State.succeed_codecMask0 (s : State) : s.succeed.codecMask0 = s.codecMask0 := rfl
@[simp] theorem State.succeed_codecMask1 (s : State) : s.succeed.codecMask1 = s.codecMask1 := rfl
@[simp] theorem State.succeed_codecMask2 (s : State) : s.succeed.codecMask2 = s.codecMask2 := rfl
@[simp] theorem State.succeed_codecMask3 (s : State) : s.succeed.codecMask3 = s.codecMask3 := rfl
@[simp] theorem State.succeed_asm (s : State) : s.succeed.asm = s.asm := rfl
@[simp] theorem State.succeed_host (s : State) : s.succeed.host = s.host := rfl
@[simp] theorem State.succeed_hostIn (s : State) : s.succeed.hostIn = s.hostIn := rfl

@[simp] theorem State.returnError_params (s : State) (k : ErrKind) : (s.returnError k).params = s.params := rfl
@[simp] theorem State.returnError_mem (s : State) (k : ErrKind) : (s.returnError k).mem = s.mem := rfl
@[simp] theorem State.returnError_res0 (s : State) (k : ErrKind) : (s.returnError k).res0 = s.res0 := rfl
@[simp] theorem State.returnError_res1 (s : State) (k : ErrKind) : (s.returnError k).res1 = s.res1 := rfl
@[simp] theorem State.returnError_hdrLo (s : State) (k : ErrKind) : (s.returnError k).hdrLo = s.hdrLo := rfl
@[simp] theorem State.returnError_hdrHi (s : State) (k : ErrKind) : (s.returnError k).hdrHi = s.hdrHi := rfl
@[simp] theorem State.returnError_status (s : State) (k : ErrKind) : (s.returnError k).status = ⟨k, false, s.status.fault⟩ := rfl
@[simp] theorem State.returnError_lock (s : State) (k : ErrKind) : (s.returnError k).lock = s.lock := rfl
@[simp] theorem State.returnError_simd (s : State) (k : ErrKind) : (s.returnError k).simd = s.simd := rfl
@[simp] theorem State.returnError_codecMask0 (s : State) (k : ErrKind) : (s.returnError k).codecMask0 = s.codecMask0 := rfl
@[simp] theorem State.returnError_codecMask1 (s : State) (k : ErrKind) : (s.returnError k).codecMask1 = s.codecMask1 := rfl
@[simp] theorem State.returnError_codecMask2 (s : State) (k : ErrKind) : (s.returnError k).codecMask2 = s.codecMask2 := rfl
@[simp] theorem State.returnError_codecMask3 (s : State) (k : ErrKind) : (s.returnError k).codecMask3 = s.codecMask3 := rfl
@[simp] theorem State.returnError_asm (s : State) (k : ErrKind) : (s.returnError k).asm = s.asm := rfl
@[simp] theorem State.returnError_host (s : State) (k : ErrKind) : (s.returnError k).host = s.host := rfl
@[simp] theorem State.returnError_hostIn (s : State) (k : ErrKind) : (s.returnError k).hostIn = s.hostIn := rfl

@[simp] theorem State.takeFault_params (s : State) (c : FaultCode) : (s.takeFault c).params = s.params := rfl
@[simp] theorem State.takeFault_mem (s : State) (c : FaultCode) : (s.takeFault c).mem = s.mem := rfl
@[simp] theorem State.takeFault_res0 (s : State) (c : FaultCode) : (s.takeFault c).res0 = s.res0 := rfl
@[simp] theorem State.takeFault_res1 (s : State) (c : FaultCode) : (s.takeFault c).res1 = s.res1 := rfl
@[simp] theorem State.takeFault_hdrLo (s : State) (c : FaultCode) : (s.takeFault c).hdrLo = s.hdrLo := rfl
@[simp] theorem State.takeFault_hdrHi (s : State) (c : FaultCode) : (s.takeFault c).hdrHi = s.hdrHi := rfl
@[simp] theorem State.takeFault_status (s : State) (c : FaultCode) : (s.takeFault c).status = ⟨s.status.err, false, some c⟩ := rfl
@[simp] theorem State.takeFault_lock (s : State) (c : FaultCode) : (s.takeFault c).lock = s.lock := rfl
@[simp] theorem State.takeFault_simd (s : State) (c : FaultCode) : (s.takeFault c).simd = s.simd := rfl
@[simp] theorem State.takeFault_codecMask0 (s : State) (c : FaultCode) : (s.takeFault c).codecMask0 = s.codecMask0 := rfl
@[simp] theorem State.takeFault_codecMask1 (s : State) (c : FaultCode) : (s.takeFault c).codecMask1 = s.codecMask1 := rfl
@[simp] theorem State.takeFault_codecMask2 (s : State) (c : FaultCode) : (s.takeFault c).codecMask2 = s.codecMask2 := rfl
@[simp] theorem State.takeFault_codecMask3 (s : State) (c : FaultCode) : (s.takeFault c).codecMask3 = s.codecMask3 := rfl
@[simp] theorem State.takeFault_asm (s : State) (c : FaultCode) : (s.takeFault c).asm = s.asm := rfl
@[simp] theorem State.takeFault_host (s : State) (c : FaultCode) : (s.takeFault c).host = s.host := rfl
@[simp] theorem State.takeFault_hostIn (s : State) (c : FaultCode) : (s.takeFault c).hostIn = s.hostIn := rfl

@[simp] theorem State.accept_params (s : State) : s.accept.params = s.params := rfl
@[simp] theorem State.accept_mem (s : State) : s.accept.mem = s.mem := rfl
@[simp] theorem State.accept_res0 (s : State) : s.accept.res0 = s.res0 := rfl
@[simp] theorem State.accept_res1 (s : State) : s.accept.res1 = s.res1 := rfl
@[simp] theorem State.accept_hdrLo (s : State) : s.accept.hdrLo = s.hdrLo := rfl
@[simp] theorem State.accept_hdrHi (s : State) : s.accept.hdrHi = s.hdrHi := rfl
@[simp] theorem State.accept_status (s : State) : s.accept.status = ⟨s.status.err, true, s.status.fault⟩ := rfl
@[simp] theorem State.accept_lock (s : State) : s.accept.lock = true := rfl
@[simp] theorem State.accept_simd (s : State) : s.accept.simd = s.simd := rfl
@[simp] theorem State.accept_codecMask0 (s : State) : s.accept.codecMask0 = s.codecMask0 := rfl
@[simp] theorem State.accept_codecMask1 (s : State) : s.accept.codecMask1 = s.codecMask1 := rfl
@[simp] theorem State.accept_codecMask2 (s : State) : s.accept.codecMask2 = s.codecMask2 := rfl
@[simp] theorem State.accept_codecMask3 (s : State) : s.accept.codecMask3 = s.codecMask3 := rfl
@[simp] theorem State.accept_asm (s : State) : s.accept.asm = .empty := rfl
@[simp] theorem State.accept_host (s : State) : s.accept.host = s.host := rfl
@[simp] theorem State.accept_hostIn (s : State) : s.accept.hostIn = s.hostIn := rfl

@[simp] theorem State.resetRegisters_params (s : State) : s.resetRegisters.params = s.params := rfl
@[simp] theorem State.resetRegisters_mem (s : State) : s.resetRegisters.mem = s.mem := rfl
@[simp] theorem State.resetRegisters_res0 (s : State) : s.resetRegisters.res0 = 0 := rfl
@[simp] theorem State.resetRegisters_res1 (s : State) : s.resetRegisters.res1 = 0 := rfl
@[simp] theorem State.resetRegisters_hdrLo (s : State) : s.resetRegisters.hdrLo = 0 := rfl
@[simp] theorem State.resetRegisters_hdrHi (s : State) : s.resetRegisters.hdrHi = 0 := rfl
@[simp] theorem State.resetRegisters_status (s : State) : s.resetRegisters.status = ⟨.ok, false, none⟩ := rfl
@[simp] theorem State.resetRegisters_lock (s : State) : s.resetRegisters.lock = false := rfl
@[simp] theorem State.resetRegisters_simd (s : State) : s.resetRegisters.simd = s.params.simdCap := rfl
@[simp] theorem State.resetRegisters_codecMask0 (s : State) : s.resetRegisters.codecMask0 = s.params.maskReset0 := rfl
@[simp] theorem State.resetRegisters_codecMask1 (s : State) : s.resetRegisters.codecMask1 = s.params.maskReset1 := rfl
@[simp] theorem State.resetRegisters_codecMask2 (s : State) : s.resetRegisters.codecMask2 = s.params.maskReset2 := rfl
@[simp] theorem State.resetRegisters_codecMask3 (s : State) : s.resetRegisters.codecMask3 = s.params.maskReset3 := rfl
@[simp] theorem State.resetRegisters_asm (s : State) : s.resetRegisters.asm = .empty := rfl
@[simp] theorem State.resetRegisters_host (s : State) : s.resetRegisters.host = s.host := rfl
@[simp] theorem State.resetRegisters_hostIn (s : State) : s.resetRegisters.hostIn = s.hostIn := rfl

end Sys2Proof.Machine
end

