-- ==== Sys2Proof/Laws/Port.lean ====
section
/-! SUPPORT. What the host's side can do, said once: the ways a push answers, the ways any host action answers, and a step as
its first pending action. -/

namespace Sys2Proof.Machine

/-- A step is the first pending host action; with none pending nothing changes. -/
theorem step_cases {s t : State} (h : step s = .next t) :
    (s.host = [] ∧ t = s) ∨ ∃ a rest, s.host = a :: rest ∧ hostAct a { s with host := rest } = .next t := by
  simp only [step, nextAction] at h
  split at h
  · exact .inl ⟨‹_›, by cases h; rfl⟩
  · exact .inr ⟨_, _, ‹_›, h⟩

/-- A push is discarded, extends the assembly buffer, or issues the descriptor it completes. -/
theorem push_cases {w : Word} {s t : State} (h : push w s = .next t) :
    ((s.status.fault.isSome = true ∨ s.status.busy = true) ∧ t = s) ∨
    (s.status.fault = none ∧ s.status.busy = false ∧
      ((∃ a, a ≠ .empty ∧ t = { s with asm := a }) ∨
        ∃ w0 w1 w2 w3 w4, s.asm = .five w0 w1 w2 w3 w4 ∧ issue ⟨w0, w1, w2, w3, w4, w⟩ s.accept = .next t)) := by
  simp only [push] at h
  split at h
  · rename_i hb
    exact .inl ⟨by simpa using hb, by cases h; rfl⟩
  · rename_i hb
    rw [Bool.not_eq_true, Bool.or_eq_false_iff] at hb
    refine .inr ⟨by simpa using hb.1, hb.2, ?_⟩
    split at h
    case h_6 => exact .inr ⟨_, _, _, _, _, ‹_›, h⟩
    all_goals
      cases h
      exact .inl ⟨_, by simp, rfl⟩

/-- An issued descriptor runs as the command it decodes to, or takes the fault decoding names. -/
theorem issue_cases {d : Descriptor} {s t : State} (h : issue d s = .next t) :
    (∃ i, decode d = .ok i ∧ exec i s = .next t) ∨ ∃ c, decode d = .error c ∧ t = s.takeFault c := by
  simp only [issue] at h
  split at h
  · exact .inl ⟨_, ‹_›, h⟩
  · exact .inr ⟨_, ‹_›, by cases h; rfl⟩

/-- Every way a host action answers a next state. -/
theorem hostAct_cases {a : HostAction} {s t : State} (h : hostAct a s = .next t) :
    (∃ w, a = .writeReg 0 w ∧ push w s = .next t) ∨
    (∃ offset v, a = .writeReg offset v ∧ offset ≠ 0 ∧ t = writeRegister offset v s) ∨
    (∃ offset, a = .readReg offset ∧ t = { s with hostIn := readRegister offset s }) ∨
    (∃ addr bytes, a = .writeBuf addr bytes ∧ s.status.busy = false ∧ addr + bytes.length ≤ s.params.memSize ∧
      t = s.store addr bytes) ∨
    (∃ addr, a = .readBuf addr ∧ s.status.busy = false ∧ addr + 1 ≤ s.params.memSize ∧
      t = { s with hostIn := (memByte s.mem addr).setWidth 64 }) ∨
    (a = .reset ∧ t = s.resetRegisters) := by
  cases a with
  | writeReg offset v =>
    simp only [hostAct] at h
    split at h
    · cases h
    · split at h
      · rename_i h0
        exact .inl ⟨v, by rw [h0], h⟩
      · exact .inr (.inl ⟨offset, v, rfl, ‹_›, by cases h; rfl⟩)
  | readReg offset =>
    simp only [hostAct] at h
    split at h
    · cases h
    · exact .inr (.inr (.inl ⟨offset, rfl, by cases h; rfl⟩))
  | writeBuf addr bytes =>
    simp only [hostAct, withBuffer, inRange, decide_eq_true_eq] at h
    split at h
    · cases h
    · split at h
      · rename_i hb hr
        exact .inr (.inr (.inr (.inl ⟨addr, bytes, rfl, by simpa using hb, hr, by cases h; rfl⟩)))
      · cases h
  | readBuf addr =>
    simp only [hostAct, withBuffer, inRange, decide_eq_true_eq] at h
    split at h
    · cases h
    · split at h
      · rename_i hb hr
        exact .inr (.inr (.inr (.inr (.inl ⟨addr, rfl, by simpa using hb, hr, by cases h; rfl⟩))))
      · cases h
  | reset => exact .inr (.inr (.inr (.inr (.inr ⟨rfl, by cases h; rfl⟩))))

/-- A register write leaves the machine's results and memory alone, and its lock where it was set. -/
theorem writeRegister_keeps (offset : Nat) (v : Word) (s : State) :
    (writeRegister offset v s).params = s.params ∧ (writeRegister offset v s).mem = s.mem ∧
    (writeRegister offset v s).res0 = s.res0 ∧ (writeRegister offset v s).res1 = s.res1 ∧
    (writeRegister offset v s).hdrLo = s.hdrLo ∧ (writeRegister offset v s).hdrHi = s.hdrHi ∧
    (writeRegister offset v s).status = s.status ∧ (writeRegister offset v s).simd = s.simd ∧
    (writeRegister offset v s).asm = s.asm ∧ (s.lock = true → (writeRegister offset v s).lock = true) := by
  unfold writeRegister
  split
  · simp +contextual
  all_goals first
    | exact ⟨rfl, rfl, rfl, rfl, rfl, rfl, rfl, rfl, rfl, id⟩
    | (split <;> exact ⟨rfl, rfl, rfl, rfl, rfl, rfl, rfl, rfl, rfl, id⟩)

end Sys2Proof.Machine
end

