-- ==== Sys2Proof/Laws/Transform.lean ====
section
/-! SUPPORT. Laws of the transforms' building blocks: `rebuild`, degenerate shapes, and the index maps of R102 and R103 at the
positions the rules name. -/

namespace Sys2Proof.Machine

theorem degenerate_iff {n t : Nat} : degenerate n t = true ↔ t ≤ 1 ∨ n < t := by simp [degenerate]

theorem length_rebuild (s : List Byte) (f : Nat → Byte) : (rebuild s f).length = s.length := by simp [rebuild]

/-- Byte `p` of a rebuilt sequence. -/
theorem byteAt_rebuild {s : List Byte} {p : Nat} (f : Nat → Byte) (h : p < s.length) :
    byteAt (rebuild s f) p = f p := by
  simp [byteAt, rebuild, List.getD, h]

/-- Two sequences of one length with the same bytes are equal. -/
theorem ext_byteAt {s t : List Byte} (hl : s.length = t.length) (h : ∀ p, p < s.length → byteAt s p = byteAt t p) :
    s = t := by
  refine List.ext_getElem hl (fun p hp hp' => ?_)
  have := h p hp
  simpa [byteAt, List.getD, hp, hp'] using this

/-- On a shape that is not degenerate there is at least one element of at least two bytes (R101). -/
theorem not_degenerate {n t : Nat} (h : ¬ degenerate n t = true) : 2 ≤ t ∧ 0 < elements n t ∧ elements n t * t ≤ n := by
  rw [degenerate_iff, not_or] at h
  have ht : t ≤ n := by omega
  exact ⟨by omega, Nat.div_pos ht (by omega), Nat.div_mul_le_self n t⟩

/-- A position in plane `j` of the shuffled buffer (R102). -/
theorem plane_lt {e t i j : Nat} (hi : i < e) (hj : j < t) : j * e + i < e * t :=
  calc j * e + i < j * e + e := by omega
    _ = (j + 1) * e := by rw [Nat.succ_mul]
    _ ≤ t * e := Nat.mul_le_mul_right e hj
    _ = e * t := Nat.mul_comm t e

/-- Quotient and remainder of a position written as `q*d + r`. -/
theorem mul_add_div_mod {q d r : Nat} (h : r < d) : (q * d + r) / d = q ∧ (q * d + r) % d = r := by
  constructor
  · rw [Nat.add_comm, Nat.add_mul_div_right _ _ (by omega), Nat.div_eq_of_lt h, Nat.zero_add]
  · rw [Nat.mul_comm, Nat.mul_add_mod, Nat.mod_eq_of_lt h]

/-- R102: output `j*E + i` receives input `i*T + j`. -/
theorem byteShuffleIndex_plane {n t i j : Nat} (hi : i < elements n t) (hj : j < t) :
    byteShuffleIndex n t (j * elements n t + i) = i * t + j := by
  simp only [byteShuffleIndex, if_pos (plane_lt hi hj), mul_add_div_mod hi]

/-- R103: output `i*T + j` receives input `j*E + i`. -/
theorem byteUnshuffleIndex_element {n t i j : Nat} (hi : i < elements n t) (hj : j < t) :
    byteUnshuffleIndex n t (i * t + j) = j * elements n t + i := by
  have hlt : i * t + j < elements n t * t := by
    have := plane_lt hj hi
    rwa [Nat.mul_comm t] at this
  simp only [byteUnshuffleIndex, if_pos hlt, mul_add_div_mod hj]

/-- The bytes from `E*T` on pass through the byte shuffle and its inverse. -/
theorem byteShuffleIndex_tail {n t p : Nat} (h : elements n t * t ≤ p) :
    byteShuffleIndex n t p = p ∧ byteUnshuffleIndex n t p = p := by
  simp [byteShuffleIndex, byteUnshuffleIndex, Nat.not_lt.2 h]

/-- Every position of the shuffled region is some plane's, and some element's. -/
theorem plane_of_lt {e t p : Nat} (h : p < e * t) : ∃ j i, i < e ∧ j < t ∧ p = j * e + i := by
  have he : 0 < e := Nat.pos_of_ne_zero (fun h0 => by simp [h0] at h)
  exact ⟨p / e, p % e, Nat.mod_lt _ he, Nat.div_lt_of_lt_mul h, (Nat.div_add_mod' p e).symm⟩

/-- A position of the transposed region is byte `j*8 + m` of group `g` (R105). -/
theorem group_of_lt {c t p : Nat} (h : p < c * (8 * t)) :
    ∃ g j m, g < c ∧ j < t ∧ m < 8 ∧ p = g * (8 * t) + (j * 8 + m) := by
  have ht : 0 < 8 * t := Nat.pos_of_ne_zero (fun h0 => by simp [h0] at h)
  refine ⟨p / (8 * t), p % (8 * t) / 8, p % (8 * t) % 8, Nat.div_lt_of_lt_mul (by rwa [Nat.mul_comm]), ?_,
    Nat.mod_lt _ (by omega), ?_⟩
  · have := Nat.mod_lt p ht
    omega
  · rw [Nat.div_add_mod' (p % (8 * t)) 8, Nat.div_add_mod' p (8 * t)]

/-- The byte of the bit shuffle at byte `j*8 + m` of group `g` (R105). -/
theorem bitShuffleByte_group {s : List Byte} {t g j m : Nat} (hg : g < groups s.length t) (hj : j < t) (hm : m < 8) :
    bitShuffleByte s t (g * (8 * t) + (j * 8 + m)) =
      tr8 (fun k => byteAt s (g * (8 * t) + k * t + j)) m := by
  have hr : j * 8 + m < 8 * t := by omega
  have hp : g * (8 * t) + (j * 8 + m) < groups s.length t * (8 * t) :=
    Nat.lt_of_lt_of_eq (plane_lt hr hg) (Nat.mul_comm _ _)
  simp only [bitShuffleByte, if_pos hp, mul_add_div_mod hr, mul_add_div_mod hm]

/-- The byte of the inverse at byte `k*T + j` of group `g` (R106). -/
theorem bitUnshuffleByte_group {s : List Byte} {t g j k : Nat} (hg : g < groups s.length t) (hj : j < t) (hk : k < 8) :
    bitUnshuffleByte s t (g * (8 * t) + (k * t + j)) =
      tr8 (fun m => byteAt s (g * (8 * t) + j * 8 + m)) k := by
  have hr : k * t + j < 8 * t := Nat.lt_of_lt_of_eq (plane_lt hj hk) (Nat.mul_comm _ _)
  have hp : g * (8 * t) + (k * t + j) < groups s.length t * (8 * t) :=
    Nat.lt_of_lt_of_eq (plane_lt hr hg) (Nat.mul_comm _ _)
  simp only [bitUnshuffleByte, if_pos hp, mul_add_div_mod hr, mul_add_div_mod hj]

/-- The bytes from `G*8*T` on pass through the bit shuffle and its inverse. -/
theorem bitShuffleByte_tail {s : List Byte} {t p : Nat} (h : groups s.length t * (8 * t) ≤ p) :
    bitShuffleByte s t p = byteAt s p ∧ bitUnshuffleByte s t p = byteAt s p := by
  simp [bitShuffleByte, bitUnshuffleByte, Nat.not_lt.2 h]

/-- The transposed region lies in the buffer: `G*8*T <= E*T <= N` (R100). -/
theorem groups_le (n t : Nat) : groups n t * (8 * t) ≤ n := by
  have h1 : groups n t * 8 ≤ elements n t := Nat.div_mul_le_self _ _
  calc groups n t * (8 * t) = groups n t * 8 * t := (Nat.mul_assoc _ _ _).symm
    _ ≤ elements n t * t := Nat.mul_le_mul_right t h1
    _ ≤ n := Nat.div_mul_le_self n t

end Sys2Proof.Machine
end

