-- ==== Sys2Proof/Tests/Slice0.lean ====
section
/-! SUPPORT. Tests of one step each, with the expected results of spec/95_test_vectors.md (the id of the vector stands in each
comment), the WellFormed smoke test, decodings of words written out from spec/30_encoding.md, and for every obligation with
hypotheses a witness that meets them. -/

namespace Sys2Proof.Tests

open Machine Spec

/-! ## Helpers -/

/-- A byte sequence from numbers. -/
def bs (l : List Nat) : List Byte := l.map (BitVec.ofNat 8)

/-- The reset state with bytes placed in memory. -/
def box (cells : List (Nat × List Nat)) : State :=
  { State.reset with mem := cells.foldl (fun m c => memWrite m c.1 (bs c.2)) [] }

/-- The state a step answers; the reset state where it stops. -/
def out : Host.Outcome State Fault Refusal → State
  | .next t => t
  | .fault _ => State.reset
  | .refused _ => State.reset

/-- Bytes of memory as numbers. -/
def at_ (s : State) (a n : Nat) : List Nat := (memRead s.mem a n).map BitVec.toNat

/-- The result registers and `STATUS` as numbers: RES0, RES1, HDR_LO, HDR_HI, STATUS. -/
def regs (s : State) : List Nat :=
  [s.res0.toNat, s.res1.toNat, s.hdrLo.toNat, s.hdrHi.toNat, s.status.word.toNat]

/-- A sequence as numbers. -/
def nums (s : List Byte) : List Nat := s.map BitVec.toNat

/-- The memory of section 2.4. -/
def k : State := box [(0x100, [0x10, 0x11, 0x12, 0x13, 0x14, 0x15, 0x16, 0x17, 0x18, 0x19])]

/-- The 19 bytes of B6. -/
def b6 : List Nat :=
  [0x0B, 0x30, 0x55, 0x7A, 0x9F, 0xC4, 0xE9, 0x0E, 0x33, 0x58, 0x7D, 0xA2, 0xC7, 0xEC, 0x11, 0x36, 0x5B, 0x80, 0xA5]

/-- The bit shuffle of `b6` with `T = 2`. -/
def b6out : List Nat :=
  [0x32, 0x56, 0x1C, 0x6D, 0xB4, 0x66, 0xAA, 0xFF, 0x26, 0x6A, 0xC7, 0xC9, 0x5A, 0x33, 0x55, 0x00, 0x5B, 0x80, 0xA5]

/-- The result column of B1. -/
def b1out : List Nat := [0, 0, 0, 0, 0x0F, 0x33, 0x55, 0, 0, 0, 0, 0, 0x0F, 0x33, 0x55, 0xFF]

/-- The data of section 4.3. -/
def e12 : List Nat := [0x11, 0x22, 0x33, 0x44, 0x11, 0x22, 0x33, 0x55, 0x11, 0x22, 0x33, 0x66]

/-- The data of section 4.3 and the blob of section 4.4. -/
def w : State := box [(0x100, e12), (0x280, [0xC0, 0xC1, 0xC2, 0xC3, 0xC4, 0xC5, 0xC6])]

/-- The buffer O1 with chosen `Flags`, `VersionLZ`, `NBytesComp` and version. -/
def o1 (flags lz comp ver : Nat) : State :=
  box [(0x300, [ver, lz, flags, 1, 2, 0, 0, 0, 2, 0, 0, 0, comp, 0, 0, 0, 0xAA, 0xBB])]

/-! ## WellFormed -/

theorem test_wf_fwrap_255 : (Instr.fwrap .byteShuffle 1 255 0 0 0 0 0).wf = true := by decide

/-- R64: `TS = 256` in FWRAP is ill-formed; the check refuses the term, and as a command it takes FC_RESERVED. -/
theorem test_wf_refuses_fwrap_256 : (Instr.fwrap .byteShuffle 1 256 0 0 0 0 0).wf = false ∧
    regs (out (exec (.fwrap .byteShuffle 1 256 0x100 4 0x200 0x300 0) k)) = [0, 0, 0, 0, 0x00020200] := by decide

/-! ## Decoding: words written out from R61 to R65, every constructor -/

/-- The control word written out bit by bit, fields from bit 63 down: TS, LEVEL, CODEC, RSV, MODE, OPC. -/
def word (ts level codec rsv mode opc : Nat) : Nat :=
  ts * 2 ^ 32 + level * 2 ^ 24 + codec * 2 ^ 16 + rsv * 2 ^ 10 + mode * 2 ^ 8 + opc

/-- A descriptor as the opcode table numbers its bits: `Wk` at bits [64k+63 : 64k]. -/
def desc (w0 w1 w2 w3 w4 w5 : Nat) : Nat :=
  w0 + 2 ^ 64 * (w1 + 2 ^ 64 * (w2 + 2 ^ 64 * (w3 + 2 ^ 64 * (w4 + 2 ^ 64 * w5))))

theorem test_decode_shuf : decodeTableWord 384 (desc (0b100 * 2 ^ 32 + 0b00000001) 0x100 0xA 0x200 0 0)
    = some (.shuf 4 0x100 10 0x200) := by decide
theorem test_decode_unshuf : decodeTableWord 384 (desc (0b100 * 2 ^ 32 + 0b00000010) 0x200 0xA 0x300 0 0)
    = some (.unshuf 4 0x200 10 0x300) := by decide
theorem test_decode_bshuf : decodeTableWord 384 (desc (0b10 * 2 ^ 32 + 0b00000011) 0x100 0x10 0x200 0 0)
    = some (.bshuf 2 0x100 16 0x200) := by decide
theorem test_decode_bunshuf : decodeTableWord 384 (desc (0b10 * 2 ^ 32 + 0b00000100) 0x200 0x10 0x300 0 0)
    = some (.bunshuf 2 0x200 16 0x300) := by decide
theorem test_decode_shufip : decodeTableWord 384 (desc (0b10 * 2 ^ 32 + 0b10 * 2 ^ 8 + 0b00000101) 0x100 0x13 0 0 0)
    = some (.shufip .bitShuffle 2 0x100 19) := by decide
theorem test_decode_unshufip : decodeTableWord 384 (desc (0b10 * 2 ^ 32 + 0b01 * 2 ^ 8 + 0b00000110) 0x100 0x13 0 0 0)
    = some (.unshufip .byteShuffle 2 0x100 19) := by decide
theorem test_decode_hparse : decodeTableWord 384 (desc 0b00010000 0x300 0x10 0 0 0) = some (.hparse 0x300 16) := by
  decide
theorem test_decode_hser : decodeTableWord 384 (desc 0b00010001 0 0 0x300 0x0000010001000102 0x0000011000000100)
    = some (.hser 0x300 0x0000010001000102 0x0000011000000100) := by decide
theorem test_decode_hmode : decodeTableWord 384 (desc 0b00010010 0 0 0 0x0000010001050102 0)
    = some (.hmode 0x0000010001050102) := by decide
theorem test_decode_hhassh : decodeTableWord 384 (desc 0b00010011 0 0 0 0x00010000 0) = some (.hhassh 0x00010000) := by
  decide
theorem test_decode_hhasbs : decodeTableWord 384 (desc 0b00010100 0 0 0 0x00040000 0) = some (.hhasbs 0x00040000) := by
  decide
theorem test_decode_hismc : decodeTableWord 384 (desc 0b00010101 0 0 0 0x00020000 0) = some (.hismc 0x00020000) := by
  decide
theorem test_decode_dsize : decodeTableWord 384 (desc 0b00010110 0x300 0x10 0 0 0) = some (.dsize 0x300 16) := by decide
theorem test_decode_fopen : decodeTableWord 384 (desc 0b00100000 0x400 0x18 0 0 0) = some (.fopen 0x400 24) := by decide
theorem test_decode_fclose :
    decodeTableWord 384 (desc (0b100 * 2 ^ 32 + 0b00100001) 0x100 8 0x200 0x0000000802010102 0x0000001400000008)
    = some (.fclose 4 0x100 8 0x200 0x0000000802010102 0x0000001400000008) := by decide
/-- E2: `LEVEL` is `0xFD`, which is -3. -/
theorem test_decode_fpre :
    decodeTableWord 384 (desc (0b11111101 * 2 ^ 24 + 0b00000101 * 2 ^ 16 + 0b10 * 2 ^ 8 + 0b00100010) 0x100 0xC 0x200 0 0)
    = some (.fpre .bitShuffle 5 0xFD 0 0x100 12 0x200) := by decide
theorem test_decode_fwrap :
    decodeTableWord 384 (desc (0b100 * 2 ^ 32 + 0b00000001 * 2 ^ 16 + 0b01 * 2 ^ 8 + 0b00100011) 0x100 0xC 0x300 0x280 7)
    = some (.fwrap .byteShuffle 1 4 0x100 12 0x300 0x280 7) := by decide

/-- The words above zero: a table row of 64 bits is a whole descriptor with zero words. -/
theorem test_decode_short_row : decodeTableWord 64 (word 4 0 0 0 0 0x01) = some (.shuf 4 0 0 0) ∧
    decodeTableWord 8 0x20 = some (.fopen 0 0) ∧ decodeTableWord 8 0x00 = none := by decide

/-! ## Memory -/

/-- A store, an overwrite by the unlisted byte, and a range store all leave the canonical form. -/
theorem test_memory_canonical :
    memSet (memSet (memSet [] 5 7) 3 9) 5 0 = [(3, 9)] ∧ Memory.wf (memWrite [] 8 (bs [1, 0, 2])) = true ∧
    memWrite [] 8 (bs [1, 0, 2]) = [(8, 1), (10, 2)] ∧ Memory.wf [(3, 9), (3, 8)] = false ∧
    Memory.wf [(3, 0)] = false := by decide

theorem test_memory_reset : State.reset.mem.wf = true ∧ memByte State.reset.mem 0x123 = 0 := by decide

/-! ## Transforms (sections 2.1 to 2.3) -/

/-- Y2, Y4, Y5, Y7, Y8. -/
theorem test_byteShuffle :
    nums (byteShuffle (bs [0, 1, 2, 3, 4, 5, 6, 7, 8, 9]) 4) = [0, 4, 1, 5, 2, 6, 3, 7, 8, 9] ∧
    nums (byteShuffle (bs [0xA0, 0xA1, 0xA2, 0xA3, 0xA4, 0xA5, 0xA6, 0xA7, 0xA8, 0xA9, 0xAA, 0xAB]) 3)
      = [0xA0, 0xA3, 0xA6, 0xA9, 0xA1, 0xA4, 0xA7, 0xAA, 0xA2, 0xA5, 0xA8, 0xAB] ∧
    nums (byteShuffle (bs [0, 1, 2, 3, 4, 5, 6]) 3) = [0, 3, 1, 4, 2, 5, 6] ∧
    nums (byteShuffle (bs [0, 1, 2]) 4) = [0, 1, 2] ∧ nums (byteShuffle (bs [0, 1, 2, 3]) 4) = [0, 1, 2, 3] := by decide

/-- Section 2.1's inverse that is not the shuffle. -/
theorem test_byteUnshuffle :
    nums (byteUnshuffle (bs [0, 1, 2, 3, 4, 5, 6]) 3) = [0, 2, 4, 1, 3, 5, 6] := by decide

/-- T5. -/
theorem test_tr8 :
    (List.range 8).map (fun m => (tr8 (byteAt (bs [0x12, 0x34, 0x56, 0x78, 0x9A, 0xBC, 0xDE, 0xF0])) m).toNat)
      = [0x0F, 0x33, 0x55, 0xFF, 0x1E, 0x66, 0xAA, 0x00] := by decide

/-- B6 and B13. -/
theorem test_bitShuffle : nums (bitShuffle (bs b6) 2) = b6out ∧
    nums (bitShuffle (bs [0, 1, 2, 3]) 4) = [0, 1, 2, 3] := by decide

/-- The inverse of section 2.3 on an input that is no forward result. -/
theorem test_bitUnshuffle : nums (bitUnshuffle (bs (List.range 16)) 2)
    = [0, 0, 0, 0, 0, 0, 0, 0, 0, 0xFF, 0x0F, 0x0F, 0x33, 0x33, 0x55, 0x55] := by decide

/-! ## Permutation commands (section 2.4) -/

/-- K1. -/
theorem test_shuf : at_ (out (exec (.shuf 4 0x100 10 0x200) k)) 0x200 10
      = [0x10, 0x14, 0x11, 0x15, 0x12, 0x16, 0x13, 0x17, 0x18, 0x19] ∧
    regs (out (exec (.shuf 4 0x100 10 0x200) k)) = [0xA, 0, 0, 0, 0] := by decide

/-- K6 and K7: overlap and range faults. -/
theorem test_shuf_faults : regs (out (exec (.shuf 4 0x100 8 0x104) k)) = [0, 0, 0, 0, 0x00040200] ∧
    regs (out (exec (.shuf 4 0xFFC 8 0x200) k)) = [0, 0, 0, 0, 0x00030200] := by decide

/-- K2 on the output of K1. -/
theorem test_unshuf :
    at_ (out (exec (.unshuf 4 0x200 10 0x300) (box [(0x200, [0x10, 0x14, 0x11, 0x15, 0x12, 0x16, 0x13, 0x17, 0x18, 0x19])])))
      0x300 10 = [0x10, 0x11, 0x12, 0x13, 0x14, 0x15, 0x16, 0x17, 0x18, 0x19] := by decide

/-- B1 as a command. -/
theorem test_bshuf :
    at_ (out (exec (.bshuf 2 0x100 16 0x200) (box [(0x100, List.range 16)]))) 0x200 16 = b1out := by decide

/-- The inverse of B1 as a command. -/
theorem test_bunshuf :
    at_ (out (exec (.bunshuf 2 0x200 16 0x300) (box [(0x200, b1out)]))) 0x300 16 = List.range 16 := by decide

/-- K3. -/
theorem test_shufip : at_ (out (exec (.shufip .bitShuffle 2 0x100 19) (box [(0x100, b6)]))) 0x100 19 = b6out ∧
    regs (out (exec (.shufip .bitShuffle 2 0x100 19) (box [(0x100, b6)]))) = [0x13, 0, 0, 0, 0] := by decide

/-- K5. -/
theorem test_shufip_none : (out (exec (.shufip .noShuffle 4 0x100 10) k)).mem = k.mem ∧
    regs (out (exec (.shufip .noShuffle 4 0x100 10) k)) = [10, 0, 0, 0, 0] := by decide

/-- K4. -/
theorem test_unshufip : at_ (out (exec (.unshufip .bitShuffle 2 0x100 19) (box [(0x100, b6out)]))) 0x100 19 = b6 := by
  decide

/-! ## Header commands (section 3) -/

/-- H1. -/
theorem test_hser : at_ (out (exec (.hser 0x300 0x0000010001000102 0x0000011000000100) State.reset)) 0x300 16
      = [2, 1, 0, 1, 0, 1, 0, 0, 0, 1, 0, 0, 0x10, 1, 0, 0] ∧
    regs (out (exec (.hser 0x300 0x0000010001000102 0x0000011000000100) State.reset)) = [0x10, 0, 0, 0, 0] := by decide

/-- H1 parsed. -/
theorem test_hparse :
    regs (out (exec (.hparse 0x300 16) (box [(0x300, [2, 1, 0, 1, 0, 1, 0, 0, 0, 1, 0, 0, 0x10, 1, 0, 0])])))
      = [0, 0, 0x0000010001000102, 0x0000011000000100, 0] := by decide

/-- P4: a short buffer, and a version of 0x63. -/
theorem test_hparse_errors : regs (out (exec (.hparse 0x100 4) (box [(0x100, [1, 2, 3, 4])]))) = [0, 0, 0, 0, 2] ∧
    regs (out (exec (.hparse 0x200 16) (box [(0x200, [0x63])]))) = [0, 0, 0, 0, 3] := by decide

/-- H1's original size. -/
theorem test_dsize :
    regs (out (exec (.dsize 0x300 16) (box [(0x300, [2, 1, 0, 1, 0, 1, 0, 0, 0, 1, 0, 0, 0x10, 1, 0, 0])])))
      = [0x100, 0, 0, 0, 0] := by decide

/-- The table of section 3.2, rows 0x00, 0x01, 0x02, 0x04, 0x05, 0x08, 0xF8, 0xFF. -/
theorem test_hmode : [0x00, 0x01, 0x02, 0x04, 0x05, 0x08, 0xF8, 0xFF].map
    (fun f => (out (exec (.hmode (BitVec.ofNat 64 (f * 2 ^ 16))) State.reset)).res0.toNat) = [0, 1, 0, 2, 2, 0, 0, 2] := by
  decide
theorem test_hhassh : [0x00, 0x01, 0x02, 0x04, 0x05, 0x08, 0xF8, 0xFF].map
    (fun f => (out (exec (.hhassh (BitVec.ofNat 64 (f * 2 ^ 16))) State.reset)).res0.toNat) = [0, 1, 0, 0, 1, 0, 0, 1] := by
  decide
theorem test_hhasbs : [0x00, 0x01, 0x02, 0x04, 0x05, 0x08, 0xF8, 0xFF].map
    (fun f => (out (exec (.hhasbs (BitVec.ofNat 64 (f * 2 ^ 16))) State.reset)).res0.toNat) = [0, 0, 0, 1, 1, 0, 0, 1] := by
  decide
theorem test_hismc : [0x00, 0x01, 0x02, 0x04, 0x05, 0x08, 0xF8, 0xFF].map
    (fun f => (out (exec (.hismc (BitVec.ofNat 64 (f * 2 ^ 16))) State.reset)).res0.toNat) = [0, 0, 1, 0, 0, 0, 0, 1] := by
  decide

/-! ## Frame commands (section 4) -/

/-- O1, O4 and O6. -/
theorem test_fopen :
    regs (out (exec (.fopen 0x300 0x12) (o1 2 0 0x12 2))) = [0x310, 2, 0x0000000201020002, 0x0000001200000002, 0] ∧
    regs (out (exec (.fopen 0x300 0x12) (o1 0 1 16 2))) = [0x310, 0, 0x0000000201000102, 0x0000001000000002, 0] ∧
    regs (out (exec (.fopen 0x300 0x40) (o1 0 1 18 2))) = [0x310, 2, 0x0000000201000102, 0x0000001200000002, 0] := by
  decide

/-- O2, O3, O5, O7, O8, O9. -/
theorem test_fopen_errors :
    regs (out (exec (.fopen 0x300 0x12) (o1 0 0 0x12 2))) = [0, 0, 0, 0, 4] ∧
    regs (out (exec (.fopen 0x300 0x12) (o1 0 1 15 2))) = [0, 0, 0, 0, 1] ∧
    regs (out (exec (.fopen 0x300 0x12) (o1 0 1 19 2))) = [0, 0, 0, 0, 1] ∧
    regs (out (exec (.fopen 0x300 0x0F) (o1 2 0 0x12 2))) = [0, 0, 0, 0, 2] ∧
    regs (out (exec (.fopen 0x300 0x12) (o1 2 0 0x12 3))) = [0, 0, 0, 0, 3] ∧
    regs (out (exec (.fopen 0x300 0x12) (o1 2 0 0 3))) = [0, 0, 0, 0, 3] := by decide

/-- F2 (conflict C1), F4 and F5. -/
theorem test_fclose :
    at_ (out (exec (.fclose 0 0x100 8 0x200 0x0000000804030102 0x0000001800000008)
      (box [(0x100, [0xA0, 0xA1, 0xA2, 0xA3, 0xB0, 0xB1, 0xB2, 0xB3])]))) 0x200 8
      = [0xA0, 0xA1, 0xA2, 0xA3, 0xB0, 0xB1, 0xB2, 0xB3] ∧
    at_ (out (exec (.fclose 4 0x100 8 0x200 0x0000000802010102 0x0000001400000008)
      (box [(0x100, [0xA0, 0xB0, 0xA1, 0xB1, 0xA2, 0xB2, 0xA3, 0xB3])]))) 0x200 8
      = [0xA0, 0xA1, 0xA2, 0xA3, 0xB0, 0xB1, 0xB2, 0xB3] ∧
    at_ (out (exec (.fclose 0 0x100 8 0x200 0x0000000802010102 0x0000001400000008)
      (box [(0x100, [0xA0, 0xB0, 0xA1, 0xB1, 0xA2, 0xB2, 0xA3, 0xB3])]))) 0x200 8
      = [0xA0, 0xA2, 0xB0, 0xB2, 0xA1, 0xA3, 0xB1, 0xB3] := by decide

/-- F3, and the size mismatch F6. -/
theorem test_fclose_bit_and_mismatch :
    at_ (out (exec (.fclose 0 0x100 16 0x200 0x0000001002050502 0x0000001E00000010) (box [(0x100, b1out)]))) 0x200 16
      = List.range 16 ∧
    out (exec (.fclose 0 0x100 4 0x200 0x0000000801020102 0) k)
      = { k with status := { k.status with err := .sizeMismatch } } := by decide

/-- E1 and E3. -/
theorem test_fpre :
    at_ (out (exec (.fpre .byteShuffle 1 5 4 0x100 12 0x200) w)) 0x200 12
      = [0x11, 0x11, 0x11, 0x22, 0x22, 0x22, 0x33, 0x33, 0x33, 0x44, 0x55, 0x66] ∧
    regs (out (exec (.fpre .byteShuffle 1 5 4 0x100 12 0x200) w)) = [0xC, 0x0000000500000004, 0, 0, 0] ∧
    regs (out (exec (.fpre .noShuffle 1 100 300 0x100 12 0x200) w)) = [0xC, 0x000000090000012C, 0, 0, 0] := by decide

/-- E2 (level -3, type size 0), E4 and E5. -/
theorem test_fpre_clamps_and_errors :
    at_ (out (exec (.fpre .bitShuffle 5 0xFD 0 0x100 12 0x200) w)) 0x200 12 = e12 ∧
    regs (out (exec (.fpre .bitShuffle 5 0xFD 0 0x100 12 0x200) w)) = [0xC, 0x0000000100000001, 0, 0, 0] ∧
    regs (out (exec (.fpre .byteShuffle 0 5 4 0x100 12 0x200) w)) = [0, 0, 0, 0, 4] ∧
    regs (out (exec (.fpre .byteShuffle 0 5 4 0x100 0 0x200) w)) = [0, 0, 0, 0, 1] := by decide

/-- W1. -/
theorem test_fwrap :
    at_ (out (exec (.fwrap .byteShuffle 1 4 0x100 12 0x300 0x280 7) w)) 0x300 23
      = [2, 1, 1, 4, 0xC, 0, 0, 0, 0xC, 0, 0, 0, 0x17, 0, 0, 0, 0xC0, 0xC1, 0xC2, 0xC3, 0xC4, 0xC5, 0xC6] ∧
    regs (out (exec (.fwrap .byteShuffle 1 4 0x100 12 0x300 0x280 7) w))
      = [0x17, 0, 0x0000000C04010102, 0x000000170000000C, 0] := by decide

/-- W2 (equality is memcpy) and W4's header. -/
theorem test_fwrap_memcpy :
    at_ (out (exec (.fwrap .byteShuffle 1 4 0x100 12 0x340 0x280 12) w)) 0x340 28
      = [2, 1, 3, 4, 0xC, 0, 0, 0, 0xC, 0, 0, 0, 0x1C, 0, 0, 0] ++ e12 ∧
    regs (out (exec (.fwrap .byteShuffle 1 4 0x100 12 0x340 0x280 12) w))
      = [0x1C, 1, 0x0000000C04030102, 0x0000001C0000000C, 0] ∧
    at_ (out (exec (.fwrap .bitShuffle 5 255 0x100 4 0x200 0x300 0) w)) 0x200 17
      = [2, 5, 4, 0xFF, 4, 0, 0, 0, 4, 0, 0, 0, 0x10, 0, 0, 0, 0] := by decide

/-! ## Host, reset, assembler, pseudo-commands -/

/-- P8: the registry write holds before the lock, is ignored after it, and a write of 0 does not clear the lock. -/
theorem test_lock :
    (writeRegister 0x40 0xB6 State.reset).codecMask0 = 0xB6 ∧
    (writeRegister 0x40 0x3E (writeRegister 0x30 1 State.reset)).codecMask0 = 0x3E ∧
    (writeRegister 0x40 0xB6 (writeRegister 0x30 1 State.reset)).codecMask0 = 0x3E ∧
    (writeRegister 0x30 0 (writeRegister 0x30 1 State.reset)).lock = true := by decide

/-- P6: the second descriptor's pushes are discarded on a faulted engine. -/
theorem test_push_discarded : out (push 0x0000000400000001 (out (exec (.shuf 4 0x100 8 0x104) k)))
    = out (exec (.shuf 4 0x100 8 0x104) k) := by decide

/-- K8 and K9 through the port: no command, the lock set, the fault taken, the assembly buffer empty. -/
theorem test_issue_faults :
    (out (issue ⟨0, 0, 0, 0, 0, 0⟩ State.reset.accept)).status.word.toNat = 0x00010200 ∧
    (out (issue ⟨0x0000000400000305, 0x100, 0xA, 0, 0, 0⟩ State.reset.accept)).status.word.toNat = 0x00020200 ∧
    (out (issue ⟨0x0000000400000305, 0x100, 0xA, 0, 0, 0⟩ State.reset.accept)).lock = true := by decide

/-- R73: the symbolic and the numeric spelling of E1, `buf`, `tsovr` and `hdr`. -/
theorem test_assemble :
    assemble .fpre [⟨.src, .number 0x100⟩, ⟨.len, .number 12⟩, ⟨.dst, .number 0x200⟩, ⟨.mode, .mode .bitShuffle⟩,
      ⟨.codec, .codec .zstd⟩, ⟨.level, .number (-3)⟩, ⟨.ts, .number 0⟩]
      = some (.fpre .bitShuffle 5 0xFD 0 0x100 12 0x200) ∧
    assemble .hser [⟨.dst, .number 0x300⟩, ⟨.hdr, .header ⟨2, 1, 0, 1, 256, 256, 272⟩⟩]
      = some (.hser 0x300 0x0000010001000102 0x0000011000000100) ∧
    assemble .fwrap [⟨.src, .number 0x100⟩, ⟨.len, .number 4⟩, ⟨.dst, .number 0x200⟩, ⟨.src2, .number 0x300⟩,
      ⟨.len2, .number 0⟩, ⟨.ts, .number 256⟩] = none := by decide

/-- P2: after FOPEN of a memcpy frame the host issues FCLOSE with the register values, and no codec step. -/
theorem test_decompress_memcpy :
    let s := box [(0x400, [2, 1, 3, 4, 8, 0, 0, 0, 8, 0, 0, 0, 0x18, 0, 0, 0])]
    let p := Pseudo.decompress 0x400 24 0x500
    p.next (out (exec p.first s)) none
      = .issue (.fclose 0 0x410 8 0x500 0x0000000804030102 0x0000001800000008) := by decide

/-- P3: the codec is asked for the prepared bytes at `level'`, and its output goes to FWRAP. -/
theorem test_compress :
    let p := Pseudo.compress 0x100 12 0x300 0x200 1 5 .byteShuffle 4
    p.next (out (exec p.first w)) none = .codec (.compress 1 0x200 12 5) ∧
    p.next (out (exec p.first w)) (some (.buffer 0x280 7))
      = .issue (.fwrap .byteShuffle 1 4 0x100 12 0x300 0x280 7) := by decide

/-! ## Witnesses: for each obligation with hypotheses, a state and operands that meet them; clauses at the ends of their ranges -/

/-- A state in which `W0` to `W4` of H1's HSER have been pushed and `W5` is next. -/
def five : State :=
  { State.reset with
    asm := .five 0x11 0 0 0x300 0x0000010001000102
    host := [.writeReg 0 0x0000011000000100] }

/-- The descriptor `five` completes. -/
def h1 : Descriptor := ⟨0x11, 0, 0, 0x300, 0x0000010001000102, 0x0000011000000100⟩

/-- The state K6 leaves. -/
def faulted : State := out (exec (.shuf 4 0x100 8 0x104) k)

/-- `MEM_SIZE` as a parameter. -/
def sized (n : Nat) : State := { State.reset with params := { Params.initial with memSize := n } }

theorem witness_DecodeOfEncode : (Instr.fwrap .bitShuffle 255 255 0 1 2 3 4).wf = true ∧
    decodeTableWord 384 (desc (word 255 0 255 0 2 0x23) 0 1 2 3 4) = some (.fwrap .bitShuffle 255 255 0 1 2 3 4) := by
  decide

theorem witness_EncodeOfDecode :
    decode h1 = .ok (.hser 0x300 0x0000010001000102 0x0000011000000100) ∧
    encode (.hser 0x300 0x0000010001000102 0x0000011000000100) = h1 := ⟨rfl, by decide⟩

/-- Opcode 0x00, the ends of each opcode block and 0xFF; MODE 2 and 3; TS 255 and 256; an unused word. -/
theorem witness_DecodeFollowsOpcodeMap :
    (∀ n ∈ [0x00, 0x07, 0x0F, 0x17, 0x1F, 0x24, 0xFF], n ∉ opcodes ∧ decodeTableWord 384 (word 0 0 0 0 0 n) = none) ∧
    (∀ n ∈ opcodes, (decodeTableWord 384 (word 0 0 0 0 0 n)).isSome = true ∧
      decodeTableWord 384 (word 0 0 0 1 0 n) = none) ∧
    (decodeTableWord 384 (word 0 0 0 0 2 0x05)).isSome = true ∧ decodeTableWord 384 (word 0 0 0 0 3 0x05) = none ∧
    (decodeTableWord 384 (word 255 0 0 0 2 0x23)).isSome = true ∧ decodeTableWord 384 (word 256 0 0 0 2 0x23) = none ∧
    decodeTableWord 384 (desc 0x10 0 0 1 0 0) = none ∧ decodeTableWord 384 (desc 0x12 0 0 0 0 1) = none := by decide

/-- The clauses of a command from `[0x100, +8)`: memory canonical; a range one byte too long and one that just fits; a
destination one byte inside the source and one just outside it. -/
def SrcDstClauses : Prop :=
  k.mem.wf = true ∧ ¬ (Fits k 0xFF9 8 ∧ Fits k 0x200 8) ∧ Fits k 0xFF8 8 ∧
  (Fits k 0x100 8 ∧ Fits k 0x107 8 ∧ Overlaps 0x100 8 0x107 8) ∧ Fits k 0x108 8 ∧ ¬ Overlaps 0x100 8 0x108 8

theorem srcDstClauses : SrcDstClauses := by
  unfold SrcDstClauses
  decide

/-- Degenerate and other shapes at their border (R101), for 8 bytes. -/
theorem shapes : Degenerate 8 1 ∧ ¬ Degenerate 8 2 ∧ ¬ Degenerate 8 8 ∧ Degenerate 8 9 := by decide

theorem witness_ShufRearrangesBytes : SrcDstClauses ∧
    at_ (out (exec (.shuf 2 0x100 8 0x108) k)) 0x108 8 = [0x10, 0x12, 0x14, 0x16, 0x11, 0x13, 0x15, 0x17] :=
  ⟨srcDstClauses, by decide⟩

theorem witness_UnshufRestoresOrder : SrcDstClauses ∧
    at_ (out (exec (.unshuf 2 0x100 8 0x108) k)) 0x108 8 = [0x10, 0x14, 0x11, 0x15, 0x12, 0x16, 0x13, 0x17] :=
  ⟨srcDstClauses, by decide⟩

theorem witness_BshufTransposesBits : SrcDstClauses ∧
    at_ (out (exec (.bshuf 1 0x100 8 0x108) k)) 0x108 8 = [0x10, 0x11, 0x12, 0x13, 0x14, 0x15, 0x16, 0x17] :=
  ⟨srcDstClauses, by decide⟩

theorem witness_BunshufTransposesBack : SrcDstClauses ∧
    at_ (out (exec (.bunshuf 9 0x100 8 0x108) k)) 0x108 8 = [0x10, 0x11, 0x12, 0x13, 0x14, 0x15, 0x16, 0x17] :=
  ⟨srcDstClauses, by decide⟩

theorem witness_ShufipTransformsInPlace : k.mem.wf = true ∧ ¬ Fits k 0xFF9 8 ∧ Fits k 0xFF8 8 ∧
    regs (out (exec (.shufip .byteShuffle 2 0xFF9 8) k)) = [0, 0, 0, 0, 0x00030200] ∧
    regs (out (exec (.shufip .byteShuffle 2 0xFF8 8) k)) = [8, 0, 0, 0, 0] := by decide

theorem witness_UnshufipUndoesShufip : k.mem.wf = true ∧ Fits k 0x100 10 ∧ ¬ Fits k 0xFF9 8 ∧
    exec (.shufip .byteShuffle 4 0x100 10) k = .next (out (exec (.shufip .byteShuffle 4 0x100 10) k)) ∧
    (out (exec (.unshufip .byteShuffle 4 0x100 10) (out (exec (.shufip .byteShuffle 4 0x100 10) k)))).mem = k.mem :=
  ⟨by decide, by decide, by decide, rfl, by decide⟩

/-- A sequence the byte shuffle leaves alone (R108's last clause), and one of a single element (R118). -/
theorem witness_TransformsRoundTrip : byteShuffle (bs [1, 2, 3]) 4 = bs [1, 2, 3] ∧
    byteShuffle (bs [7, 7, 7, 7]) 2 = bs [7, 7, 7, 7] := by decide

theorem witness_BitTransposeIsSelfInverse : (7 < 8 ∧ 0 < 8) ∧
    (tr8 (byteAt (bs [0x80, 0, 0, 0, 0, 0, 0, 1])) 7).getLsbD 0 = (byteAt (bs [0x80, 0, 0, 0, 0, 0, 0, 1]) 7).getLsbD 0 := by
  decide

theorem witness_ByteShufflePermutes : (bs [4, 3, 2, 1]).length = 4 ∧ byteShuffle (bs [4, 3, 2, 1]) 4 = bs [4, 3, 2, 1] := by
  decide

theorem witness_HeaderPackingIsLossless :
    (Header.mk 2 1 0 1 256 256 272).version = 2#8 ∧ (bs (List.range 16)).length = 16 ∧
    parse (bs (2 :: List.range 20)) = .ok (hdrFields (bs (2 :: List.range 15))) :=
  ⟨rfl, by decide, rfl⟩

theorem witness_ParseTestsLengthThenVersion :
    (bs (List.replicate 15 2)).length < 16 ∧ 16 ≤ (bs (List.replicate 16 3)).length ∧
    (bs (List.replicate 16 3)).head? ≠ some 2#8 ∧ (bs (List.replicate 16 2)).head? = some 2#8 := by decide

/-- HPARSE, DSIZE: out of memory by one byte; LEN 15 and 16; version 3 and 2. -/
theorem witness_HparseDeliversHeader :
    ¬ Fits (o1 2 0 0x12 3) 0xFF1 16 ∧ Fits (o1 2 0 0x12 3) 0xFF0 16 ∧ Fits (o1 2 0 0x12 3) 0x300 15 ∧
    memByte (o1 2 0 0x12 3).mem 0x300 ≠ 2#8 ∧ memByte (o1 2 0 0x12 2).mem 0x300 = 2#8 ∧
    regs (out (exec (.hparse 0x300 15) (o1 2 0 0x12 2))) = [0, 0, 0, 0, 2] ∧
    regs (out (exec (.hparse 0x300 16) (o1 2 0 0x12 2))) = [0, 0, 0x0000000201020002, 0x0000001200000002, 0] := by decide

theorem witness_DsizeReadsOriginalSize :
    ¬ Fits (o1 2 0 0x12 3) 0xFF1 16 ∧ Fits (o1 2 0 0x12 3) 0xFF0 16 ∧ Fits (o1 2 0 0x12 3) 0x300 15 ∧
    memByte (o1 2 0 0x12 3).mem 0x300 ≠ 2#8 ∧ memByte (o1 2 0 0x12 2).mem 0x300 = 2#8 ∧
    regs (out (exec (.dsize 0x300 15) (o1 2 0 0x12 2))) = [0, 0, 0, 0, 2] ∧
    regs (out (exec (.dsize 0x300 16) (o1 2 0 0x12 2))) = [2, 0, 0, 0, 0] := by decide

theorem witness_HserStoresImmediate : k.mem.wf = true ∧ ¬ Fits k 0xFF1 16 ∧ Fits k 0xFF0 16 ∧
    regs (out (exec (.hser 0xFF1 1 2) k)) = [0, 0, 0, 0, 0x00030200] ∧
    at_ (out (exec (.hser 0xFF0 1 2) k)) 0xFF0 16 = [1, 0, 0, 0, 0, 0, 0, 0, 2, 0, 0, 0, 0, 0, 0, 0] := by decide

/-- Section 3.1: `HLO = 0x63` is serialized unchecked and HPARSE of it answers version 3's error. -/
theorem witness_HparseReadsBackHser : k.mem.wf = true ∧ Fits k 0x300 16 ∧
    exec (.hser 0x300 0x63 0) k = .next (out (exec (.hser 0x300 0x63 0) k)) ∧
    regs (out (exec (.hparse 0x300 16) (out (exec (.hser 0x300 0x63 0) k)))) = [0x10, 0, 0, 0, 3] ∧
    regs (out (exec (.hparse 0x300 16) (out (exec (.hser 0x300 0x102 9) k)))) = [0x10, 0, 0x102, 9, 0] :=
  ⟨by decide, by decide, rfl, by decide, by decide⟩

theorem witness_RegisteredIsPresenceBit : Registered State.reset 1 ∧ Registered State.reset 5 ∧
    ¬ Registered State.reset 0 ∧ ¬ Registered State.reset 6 ∧
    Registered { State.reset with codecMask3 := 0x8000000000000000 } 255 ∧
    ¬ Registered { State.reset with codecMask3 := 0x8000000000000000 } 254 := by decide

/-- FOPEN's clauses at `NBytesComp` 15, 16, `LEN` and `LEN + 1`; memcpy with an unregistered codec; the last address whose
`SRC + 16` fits a register, and the one that does not. -/
theorem witness_FopenValidatesFrame :
    ¬ Fits (o1 0 1 16 2) 0xFF0 17 ∧ Fits (o1 0 1 16 2) 0x300 0x12 ∧ Fits (o1 0 1 16 2) 0x300 0x0F ∧
    memByte (o1 0 1 16 3).mem 0x300 ≠ 2#8 ∧ memByte (o1 0 1 16 2).mem 0x300 = 2#8 ∧
    numberAt (o1 0 1 15 2).mem 0x30C 4 < 16 ∧ ¬ numberAt (o1 0 1 16 2).mem 0x30C 4 < 16 ∧
    0x12 < numberAt (o1 0 1 19 2).mem 0x30C 4 ∧ ¬ 0x12 < numberAt (o1 0 1 18 2).mem 0x30C 4 ∧
    (memByte (o1 0 0 18 2).mem 0x302).toNat.testBit 1 = false ∧ ¬ Registered (o1 0 0 18 2) 0 ∧
    (memByte (o1 2 0 18 2).mem 0x302).toNat.testBit 1 = true ∧ Registered (o1 0 1 18 2) 1 ∧
    (0xFFFFFFFFFFFFFFEF : Word).toNat + 16 < 2 ^ 64 ∧ ¬ (0xFFFFFFFFFFFFFFF0 : Word).toNat + 16 < 2 ^ 64 ∧
    Fits (sized (2 ^ 64)) (0xFFFFFFFFFFFFFFF0 : Word).toNat 16 := by decide

/-- FCLOSE: `LEN` equal to `NBytesOrig` and not. -/
theorem witness_FcloseDeliversData : SrcDstClauses ∧ (8 : Word).toNat = hloOrig 0x0000000804010102 ∧
    (4 : Word).toNat ≠ hloOrig 0x0000000804010102 ∧ (hloFlags 0x0000000804030102).testBit 1 = true ∧
    hloTypeSize 0x0000000804010102 = 4 ∧
    out (exec (.fclose 0 0x100 4 0x200 0x0000000804010102 0) k)
      = { k with status := { k.status with err := .sizeMismatch } } :=
  ⟨srcDstClauses, by decide, by decide, by decide, by decide, by decide⟩

/-- The encode-side errors at their borders: `LEN` 0, `2^32 - 1` and `2^32`, codec 0 and 1. -/
theorem witness_FprePreparesData : SrcDstClauses ∧ encodeError k 0 0 .invalidData ∧
    encodeError k (2 ^ 32) 1 .dataTooLarge ∧ encodeError k (2 ^ 32 - 1) 0 .invalidCodec ∧ Registered k 1 ∧
    levelClamped 0 = 1 ∧ levelClamped 1 = 1 ∧ levelClamped 9 = 9 ∧ levelClamped 10 = 9 ∧
    levelClamped (0x80 : Byte).toInt = 1 :=
  ⟨srcDstClauses, .inl ⟨rfl, rfl⟩, .inr (.inl ⟨by decide, rfl⟩),
    .inr (.inr ⟨by decide, by decide, by decide, rfl⟩), by decide, by decide, by decide, by decide, by decide, by decide⟩

/-- FWRAP: ranges in memory by a byte and not; the destination beside and inside a source; `LEN2` one below `LEN` and equal
to it; and a frame one byte too long for u32. -/
theorem witness_FwrapAssemblesFrame :
    w.mem.wf = true ∧ (4 : BitVec 32).toNat ≤ 255 ∧
    (Fits w 0x100 12 ∧ Fits w 0x280 11 ∧ Fits w 0xFE5 (16 + 11) ∧ ¬ Fits w 0xFE6 (16 + 11)) ∧
    (Overlaps 0x100 12 0x10B 27 ∧ ¬ Overlaps 0x100 12 0x10C 27 ∧ Overlaps 0x280 11 0x28A 27 ∧ ¬ Overlaps 0x280 11 0x28B 27) ∧
    regs (out (exec (.fwrap .byteShuffle 1 4 0x100 12 0x300 0x280 11) w))
      = [0x1B, 0, 0x0000000C04010102, 0x0000001B0000000C, 0] ∧
    (let s := sized (2 ^ 34)
     (0 < 2 ^ 32 - 16 ∧ 2 ^ 32 - 16 ≤ 2 ^ 32 - 1 ∧ Registered s 1 ∧ 2 ^ 32 - 1 < 16 + (2 ^ 32 - 16)) ∧
     out (exec (.fwrap .noShuffle 1 4 0 (BitVec.ofNat 64 (2 ^ 32 - 16)) (BitVec.ofNat 64 (2 ^ 33)) (BitVec.ofNat 64 (2 ^ 32))
       (BitVec.ofNat 64 (2 ^ 32 - 16))) s) = { s with status := { s.status with err := .dataTooLarge } }) := by decide

/-- W1 and the state it leaves meet the hypotheses of WrappedFrameOpens and MemcpyCoherence; so does W2. -/
theorem witness_WrappedFrameOpens :
    let t := out (exec (.fwrap .byteShuffle 1 4 0x100 12 0x300 0x280 7) w)
    exec (.fwrap .byteShuffle 1 4 0x100 12 0x300 0x280 7) w = .next t ∧ w.mem.wf = true ∧ w.status.fault = none ∧
    t.status.fault = none ∧ t.status.err = .ok ∧ regs (out (exec (.fopen 0x300 t.res0) t))
      = [0x310, 7, 0x0000000C04010102, 0x000000170000000C, 0] :=
  ⟨rfl, by decide, by decide, by decide, by decide, by decide⟩

theorem witness_MemcpyCoherence :
    let t := out (exec (.fwrap .byteShuffle 1 4 0x100 12 0x340 0x280 12) w)
    exec (.fwrap .byteShuffle 1 4 0x100 12 0x340 0x280 12) w = .next t ∧ w.mem.wf = true ∧ w.status.fault = none ∧
    t.status.fault = none ∧ t.status.err = .ok ∧ (memByte t.mem 0x342).toNat.testBit 1 = true ∧
    (memByte (out (exec (.fwrap .byteShuffle 1 4 0x100 12 0x340 0x280 11) w)).mem 0x342).toNat.testBit 1 = false :=
  ⟨rfl, by decide, by decide, by decide, by decide, by decide, by decide⟩

/-- P3's memcpy path. -/
theorem witness_MemcpyFrameRoundTrip :
    let t := out (exec (.fwrap .byteShuffle 1 4 0x100 12 0x340 0x280 12) w)
    let u := out (exec (.fopen 0x340 t.res0) t)
    exec (.fwrap .byteShuffle 1 4 0x100 12 0x340 0x280 12) w = .next t ∧ exec (.fopen 0x340 t.res0) t = .next u ∧
    w.mem.wf = true ∧ w.params.wf = true ∧ w.status.fault = none ∧ (12 : Word).toNat ≤ (12 : Word).toNat ∧
    t.status.fault = none ∧ t.status.err = .ok ∧ Fits w 0x380 12 ∧ ¬ Overlaps (0x340 + 16) 12 0x380 12 ∧
    at_ (out (exec (.fclose 0 u.res0 u.res1 0x380 u.hdrLo u.hdrHi) u)) 0x380 12 = e12 :=
  ⟨rfl, rfl, by decide, by decide, by decide, by decide, by decide, by decide, by decide, by decide, by decide⟩

/-- P3's codec path: the codec gives back what FPRE wrote, at `0x400`. -/
theorem witness_CodecFrameRoundTrip :
    let p := out (exec (.fpre .byteShuffle 1 5 4 0x100 12 0x200) w)
    let t := out (exec (.fwrap .byteShuffle 1 4 0x100 12 0x300 0x280 7) w)
    let u := box [(0x400, [0x11, 0x11, 0x11, 0x22, 0x22, 0x22, 0x33, 0x33, 0x33, 0x44, 0x55, 0x66])]
    exec (.fpre .byteShuffle 1 5 4 0x100 12 0x200) w = .next p ∧
    exec (.fwrap .byteShuffle 1 4 0x100 12 0x300 0x280 7) w = .next t ∧
    w.mem.wf = true ∧ w.status.fault = none ∧ u.mem.wf = true ∧ p.status.fault = none ∧ p.status.err = .ok ∧
    (7 : Word).toNat < (12 : Word).toNat ∧ t.status.fault = none ∧ t.status.err = .ok ∧
    memRead u.mem 0x400 12 = memRead p.mem 0x200 12 ∧ Fits u 0x400 12 ∧ Fits u 0x380 12 ∧ ¬ Overlaps 0x400 12 0x380 12 ∧
    at_ (out (exec (.fclose 0 0x400 12 0x380 t.hdrLo t.hdrHi) u)) 0x380 12 = e12 :=
  ⟨rfl, rfl, by decide, by decide, by decide, by decide, by decide, by decide, by decide, by decide, by decide, by decide,
    by decide, by decide, by decide⟩

/-- P2 for the matching size, and P4's frame with the changed size byte for the other clause. -/
theorem witness_DecompressOfMemcpyFrame :
    let s := box [(0x400, [2, 1, 3, 4, 8, 0, 0, 0, 8, 0, 0, 0, 0x18, 0, 0, 0, 0xA0, 0xA1])]
    let q := box [(0x300, [2, 1, 2, 1, 8, 0, 0, 0, 4, 0, 0, 0, 0x14, 0, 0, 0, 9, 8, 7, 6])]
    let t := out (exec (.fopen 0x400 24) s)
    exec (Pseudo.decompressWithSize 0x400 24 0x500 0).first s = .next t ∧ s.mem.wf = true ∧ s.status.fault = none ∧
    (0x400 : Word).toNat + 16 < 2 ^ 64 ∧ t.status.fault = none ∧ t.status.err = .ok ∧
    (memByte s.mem 0x402).toNat.testBit 1 = true ∧ numberAt s.mem 0x40C 4 - 16 = numberAt s.mem 0x404 4 ∧
    Fits s 0x500 8 ∧ ¬ Overlaps 0x410 8 0x500 8 ∧
    (out (exec (.fopen 0x300 20) q)).status.err = .ok ∧ (memByte q.mem 0x302).toNat.testBit 1 = true ∧
    numberAt q.mem 0x30C 4 - 16 ≠ numberAt q.mem 0x304 4 :=
  ⟨rfl, by decide, by decide, by decide, by decide, by decide, by decide, by decide, by decide, by decide, by decide,
    by decide, by decide⟩

/-- FPRE with `LEN = 2^32` in a memory of `2^33` bytes (E6). -/
theorem witness_DataTooLargeAndMemorySize :
    let s := sized (2 ^ 33)
    let i := Instr.fpre .byteShuffle 1 5 4 0 (BitVec.ofNat 64 (2 ^ 32)) (BitVec.ofNat 64 (2 ^ 32))
    s.status.err ≠ .dataTooLarge ∧ exec i s = .next (out (exec i s)) ∧ (out (exec i s)).status.err = .dataTooLarge :=
  ⟨by decide, rfl, by decide⟩

/-- An error (O2) and a fault (K6). -/
theorem witness_NoPartialResults :
    (o1 0 0 18 2).status.fault = none ∧
    exec (.fopen 0x300 18) (o1 0 0 18 2) = .next (out (exec (.fopen 0x300 18) (o1 0 0 18 2))) ∧
    (out (exec (.fopen 0x300 18) (o1 0 0 18 2))).status.err ≠ .ok ∧ k.status.fault = none ∧
    exec (.shuf 4 0x100 8 0x104) k = .next faulted ∧ faulted.status.fault.isSome = true :=
  ⟨by decide, rfl, by decide, by decide, rfl, by decide⟩

/-- A reserved encoding; a range violation that is an overlap too; an overlap in memory. -/
theorem witness_FaultTestsComeFirst :
    (Instr.fwrap .byteShuffle 1 256 0 0 0 0 0).wf = false ∧
    ((Instr.shuf 4 0xFFC 8 0xFFC).wf = true ∧ RangeViolation (.shuf 4 0xFFC 8 0xFFC) k ∧
      OverlapViolation (.shuf 4 0xFFC 8 0xFFC)) ∧
    ((Instr.shuf 4 0x100 8 0x104).wf = true ∧ ¬ RangeViolation (.shuf 4 0x100 8 0x104) k ∧
      OverlapViolation (.shuf 4 0x100 8 0x104)) :=
  ⟨by decide,
    ⟨by decide, ⟨(0xFFC, 8), by decide, by decide⟩, rfl, (0xFFC, 8), by decide, (0xFFC, 8), by decide, by decide⟩,
    by decide, by unfold RangeViolation; decide, rfl, (0x100, 8), by decide, (0x104, 8), by decide, by decide⟩

theorem witness_DataNeverFaults : Clear (.shuf 4 0x100 8 0x108) k ∧ Clear (.shufip .byteShuffle 4 0xFF8 8) k ∧
    Clear (.fopen 0x300 0x0F) (o1 2 0 18 2) := by
  unfold Clear RangeViolation OverlapViolation
  decide

theorem witness_CommandsWriteOnlyTheirRow : k.mem.wf = true ∧
    exec (.shuf 4 0x100 10 0x200) k = .next (out (exec (.shuf 4 0x100 10 0x200) k)) := ⟨by decide, rfl⟩

/-- Two states that differ in every result register, in the registry and in memory outside the source. -/
theorem witness_CommandsAreFunctionsOfTheirInputs :
    let s' : State := { k with
      mem := memSet k.mem 0x500 7, res0 := 1, res1 := 2, hdrLo := 3, hdrHi := 4, simd := true, codecMask0 := 0 }
    k.mem.wf = true ∧ s'.mem.wf = true ∧ AgreeFor (.hparse 0x100 16) k s' ∧ k.status.fault = none ∧
    s'.status.fault = none ∧ exec (.hparse 0x100 16) k = .next (out (exec (.hparse 0x100 16) k)) ∧
    exec (.hparse 0x100 16) s' = .next (out (exec (.hparse 0x100 16) s')) := by
  refine ⟨by decide, by decide, ⟨rfl, (nomatch ·), ?_⟩, by decide, by decide, rfl, rfl⟩
  intro r hr a h1 h2
  have hr : r = (0x100, 16) := by simpa [readRanges] using hr
  subst hr
  simp only at h1 h2
  interval_cases a <;> decide

theorem witness_SimdFlagIsInvisible :
    exec (.shuf 4 0x100 10 0x200) k = .next (out (exec (.shuf 4 0x100 10 0x200) k)) := rfl

theorem witness_ResetMeetsInvariant : Params.initial.wf = true ∧ (sized 1).params.wf = true ∧
    (sized (2 ^ 64)).params.wf = true ∧ (sized 0).params.wf = false ∧ (sized (2 ^ 64 + 1)).params.wf = false ∧
    k.mem.wf = true ∧ k.mem.inside 0x1000 = true ∧ k.mem.inside 0x109 = false := by decide

/-- A state that runs a command, and a faulted one. -/
theorem witness_StepKeepsInvariant : five.Inv ∧ step five = .next (out (step five)) ∧
    (let f := { faulted with lock := true, host := [HostAction.writeReg 0 5] }
     f.Inv ∧ step f = .next (out (step f))) :=
  ⟨⟨by decide, by decide, by decide, by decide, by decide, by decide, by decide, by decide⟩, rfl,
    ⟨by decide, by decide, by decide, by decide, by decide, by decide, by decide, by decide⟩, rfl⟩

theorem witness_StepRunsDecodedCommand : five.Ready ∧ five.asm = .five h1.w0 h1.w1 h1.w2 h1.w3 h1.w4 ∧
    five.host = .writeReg 0 h1.w5 :: [] ∧ decode h1 = .ok (.hser 0x300 0x0000010001000102 0x0000011000000100) ∧
    decode ⟨0, 0, 0, 0, 0, 0⟩ = .error .opcode ∧ State.reset.Ready ∧
    decodeTableWord 384 (desc 0x10 0x300 0x10 0 0 0) = some (.hparse 0x300 16) ∧
    regs (out (step five)) = [0x10, 0, 0, 0, 0] ∧ at_ (out (step five)) 0x300 4 = [2, 1, 0, 1] ∧
    regs (out (step (State.reset.withFetchWord 384 (desc 0x13 0 0 0 0x10000 0)))) = [1, 0, 0, 0, 0] :=
  ⟨⟨rfl, rfl⟩, rfl, rfl, rfl, rfl, ⟨rfl, rfl⟩, by decide, by decide, by decide, by decide⟩

theorem witness_SixPushesIssueOneCommand :
    let s : State := { State.reset with host := [.writeReg 0 h1.w0, .writeReg 0 h1.w1, .writeReg 0 h1.w2,
      .writeReg 0 h1.w3, .writeReg 0 h1.w4, .writeReg 0 h1.w5] ++ [HostAction.readReg 0x10] }
    s.Ready ∧ s.asm = .empty ∧ decode h1 = .ok (.hser 0x300 0x0000010001000102 0x0000011000000100) :=
  ⟨⟨rfl, rfl⟩, rfl, rfl⟩

/-- No word pushed yet, and four. -/
theorem witness_PartialDescriptorHasNoEffect :
    (let s : State := { State.reset with host := [.writeReg 0 9] }
     s.Ready ∧ s.host = .writeReg 0 9 :: [] ∧ ∀ w0 w1 w2 w3 w4, s.asm ≠ .five w0 w1 w2 w3 w4) ∧
    (let s : State := { State.reset with asm := .four 1 2 3 4, host := [.writeReg 0 9] }
     s.Ready ∧ ∀ w0 w1 w2 w3 w4, s.asm ≠ .five w0 w1 w2 w3 w4) :=
  ⟨⟨⟨rfl, rfl⟩, rfl, fun _ _ _ _ _ => by simp [State.reset, State.afterReset]⟩, ⟨rfl, rfl⟩, fun _ _ _ _ _ => by simp⟩

theorem witness_FaultIsStickyUntilReset :
    (let s : State := { faulted with host := [.writeReg 0 9] }
     s.status.fault.isSome = true ∧ s.host = .writeReg 0 9 :: [] ∧ step s = .next (out (step s)) ∧
       ∀ rest, s.host ≠ .reset :: rest) ∧
    ({ State.reset with status := { err := .ok, busy := true, fault := none } } : State).status.busy = true :=
  ⟨⟨by decide, rfl, rfl, fun _ => by simp⟩, rfl⟩

theorem witness_LockFreezesRegistry :
    let s : State := { State.reset with lock := true, host := [.writeReg 0x40 0] }
    s.lock = true ∧ step s = .next (out (step s)) ∧ (∀ rest, s.host ≠ .reset :: rest) ∧
    (out (step s)).codecMask0 = 0x3E := ⟨rfl, rfl, fun _ => by simp, by decide⟩

/-- Ignored writes at both ends, and a value whose bit 0 is 1 but not the whole word. -/
theorem witness_HostRegisterWrites : (0x08 % 8 = 0 ∧ 0x08 ∉ [0x00, 0x30, 0x40, 0x48, 0x50, 0x58]) ∧
    (0x60 % 8 = 0 ∧ 0x60 ∉ [0x00, 0x30, 0x40, 0x48, 0x50, 0x58]) ∧ (0x38 ∉ [0x00, 0x30, 0x40, 0x48, 0x50, 0x58]) ∧
    (writeRegister 0x30 3 State.reset).lock = true ∧ (writeRegister 0x30 2 State.reset).lock = false := by decide

theorem witness_HostRegisterReads : 0x58 % 8 = 0 ∧ (0x60 : Nat) ≤ 0x60 ∧
    (readRegister 0x08 faulted).toNat = 0x00040200 ∧ (out (hostAct (.readReg 0x40) State.reset)).hostIn = 0x3E := by decide

/-- Busy; the last byte of memory and one past it. -/
theorem witness_HostBufferAccess : k.mem.wf = true ∧
    ({ k with status := { err := .ok, busy := true, fault := none } } : State).status.busy = true ∧
    k.status.busy = false ∧ Fits k 0xFFF (bs [1]).length ∧ ¬ Fits k 0x1000 (bs [1]).length ∧
    (out (hostAct (.readBuf 0x101) k)).hostIn = 0x11 := by decide

end Sys2Proof.Tests
end

section
/-! SUPPORT. What a command's effect is made of: the transforms keep the length (R107), so an effect fills exactly the
command's row of R25 and its destination range of R48. -/

namespace Sys2Proof.Machine

open Spec

@[simp] theorem length_byteShuffle (s : List Byte) (t : Nat) : (byteShuffle s t).length = s.length := by
  unfold byteShuffle
  split
  · rfl
  · exact length_rebuild ..

@[simp] theorem length_byteUnshuffle (s : List Byte) (t : Nat) : (byteUnshuffle s t).length = s.length := by
  unfold byteUnshuffle
  split
  · rfl
  · exact length_rebuild ..

@[simp] theorem length_bitShuffle (s : List Byte) (t : Nat) : (bitShuffle s t).length = s.length := by
  unfold bitShuffle
  split
  · rfl
  · exact length_rebuild ..

@[simp] theorem length_bitUnshuffle (s : List Byte) (t : Nat) : (bitUnshuffle s t).length = s.length := by
  unfold bitUnshuffle
  split
  · rfl
  · exact length_rebuild ..

@[simp] theorem length_forward (mode : Mode) (s : List Byte) (t : Nat) : (forward mode s t).length = s.length := by
  cases mode <;> simp [forward]

@[simp] theorem length_inverse (mode : Mode) (s : List Byte) (t : Nat) : (inverse mode s t).length = s.length := by
  cases mode <;> simp [inverse]

@[simp] theorem length_postDecode (h : Header) (d : List Byte) (tsovr : BitVec 32) :
    (postDecode h d tsovr).length = d.length := by
  unfold postDecode
  split
  · rfl
  · split
    · exact length_inverse ..
    · rfl

@[simp] theorem length_wrapPayload (src len src2 len2 : Word) (m : Memory) :
    (wrapPayload src len src2 len2 m).length = payloadLength len len2 := by
  unfold wrapPayload payloadLength
  split <;> exact length_memRead ..

/-- An effect writes the registers of the command's row of R25, and its bytes are exactly the destination range of R48. -/
structure Effect.FillsRow (e : Effect) (i : Instr) : Prop where
  res0 : e.res0.isSome = writesRes0 i
  res1 : e.res1.isSome = writesRes1 i
  hdr : e.hdr.isSome = writesHdr i
  range : e.bytes.map (fun x => (x.1, x.2.length)) = writeRange i

/-- An effect that stores as many bytes as the destination holds and sets `RES0` fills the row of a command that has just
these two entries. -/
theorem Effect.fillsRow_store {i : Instr} {a : Nat} {bs : List Byte} (v : Word)
    (hrange : writeRange i = some (a, bs.length)) (h0 : writesRes0 i = true) (h1 : writesRes1 i = false)
    (hh : writesHdr i = false) : (Effect.store a bs v).FillsRow i :=
  ⟨h0.symm, h1.symm, hh.symm, hrange.symm⟩

/-- Every effect fills its command's row. -/
theorem Effect.fillsRow_of {i : Instr} {s : State} {e : Effect} (h : Effect.of s i = .ok e) : e.FillsRow i := by
  cases i
  case hparse src len | dsize src len =>
    simp only [Effect.of] at h
    split at h
    · cases h
    · cases h; exact ⟨rfl, rfl, rfl, rfl⟩
  case fopen src len =>
    simp only [Effect.of] at h
    split at h
    · cases h
    · split at h
      · cases h
      · split at h
        · cases h
        · cases h; exact ⟨rfl, rfl, rfl, rfl⟩
  case fclose ts src len dst hlo hhi =>
    simp only [Effect.of] at h
    split at h
    · cases h
    · cases h; exact fillsRow_store _ (by simp [writeRange, length_memRead]) rfl rfl rfl
  case fpre mode codec level ts src len dst =>
    simp only [Effect.of] at h
    split at h
    · cases h
    · cases h; exact ⟨rfl, rfl, rfl, by simp [writeRange, length_memRead]⟩
  case fwrap mode codec ts src len dst src2 len2 =>
    simp only [Effect.of] at h
    split at h
    · cases h
    · split at h
      · cases h
      · cases h; exact ⟨rfl, rfl, rfl, by simp [writeRange, payloadLength_eq]⟩
  case hmode | hhassh | hhasbs | hismc => cases h; exact ⟨rfl, rfl, rfl, rfl⟩
  case hser => cases h; exact fillsRow_store _ (by simp [writeRange, serialize]) rfl rfl rfl
  all_goals cases h; exact fillsRow_store _ (by simp [writeRange, length_memRead]) rfl rfl rfl

/-! ## The errors -/

/-- A header read fails with one of the two errors of R135. -/
theorem headerAt_error {m : Memory} {src len : Word} {k : ErrKind} (h : headerAt m src len = .error k) :
    k ∈ [ErrKind.invalidHeader, .invalidVersion] := by
  rcases headerAt_cases m src len with ⟨-, he⟩ | ⟨-, -, he⟩ | ⟨-, -, he⟩ <;> cases he.symm.trans h <;> decide

/-- The encode-side checks fail with one of the three errors of R167. -/
theorem encodeChecks_error {s : State} {len : Word} {codec : Byte} {k : ErrKind}
    (h : encodeChecks s len codec = .error k) : k ∈ [ErrKind.invalidData, .dataTooLarge, .invalidCodec] := by
  rcases encodeChecks_cases s len codec with ⟨-, he⟩ | ⟨-, he⟩ | ⟨-, -, -, he⟩ | ⟨-, -, -, he⟩ <;>
    cases he.symm.trans h <;> decide

/-- A command returns one of the errors R201 lists for it. -/
theorem Effect.mem_raises_of_error {i : Instr} {s : State} {k : ErrKind} (h : Effect.of s i = .error k) :
    k ∈ raises i := by
  cases i
  case hparse | dsize =>
    simp only [Effect.of] at h
    split at h
    · cases h; exact headerAt_error ‹_›
    · cases h
  case fopen =>
    simp only [Effect.of] at h
    split at h
    · cases h; exact List.mem_append_left [.invalidData, .invalidCodec] (headerAt_error ‹_›)
    · split at h
      · cases h; simp [raises]
      · split at h
        · cases h; simp [raises]
        · cases h
  case fclose =>
    simp only [Effect.of] at h
    split at h
    · cases h; exact List.mem_singleton_self _
    · cases h
  case fpre =>
    simp only [Effect.of] at h
    split at h
    · cases h; exact encodeChecks_error ‹_›
    · cases h
  case fwrap =>
    simp only [Effect.of] at h
    split at h
    · cases h; exact encodeChecks_error ‹_›
    · split at h
      · cases h; simp [raises]
      · cases h
  all_goals cases h

/-- No command lists `ERR = 0` among its errors (R201). -/
theorem ok_notMem_raises (i : Instr) : ErrKind.ok ∉ raises i := by
  cases i <;> simp [raises]

end Sys2Proof.Machine
end

section
/-! SUPPORT. A command is a function of its inputs (R1): the source bytes and the registry enter through `memRead`, `headerAt`
and `registered` only, so states that agree on them give one error or one effect, and one effect writes the same values
whatever the state before it held. -/

namespace Sys2Proof.Machine

open Spec

/-! ## The inputs -/

/-- Memories that agree on a range read alike on every prefix of it. -/
theorem memRead_congr_prefix {m m' : Memory} {a n k : Nat} (h : ∀ x, a ≤ x → x < a + n → memByte m x = memByte m' x)
    (hk : k ≤ n) : memRead m a k = memRead m' a k :=
  memRead_congr fun j hj => h (a + j) (by omega) (by omega)

/-- The header read looks at the source range only (R48). -/
theorem headerAt_congr {m m' : Memory} {src len : Word}
    (h : ∀ x, src.toNat ≤ x → x < src.toNat + len.toNat → memByte m x = memByte m' x) :
    headerAt m src len = headerAt m' src len := by
  simp only [headerAt, memRead_congr_prefix h (Nat.min_le_left len.toNat 16)]

/-- Registration is looked up in the registry only (R161). -/
theorem registered_congr {s s' : State} (h : s.codecMask0 = s'.codecMask0 ∧ s.codecMask1 = s'.codecMask1 ∧
    s.codecMask2 = s'.codecMask2 ∧ s.codecMask3 = s'.codecMask3) : registered s = registered s' := by
  obtain ⟨h0, h1, h2, h3⟩ := h
  funext id
  simp only [registered, State.codecMask, h0, h1, h2, h3]

/-- The encode-side checks look at the registry only (R167). -/
theorem encodeChecks_congr {s s' : State} (h : registered s = registered s') : encodeChecks s = encodeChecks s' := by
  funext len codec
  simp only [encodeChecks, h]

/-- States that agree on a command's inputs give it the same error or the same effect. -/
theorem Effect.of_congr {i : Instr} {s s' : State} (h : AgreeFor i s s') : Effect.of s i = Effect.of s' i := by
  obtain ⟨-, hreg, hbytes⟩ := h
  have hread {a n : Nat} (hr : (a, n) ∈ readRanges i) : memRead s.mem a n = memRead s'.mem a n :=
    memRead_congr_prefix (hbytes _ hr) (Nat.le_refl _)
  cases i
  case hparse src len | dsize src len =>
    simp only [Effect.of, headerAt_congr (src := src) (len := len) (hbytes _ (List.mem_singleton_self _))]
  case fopen src len =>
    simp only [Effect.of, headerAt_congr (src := src) (len := len) (hbytes _ (List.mem_singleton_self _)),
      registered_congr (hreg rfl)]
  case fpre =>
    simp only [Effect.of, encodeChecks_congr (registered_congr (hreg rfl)), hread (List.mem_singleton_self _)]
  case fwrap =>
    simp only [Effect.of, wrapPayload, encodeChecks_congr (registered_congr (hreg rfl)), hread List.mem_cons_self,
      hread (List.mem_cons_of_mem _ (List.mem_singleton_self _))]
  case hser | hmode | hhassh | hhasbs | hismc => rfl
  all_goals simp only [Effect.of, hread (List.mem_singleton_self _)]

/-! ## The two ends -/

/-- A stored byte is the effect's, whatever memory held before. -/
theorem Effect.memByte_mem_congr {e : Effect} {a : Nat} {bs : List Byte} (he : e.bytes = some (a, bs)) {m m' : Memory}
    (hm : m.wf = true) (hm' : m'.wf = true) {x : Nat} (hx : a ≤ x ∧ x < a + bs.length) :
    memByte (e.mem m) x = memByte (e.mem m') x := by
  simp only [Effect.mem, he, memByte_memWrite _ _ _ hm, memByte_memWrite _ _ _ hm', if_pos hx]

/-- A command from two states that agree on its inputs takes one fault, returns one error, or has one effect. -/
theorem exec_ends_alike {i : Instr} {s s' t t' : State} (h : AgreeFor i s s') (ht : exec i s = .next t)
    (ht' : exec i s' = .next t') :
    (∃ c, t = s.takeFault c ∧ t' = s'.takeFault c) ∨
    (∃ k, Effect.of s i = .error k ∧ t = s.returnError k ∧ t' = s'.returnError k) ∨
    ∃ e, Effect.of s i = .ok e ∧ t = (e.apply s).succeed ∧ t' = (e.apply s').succeed := by
  rw [exec_eq] at ht ht'
  rw [← h.1, ← Effect.of_congr h] at ht'
  by_cases hwf : i.wf = true
  · rw [if_pos hwf] at ht ht'
    generalize rangeFault s.params.memSize (commandRanges i) = fault at ht ht'
    generalize Effect.of s i = result at ht ht' ⊢
    rcases fault with _ | c
    · rcases result with k | e
      · cases ht; cases ht'; exact .inr (.inl ⟨k, rfl, rfl, rfl⟩)
      · cases ht; cases ht'; exact .inr (.inr ⟨e, rfl, rfl, rfl⟩)
    · cases ht; cases ht'; exact .inl ⟨c, rfl, rfl⟩
  · rw [if_neg hwf] at ht ht'
    cases ht; cases ht'; exact .inl ⟨.reserved, rfl, rfl⟩

/-- One effect on two states leaves the same values in every register and byte of the command's row. -/
theorem Effect.FillsRow.apply_alike {e : Effect} {i : Instr} (h : e.FillsRow i) {s s' : State} (hm : s.mem.wf = true)
    (hm' : s'.mem.wf = true) :
    (writesRes0 i = true → (e.apply s).res0 = (e.apply s').res0) ∧
    (writesRes1 i = true → (e.apply s).res1 = (e.apply s').res1) ∧
    (writesHdr i = true → (e.apply s).hdrLo = (e.apply s').hdrLo ∧ (e.apply s).hdrHi = (e.apply s').hdrHi) ∧
    ∀ w ∈ (writeRange i).toList, ∀ a, w.1 ≤ a → a < w.1 + w.2 →
      memByte (e.apply s).mem a = memByte (e.apply s').mem a := by
  refine ⟨fun hw => ?_, fun hw => ?_, fun hw => ?_, fun w hw a hle hlt => ?_⟩
  · obtain ⟨v, hv⟩ := Option.isSome_iff_exists.1 (h.res0.trans hw)
    simp only [Effect.apply, hv, Option.getD_some]
  · obtain ⟨v, hv⟩ := Option.isSome_iff_exists.1 (h.res1.trans hw)
    simp only [Effect.apply, hv, Option.getD_some]
  · obtain ⟨v, hv⟩ := Option.isSome_iff_exists.1 (h.hdr.trans hw)
    simp only [Effect.apply, hv, Option.map_some, Option.getD_some, and_self]
  · rw [Option.mem_toList, ← h.range] at hw
    obtain ⟨⟨b, bs⟩, he, rfl⟩ := Option.map_eq_some_iff.1 hw
    exact Effect.memByte_mem_congr he hm hm' ⟨hle, hlt⟩

end Sys2Proof.Machine

open Sys2Proof.Machine

/-- Settles O41: a command with agreeing inputs has one fault, one error or one effect, and an effect fills its command's
row. -/
theorem commandsAreFunctionsOfTheirInputs : Obligations.CommandsAreFunctionsOfTheirInputs := by
  intro i s s' t t' hm hm' hagree hf hf' ht ht'
  rcases exec_ends_alike hagree ht ht' with ⟨c, rfl, rfl⟩ | ⟨k, he, rfl, rfl⟩ | ⟨e, he, rfl, rfl⟩
  · simp only [State.takeFault_status, reduceCtorEq, false_implies, and_self]
  · have hk : k ≠ .ok := fun hok => ok_notMem_raises i (hok ▸ Effect.mem_raises_of_error he)
    exact ⟨hf.trans hf'.symm, fun _ => rfl, fun _ hok => absurd hok hk⟩
  · exact ⟨hf.trans hf'.symm, fun _ => rfl, fun _ _ => (Effect.fillsRow_of he).apply_alike hm hm'⟩
end

section
/-! SUPPORT. How a command ends, said once: a fault, one of its row's errors, or an effect that fills its row inside memory;
and the frame of each end (R25, R210, R215). -/

namespace Sys2Proof.Machine

open Spec

/-! ## The ends of a command -/

/-- Every range a command names lies in memory once the range tests pass (R46). -/
theorem fits_of_rangeFault_eq_none {n : Nat} {r : Ranges} (h : rangeFault n r = none) {x : Nat × Nat}
    (hx : x ∈ r.srcs ++ r.dst.toList) : x.1 + x.2 ≤ n := by
  unfold rangeFault at h
  split at h
  · rename_i hall
    exact inRange_iff.1 (List.all_eq_true.1 hall x hx)
  · cases h

/-- The destination range of R48 is among the ranges the fault tests look at. -/
theorem writeRange_mem_commandRanges {i : Instr} {w : Nat × Nat} (hw : w ∈ writeRange i) :
    w ∈ (commandRanges i).srcs ++ (commandRanges i).dst.toList := by
  cases i
  case hparse | dsize | fopen | hmode | hhassh | hhasbs | hismc => cases hw
  case fwrap =>
    cases hw
    simp [commandRanges, rangesWrap, payloadLength_eq]
  all_goals
    cases hw
    simp [commandRanges, rangesSrcDst, rangesSrc, rangesHeaderOut]

/-- A command takes a fault, returns one of its errors, or has an effect that fills its row, inside memory. -/
theorem exec_cases {i : Instr} {s t : State} (h : exec i s = .next t) :
    (∃ c, t = s.takeFault c) ∨ (∃ k, k ∈ raises i ∧ t = s.returnError k) ∨
    ∃ e : Effect, e.FillsRow i ∧ (∀ w ∈ writeRange i, Fits s w.1 w.2) ∧ t = (e.apply s).succeed := by
  rw [exec_eq] at h
  split at h
  · split at h
    · cases h; exact .inl ⟨_, rfl⟩
    · rename_i hclear
      split at h
      · cases h; exact .inr (.inl ⟨_, Effect.mem_raises_of_error ‹_›, rfl⟩)
      · cases h
        exact .inr (.inr ⟨_, Effect.fillsRow_of ‹_›,
          fun w hw => fits_of_rangeFault_eq_none hclear (writeRange_mem_commandRanges hw), rfl⟩)
  · cases h; exact .inl ⟨_, rfl⟩

/-! ## Memory after an effect -/

/-- An effect keeps the canonical form of memory. -/
theorem Effect.wf_mem (e : Effect) {m : Memory} (h : m.wf = true) : (e.mem m).wf = true := by
  unfold Effect.mem
  split
  · exact h
  · exact wf_memWrite _ _ h

/-- An effect that fills its row stays inside memory when the row's range does. -/
theorem Effect.FillsRow.inside_mem {e : Effect} {i : Instr} (he : e.FillsRow i) {m : Memory} {n : Nat}
    (h : m.inside n = true) (hfits : ∀ w ∈ writeRange i, w.1 + w.2 ≤ n) : (e.mem m).inside n = true := by
  unfold Effect.mem
  split
  · exact h
  · rename_i x hx
    exact inside_memWrite _ _ h (hfits (x.1, x.2.length) (by simp [← he.range, hx]))

/-- Outside the destination range of the row every byte is as before the effect (R25, R48). -/
theorem Effect.FillsRow.memByte_mem_frame {e : Effect} {i : Instr} (he : e.FillsRow i) {m : Memory}
    (h : m.wf = true) {a : Nat} (ha : ∀ w ∈ writeRange i, ¬ (w.1 ≤ a ∧ a < w.1 + w.2)) :
    memByte (e.mem m) a = memByte m a := by
  unfold Effect.mem
  split
  · rfl
  · rename_i x hx
    rw [memByte_memWrite _ _ _ h, if_neg (ha (x.1, x.2.length) (by simp [← he.range, hx]))]

/-! ## What every command leaves unchanged -/

/-- A result register without an entry in the row keeps its value. -/
theorem Effect.FillsRow.registers_frame {e : Effect} {i : Instr} (he : e.FillsRow i) (s : State) :
    (writesRes0 i = false → (e.apply s).res0 = s.res0) ∧ (writesRes1 i = false → (e.apply s).res1 = s.res1) ∧
    (writesHdr i = false → (e.apply s).hdrLo = s.hdrLo ∧ (e.apply s).hdrHi = s.hdrHi) := by
  rw [← he.res0, ← he.res1, ← he.hdr]
  simp +contextual [Effect.apply]

/-- What no command touches: the parameters, the lock, `CAP`, the registry, the assembly buffer and the host's side (R25). -/
structure State.SameConfiguration (s t : State) : Prop where
  params : t.params = s.params
  lock : t.lock = s.lock
  simd : t.simd = s.simd
  codecMask0 : t.codecMask0 = s.codecMask0
  codecMask1 : t.codecMask1 = s.codecMask1
  codecMask2 : t.codecMask2 = s.codecMask2
  codecMask3 : t.codecMask3 = s.codecMask3
  asm : t.asm = s.asm
  host : t.host = s.host
  hostIn : t.hostIn = s.hostIn

/-- Every command keeps the configuration. -/
theorem exec_keeps_configuration {i : Instr} {s t : State} (h : exec i s = .next t) : s.SameConfiguration t := by
  rcases exec_cases h with ⟨c, rfl⟩ | ⟨k, -, rfl⟩ | ⟨e, -, -, rfl⟩ <;>
    exact ⟨rfl, rfl, rfl, rfl, rfl, rfl, rfl, rfl, rfl, rfl⟩

/-- Every command writes the result registers and the bytes of its row only (R25, R48). -/
theorem exec_frame {i : Instr} {s t : State} (hm : s.mem.wf = true) (h : exec i s = .next t) :
    (writesRes0 i = false → t.res0 = s.res0) ∧ (writesRes1 i = false → t.res1 = s.res1) ∧
    (writesHdr i = false → t.hdrLo = s.hdrLo ∧ t.hdrHi = s.hdrHi) ∧
    ∀ a, (∀ w ∈ writeRange i, ¬ (w.1 ≤ a ∧ a < w.1 + w.2)) → memByte t.mem a = memByte s.mem a := by
  rcases exec_cases h with ⟨c, rfl⟩ | ⟨k, -, rfl⟩ | ⟨e, he, -, rfl⟩
  · exact ⟨fun _ => rfl, fun _ => rfl, fun _ => ⟨rfl, rfl⟩, fun _ _ => rfl⟩
  · exact ⟨fun _ => rfl, fun _ => rfl, fun _ => ⟨rfl, rfl⟩, fun _ _ => rfl⟩
  · obtain ⟨h0, h1, hh⟩ := he.registers_frame s
    exact ⟨h0, h1, hh, fun a ha => he.memByte_mem_frame hm ha⟩

end Sys2Proof.Machine
end

section
/-! SUPPORT. The invariant of R10 over the parts of a step: reset, a store, the assembly buffer, the acceptance of a
descriptor and the command it starts, which runs with `BUSY = 1` and so outside the invariant. -/

namespace Sys2Proof.Machine

open Spec

/-- No command raises an error of the host's codec step (R207, R208). -/
theorem codecStepError_notMem_raises (i : Instr) :
    ErrKind.compressionFailed ∉ raises i ∧ ErrKind.decompressionFailed ∉ raises i := by
  cases i <;> simp [raises]

/-! ## Between two commands -/

/-- Reset over legal parameters and a canonical memory inside `MEM_SIZE` meets the invariant (R23). -/
theorem State.inv_afterReset {p : Params} {m : Memory} (host : List HostAction) (hostIn : Word) (hp : p.wf = true)
    (hm : m.wf = true) (hin : m.inside p.memSize = true) : (State.afterReset p m host hostIn).Inv :=
  ⟨hp, hm, hin, rfl, rfl, by simp [State.afterReset], by simp [State.afterReset], by simp [State.afterReset]⟩

/-- A reset step keeps the invariant. -/
theorem State.Inv.resetRegisters {s : State} (h : s.Inv) : s.resetRegisters.Inv := by
  obtain ⟨hp, hm, hin, -⟩ := h
  exact State.inv_afterReset s.host s.hostIn hp hm hin

/-- A store inside memory keeps the invariant. -/
theorem State.Inv.store {s : State} (h : s.Inv) {a : Nat} {bs : List Byte} (hfits : a + bs.length ≤ s.params.memSize) :
    (s.store a bs).Inv := by
  obtain ⟨hp, hm, hin, hrest⟩ := h
  exact ⟨hp, wf_memWrite a bs hm, inside_memWrite a bs hin hfits, hrest⟩

/-- The assembly buffer of an engine without a fault may hold any words. -/
theorem State.Inv.setAsm {s : State} (h : s.Inv) (hf : s.status.fault = none) (a : AsmBuffer) :
    ({ s with asm := a } : State).Inv := by
  obtain ⟨hp, hm, hin, hb, hs, hc, hd, -⟩ := h
  exact ⟨hp, hm, hin, hb, hs, hc, hd, by simp [hf]⟩

/-- A register write keeps the invariant. -/
theorem State.Inv.writeRegister {s : State} (h : s.Inv) (offset : Nat) (v : Word) :
    (writeRegister offset v s).Inv := by
  obtain ⟨hp, hm, hin, hb, hs, hc, hd, hf⟩ := h
  obtain ⟨ep, em, -, -, -, -, est, esi, easm, hlock⟩ := writeRegister_keeps offset v s
  rw [State.Inv, ep, em, est, esi, easm]
  exact ⟨hp, hm, hin, hb, hs, hc, hd, fun hfault => ⟨(hf hfault).1, hlock (hf hfault).2⟩⟩

/-! ## During a command -/

/-- What holds of the state a command runs on, `BUSY` aside: the invariant, with the assembly buffer emptied and the lock
set by the push that completed the descriptor (R18). -/
structure State.Accepted (s : State) : Prop where
  legal : s.params.wf = true
  canonical : s.mem.wf = true
  inside : s.mem.inside s.params.memSize = true
  simd : s.simd = s.params.simdCap
  err : s.status.err ≠ .compressionFailed ∧ s.status.err ≠ .decompressionFailed
  asm : s.asm = .empty
  lock : s.lock = true

/-- The acceptance of a descriptor sets `BUSY`: it leaves the invariant for `Accepted` (R18). -/
theorem State.Inv.accept {s : State} (h : s.Inv) : s.accept.Accepted := by
  obtain ⟨hp, hm, hin, -, hs, hc, hd, -⟩ := h
  exact ⟨hp, hm, hin, hs, ⟨hc, hd⟩, rfl, rfl⟩

/-- The fault entry clears `BUSY` and so returns to the invariant (R215). -/
theorem State.Accepted.takeFault {s : State} (h : s.Accepted) (c : FaultCode) : (s.takeFault c).Inv :=
  ⟨h.legal, h.canonical, h.inside, rfl, h.simd, h.err.1, h.err.2, fun _ => ⟨h.asm, h.lock⟩⟩

/-- The error entry clears `BUSY`, and the error it writes is one a command can raise (R210). -/
theorem State.Accepted.returnError {s : State} (h : s.Accepted) {i : Instr} {k : ErrKind} (hk : k ∈ raises i) :
    (s.returnError k).Inv := by
  obtain ⟨hc, hd⟩ := codecStepError_notMem_raises i
  exact ⟨h.legal, h.canonical, h.inside, rfl, h.simd, fun e => hc (e ▸ hk), fun e => hd (e ▸ hk),
    fun _ => ⟨h.asm, h.lock⟩⟩

/-- Success clears `BUSY` and writes `ERR = 0` (R200). -/
theorem State.Accepted.succeed {s : State} (h : s.Accepted) : s.succeed.Inv :=
  ⟨h.legal, h.canonical, h.inside, rfl, h.simd, by simp, by simp, fun _ => ⟨h.asm, h.lock⟩⟩

/-- An effect inside memory leaves the engine as a command runs on it. -/
theorem State.Accepted.apply {s : State} (h : s.Accepted) {e : Effect} {i : Instr} (he : e.FillsRow i)
    (hfits : ∀ w ∈ writeRange i, Fits s w.1 w.2) : (e.apply s).Accepted :=
  ⟨h.legal, e.wf_mem h.canonical, he.inside_mem h.inside hfits, h.simd, h.err, h.asm, h.lock⟩

/-- A command on an accepted descriptor ends in the invariant. -/
theorem State.Accepted.exec {s t : State} (h : s.Accepted) {i : Instr} (hi : exec i s = .next t) : t.Inv := by
  rcases exec_cases hi with ⟨c, rfl⟩ | ⟨k, hk, rfl⟩ | ⟨e, he, hfits, rfl⟩
  · exact h.takeFault c
  · exact h.returnError hk
  · exact (h.apply he hfits).succeed

/-! ## The host's actions -/

/-- An issued descriptor, malformed or not, ends in the invariant. -/
theorem State.Accepted.issue {s t : State} (h : s.Accepted) {d : Descriptor} (hi : issue d s = .next t) : t.Inv := by
  rcases issue_cases hi with ⟨i, -, hi⟩ | ⟨c, -, rfl⟩
  · exact h.exec hi
  · exact h.takeFault c

/-- A push keeps the invariant. -/
theorem State.Inv.push {s t : State} (h : s.Inv) {w : Word} (hp : push w s = .next t) : t.Inv := by
  rcases push_cases hp with ⟨-, rfl⟩ | ⟨hf, -, ⟨a, -, rfl⟩ | ⟨_, _, _, _, _, -, hi⟩⟩
  · exact h
  · exact h.setAsm hf a
  · exact h.accept.issue hi

/-- Every host action keeps the invariant. -/
theorem State.Inv.hostAct {s t : State} (h : s.Inv) {a : HostAction} (ha : hostAct a s = .next t) : t.Inv := by
  rcases hostAct_cases ha with ⟨w, -, hp⟩ | ⟨offset, v, -, -, rfl⟩ | ⟨offset, -, rfl⟩ |
    ⟨addr, bytes, -, -, hfits, rfl⟩ | ⟨addr, -, -, -, rfl⟩ | ⟨-, rfl⟩
  · exact h.push hp
  · exact h.writeRegister offset v
  · exact h
  · exact h.store hfits
  · exact h
  · exact h.resetRegisters

end Sys2Proof.Machine
end

section
/-! SUPPORT. The descriptor port from the side of the host's list (R18, R75): what one pending push does, by the number of
words pushed before it. -/

namespace Sys2Proof.Machine

/-- The assembly buffer with one more word; none when the word completes the descriptor (R18). -/
def AsmBuffer.extend : AsmBuffer → Word → Option AsmBuffer
  | .empty, w => some (.one w)
  | .one w0, w => some (.two w0 w)
  | .two w0 w1, w => some (.three w0 w1 w)
  | .three w0 w1 w2, w => some (.four w0 w1 w2 w)
  | .four w0 w1 w2 w3, w => some (.five w0 w1 w2 w3 w)
  | .five .., _ => none

/-- A push that does not complete a descriptor extends the assembly buffer. -/
theorem push_of_extend {s : State} (hr : s.Ready) {w : Word} {a : AsmBuffer} (ha : s.asm.extend w = some a) :
    push w s = .next { s with asm := a } := by
  obtain ⟨hf, hb⟩ := hr
  simp only [push, hf, hb, Option.isSome_none, Bool.or_self, Bool.false_eq_true, if_false]
  generalize s.asm = b at ha
  cases b <;> cases ha <;> rfl

/-- The push of the sixth word issues the descriptor. -/
theorem push_of_five {s : State} (hr : s.Ready) {w0 w1 w2 w3 w4 : Word} (ha : s.asm = .five w0 w1 w2 w3 w4)
    (w : Word) : push w s = issue ⟨w0, w1, w2, w3, w4, w⟩ s.accept := by
  obtain ⟨hf, hb⟩ := hr
  simp [push, hf, hb, ha]

/-- A step with a pending action is that action on the rest of the list. -/
theorem step_of_host {s : State} {a : HostAction} {rest : List HostAction} (h : s.host = a :: rest) :
    step s = hostAct a { s with host := rest } := by
  simp only [step, nextAction, h]

/-- A step with a pending write to `CMD` is a push. -/
theorem step_push {s : State} {w : Word} {rest : List HostAction} (h : s.host = .writeReg 0 w :: rest) :
    step s = push w { s with host := rest } :=
  step_of_host h

/-- A step with the sixth word of a descriptor pending issues it. -/
theorem step_issue {s : State} (hr : s.Ready) {d : Descriptor} {rest : List HostAction}
    (ha : s.asm = .five d.w0 d.w1 d.w2 d.w3 d.w4) (h : s.host = .writeReg 0 d.w5 :: rest) :
    step s = issue d ({ s with host := rest } : State).accept :=
  (step_push h).trans (push_of_five (s := { s with host := rest }) hr ha d.w5)

/-- The instruction a table word decodes to is the one its descriptor decodes to. -/
theorem decode_of_decodeTableWord {n w : Nat} {i : Instr} (h : decodeTableWord n w = some i) :
    decode (tableDescriptor n w) = .ok i := by
  unfold decodeTableWord at h
  split at h
  · cases h; assumption
  · cases h

/-- A run goes on from the state its first step answers. -/
theorem run_succ_of_step {s t : State} (h : step s = .next t) (k : Nat) :
    Host.Core.run core (k + 1) s = Host.Core.run core k t := by
  have hcore : core.step s = .next t := h
  simp only [Host.Core.run, hcore]

/-- A run of one step is that step. -/
theorem run_one (s : State) : Host.Core.run core 1 s = step s := by
  have hcore : core.step s = step s := rfl
  simp only [Host.Core.run, hcore]
  cases step s <;> rfl

/-- A run whose first action is a push that does not complete a descriptor goes on with the word in the assembly buffer. -/
theorem run_succ_of_extend {s : State} (hr : s.Ready) {a b : AsmBuffer} {w : Word} (h : a.extend w = some b)
    (rest : List HostAction) (k : Nat) :
    Host.Core.run core (k + 1) { s with asm := a, host := .writeReg 0 w :: rest } =
      Host.Core.run core k { s with asm := b, host := rest } :=
  run_succ_of_step ((step_push rfl).trans (push_of_extend (s := { s with asm := a, host := rest }) hr h)) k

/-- Six pushes into an empty assembly buffer issue the descriptor of their words, in the order of the pushes. -/
theorem run_six_pushes {s : State} (hr : s.Ready) (ha : s.asm = .empty) {d : Descriptor} {rest : List HostAction}
    (h : s.host = [.writeReg 0 d.w0, .writeReg 0 d.w1, .writeReg 0 d.w2, .writeReg 0 d.w3, .writeReg 0 d.w4,
      .writeReg 0 d.w5] ++ rest) :
    Host.Core.run core 6 s = issue d ({ s with host := rest } : State).accept := by
  have hs : s = { s with asm := .empty, host := [.writeReg 0 d.w0, .writeReg 0 d.w1, .writeReg 0 d.w2,
    .writeReg 0 d.w3, .writeReg 0 d.w4, .writeReg 0 d.w5] ++ rest } := by rw [← ha, ← h]
  have hfive : Host.Core.run core 6 s =
      Host.Core.run core 1 { s with asm := .five d.w0 d.w1 d.w2 d.w3 d.w4, host := .writeReg 0 d.w5 :: rest } :=
    calc Host.Core.run core 6 s
      _ = Host.Core.run core 6 { s with asm := .empty, host := [.writeReg 0 d.w0, .writeReg 0 d.w1, .writeReg 0 d.w2,
            .writeReg 0 d.w3, .writeReg 0 d.w4, .writeReg 0 d.w5] ++ rest } := congrArg _ hs
      _ = Host.Core.run core 5 { s with asm := .one d.w0, host := [.writeReg 0 d.w1, .writeReg 0 d.w2,
            .writeReg 0 d.w3, .writeReg 0 d.w4, .writeReg 0 d.w5] ++ rest } := run_succ_of_extend hr rfl _ _
      _ = Host.Core.run core 4 { s with asm := .two d.w0 d.w1, host := [.writeReg 0 d.w2, .writeReg 0 d.w3,
            .writeReg 0 d.w4, .writeReg 0 d.w5] ++ rest } := run_succ_of_extend hr rfl _ _
      _ = Host.Core.run core 3 { s with asm := .three d.w0 d.w1 d.w2, host := [.writeReg 0 d.w3, .writeReg 0 d.w4,
            .writeReg 0 d.w5] ++ rest } := run_succ_of_extend hr rfl _ _
      _ = Host.Core.run core 2 { s with asm := .four d.w0 d.w1 d.w2 d.w3, host := [.writeReg 0 d.w4,
            .writeReg 0 d.w5] ++ rest } := run_succ_of_extend hr rfl _ _
      _ = _ := run_succ_of_extend hr rfl _ _
  have hsixth := step_issue (s := { s with
    asm := .five d.w0 d.w1 d.w2 d.w3 d.w4, host := .writeReg 0 d.w5 :: rest }) hr rfl rfl
  exact hfive.trans ((run_one _).trans hsixth)

end Sys2Proof.Machine
end

section
/-! SUPPORT. The host's accesses by offset and address (R24, R45, R19): aligned register accesses, the register views of R14
to R16 as numbers, and the buffer window. -/

namespace Sys2Proof.Machine

/-! ## Registers -/

/-- An aligned write that is no push is a register write. -/
theorem hostAct_writeReg {offset : Nat} (h8 : offset % 8 = 0) (h0 : offset ≠ 0) (v : Word) (s : State) :
    hostAct (.writeReg offset v) s = .next (writeRegister offset v s) := by
  simp [hostAct, h8, h0]

/-- An aligned read stores the register in `hostIn`. -/
theorem hostAct_readReg {offset : Nat} (h8 : offset % 8 = 0) (s : State) :
    hostAct (.readReg offset) s = .next { s with hostIn := readRegister offset s } := by
  simp [hostAct, h8]

/-- `CFG` and the registry are the writable registers (R24, R45). -/
theorem writeRegister_of_notMem {offset : Nat} (h : offset ∉ [0x30, 0x40, 0x48, 0x50, 0x58]) (v : Word) (s : State) :
    writeRegister offset v s = s := by
  unfold writeRegister
  split
  case h_6 => rfl
  all_goals exact absurd h (by decide)

/-- A write to `CFG` sets the lock by bit 0 and never clears it (R15). -/
theorem writeRegister_cfg (v : Word) (s : State) :
    writeRegister 0x30 v s = if v.toNat % 2 = 1 then { s with lock := true } else s := by
  have hbit : v.getLsbD 0 = decide (v.toNat % 2 = 1) := Nat.testBit_zero v.toNat
  simp only [writeRegister, hbit]
  split <;> simp [*]

/-- From 0x60 on no register is mapped (R45). -/
theorem readRegister_of_le {offset : Nat} (h : 0x60 ≤ offset) (s : State) : readRegister offset s = 0 := by
  unfold readRegister
  split
  case h_12 => rfl
  all_goals exact absurd h (by decide)

/-- The number of two bit vectors side by side. -/
theorem toNat_append_eq_add {m n : Nat} (x : BitVec m) (y : BitVec n) :
    (x ++ y).toNat = x.toNat * 2 ^ n + y.toNat := by
  rw [BitVec.toNat_append, ← Nat.shiftLeft_add_eq_or_of_lt y.isLt, Nat.shiftLeft_eq]

/-- A one-bit register reads as its bit (R15, R16). -/
theorem toNat_bit0Word (b : Bool) : (bit0Word b).toNat = if b then 1 else 0 := by
  cases b <;> rfl

/-- The bits of `STATUS` as a number, for any fields (R14). -/
theorem toNat_statusBits (fcode err : Byte) (fault busy : Bool) :
    (0#40 ++ fcode ++ 0#6 ++ BitVec.ofBool fault ++ BitVec.ofBool busy ++ err).toNat =
      err.toNat + busy.toNat * 2 ^ 8 + fault.toNat * 2 ^ 9 + fcode.toNat * 2 ^ 16 := by
  simp only [toNat_append_eq_add, BitVec.toNat_ofBool, BitVec.toNat_ofNat]
  omega

/-- `STATUS` as a number: `ERR`, `BUSY` at bit 8, `FAULT` at bit 9 and `FCODE` from bit 16 on (R14). -/
theorem Status.toNat_word (st : Status) : st.word.toNat = st.err.code.toNat + (if st.busy then 2 ^ 8 else 0) +
    (match st.fault with | some c => 2 ^ 9 + c.code.toNat * 2 ^ 16 | none => 0) := by
  obtain ⟨err, busy, _ | c⟩ := st
  · refine (toNat_statusBits 0 err.code false busy).trans ?_
    cases busy <;> simp
  · refine (toNat_statusBits c.code err.code true busy).trans ?_
    cases busy <;> simp <;> omega

/-! ## Buffer memory -/

/-- While a command is in flight the host gets no step (R245). -/
theorem withBuffer_of_busy {s : State} (hb : s.status.busy = true) (a n : Nat) (t : State) :
    withBuffer a n s t = .refused .bufferAccessWhileBusy := by
  simp [withBuffer, hb]

/-- Bytes past memory do not exist (R19). -/
theorem withBuffer_of_not_fits {s : State} {a n : Nat} (hb : s.status.busy = false) (h : ¬ a + n ≤ s.params.memSize)
    (t : State) : withBuffer a n s t = .fault .hostBufferRange := by
  simp [withBuffer, hb, inRange, h]

/-- In the idle engine the host reaches every byte of memory (R44, R245). -/
theorem withBuffer_of_fits {s : State} {a n : Nat} (hb : s.status.busy = false) (h : a + n ≤ s.params.memSize)
    (t : State) : withBuffer a n s t = .next t := by
  simp [withBuffer, hb, inRange, h]

/-- A stored range reads back as the bytes stored. -/
theorem memByte_memWrite_offset {m : Memory} (h : m.wf = true) (a : Nat) {bs : List Byte} {k : Nat}
    (hk : k < bs.length) : memByte (memWrite m a bs) (a + k) = bs.getD k 0 := by
  rw [memByte_memWrite _ _ _ h, if_pos (by omega), Nat.add_sub_cancel_left]

/-- A store leaves every byte outside its range as it was. -/
theorem sameOutside_memWrite {m : Memory} (h : m.wf = true) (a : Nat) (bs : List Byte) :
    Spec.SameOutside m (memWrite m a bs) a bs.length := fun x hx => by
  rw [memByte_memWrite _ _ _ h, if_neg hx]

end Sys2Proof.Machine
end

section
/-! The obligations of the state's family: the invariant, the frame of the commands, the descriptor port, reset and the host's
accesses. -/

open Sys2Proof Sys2Proof.Machine Sys2Proof.Spec

/-- Settles O45: a step is the host's next action, and each of those keeps the invariant; a command does because it is
accepted from the invariant and each of its three ends clears `BUSY`. -/
theorem stepKeepsInvariant : Obligations.StepKeepsInvariant := by
  intro s t h hstep
  rcases step_cases hstep with ⟨-, rfl⟩ | ⟨a, rest, -, ha⟩
  · exact h
  · have hrest : ({ s with host := rest } : State).Inv := h
    exact hrest.hostAct ha

/-- Settles O40: a fault or an error writes `STATUS` only, and an effect fills its command's row. -/
theorem commandsWriteOnlyTheirRow : Obligations.CommandsWriteOnlyTheirRow := by
  intro i s t hm h
  obtain ⟨h0, h1, hh, hbytes⟩ := exec_frame hm h
  have hc := exec_keeps_configuration h
  exact ⟨h0, h1, hh, fun a ha => hbytes a fun w hw => ha w (Option.mem_toList.2 hw), hc.params, hc.lock, hc.simd,
    hc.codecMask0, hc.codecMask1, hc.codecMask2, hc.codecMask3, hc.asm, hc.host, hc.hostIn⟩

/-- Settles O47: five pushes fill the assembly buffer and the sixth issues the descriptor. -/
theorem sixPushesIssueOneCommand : Obligations.SixPushesIssueOneCommand := by
  intro s d i rest hr ha hd hh
  rw [run_six_pushes hr ha hh, issue, hd, State.accept, ← ha]

/-- Settles O43: reset writes the values of R23; the registry of `State.reset` is checked id by id. -/
theorem resetValues : Obligations.ResetValues := by
  intro s
  have hword : Status.word ⟨.ok, false, none⟩ = 0 := by decide
  have hcodecs : ∀ c : Byte, registered State.reset c = true ↔ 1 ≤ c.toNat ∧ c.toNat ≤ 5 := by decide
  exact ⟨rfl, rfl, hword, rfl, rfl, rfl, rfl, rfl, rfl, rfl, rfl, rfl, rfl, rfl, rfl, rfl, rfl, rfl, rfl, hcodecs⟩

/-- Settles O44: the reset values meet the invariant over any legal parameters, those of `State.reset` among them. -/
theorem resetMeetsInvariant : Obligations.ResetMeetsInvariant :=
  ⟨State.inv_afterReset [] 0#64 (by decide) (by decide) (by decide),
    fun _ _ host hostIn hp hm hin => State.inv_afterReset host hostIn hp hm hin⟩

/-- Settles O46: the sixth push issues the descriptor, which runs as the command it decodes to or takes decoding's fault. -/
theorem stepRunsDecodedCommand : Obligations.StepRunsDecodedCommand := by
  refine ⟨fun s d rest hr ha hh => ⟨fun i hd => ?_, fun c hd => ?_⟩, fun s n w i hr hi => ?_⟩
  · rw [step_issue hr ha hh, issue, hd]
    rfl
  · rw [step_issue hr ha hh, issue, hd]
    rfl
  · have hready : (s.withFetchWord n w).Ready := hr
    rw [step_issue hready rfl rfl, issue, decode_of_decodeTableWord hi]
    rfl

/-- Settles O51: `CFG` and the registry are the writable registers. -/
theorem hostRegisterWrites : Obligations.HostRegisterWrites := by
  intro s v
  refine ⟨fun offset h8 h => ?_, ?_, rfl, rfl, rfl, rfl⟩
  · obtain ⟨h0, h⟩ := List.ne_and_not_mem_of_not_mem_cons h
    rw [hostAct_writeReg h8 h0, writeRegister_of_notMem h]
  · rw [hostAct_writeReg (by decide) (by decide), writeRegister_cfg]

/-- Settles O52: each aligned offset reads its register, `STATUS`, `CFG` and `CAP` at the bits of R14 to R16. -/
theorem hostRegisterReads : Obligations.HostRegisterReads := fun s =>
  ⟨fun _ h8 => hostAct_readReg h8 s, s.status.toNat_word, rfl, rfl, rfl, rfl, toNat_bit0Word s.lock,
    toNat_bit0Word s.simd, rfl, rfl, rfl, rfl, rfl, fun _ h => readRegister_of_le h s⟩

/-- Settles O53: inside memory the idle engine stores and reads back the host's bytes; outside it, or while a command is in
flight, the model stops. -/
theorem hostBufferAccess : Obligations.HostBufferAccess := by
  intro s a bs hm
  refine ⟨fun hb => withBuffer_of_busy hb .., fun hb hout => withBuffer_of_not_fits hb hout _, fun hb hfits => ?_⟩
  have hread {k : Nat} (hk : k < bs.length) := memByte_memWrite_offset hm a hk
  refine ⟨memWrite s.mem a bs, withBuffer_of_fits hb hfits _, sameOutside_memWrite hm a bs, fun k hk => hread hk,
    fun k hk => ?_⟩
  rw [← hread hk]
  exact withBuffer_of_fits hb (show a + k + 1 ≤ s.params.memSize by omega) _
end

section
/-! SUPPORT. The decoder and the encoder say the same: the fields of a descriptor by name and by number, what each format
leaves zero (R63), and the two ways between a command and its descriptor (R64). -/

namespace Sys2Proof

open Machine (FaultCode)
open Laws.EncodesOwnOpcode (opcodeOf of_controlWord)

/-! ### The fields of a descriptor -/

section
variable (op : Opcode) (m : BitVec 2) (c l : Byte) (ts : BitVec 32) (w1 w2 w3 w4 w5 : Word)

@[simp] theorem Descriptor.opc_controlWord :
    Descriptor.opc ⟨controlWord op m c l ts, w1, w2, w3, w4, w5⟩ = op.toByte := (fields_controlWord op m c l ts).1

@[simp] theorem Descriptor.mode_controlWord :
    Descriptor.mode ⟨controlWord op m c l ts, w1, w2, w3, w4, w5⟩ = m := (fields_controlWord op m c l ts).2.1

@[simp] theorem Descriptor.rsv_controlWord :
    Descriptor.rsv ⟨controlWord op m c l ts, w1, w2, w3, w4, w5⟩ = 0 := (fields_controlWord op m c l ts).2.2.1

@[simp] theorem Descriptor.codec_controlWord :
    Descriptor.codec ⟨controlWord op m c l ts, w1, w2, w3, w4, w5⟩ = c := (fields_controlWord op m c l ts).2.2.2.1

@[simp] theorem Descriptor.level_controlWord :
    Descriptor.level ⟨controlWord op m c l ts, w1, w2, w3, w4, w5⟩ = l := (fields_controlWord op m c l ts).2.2.2.2.1

@[simp] theorem Descriptor.ts_controlWord :
    Descriptor.ts ⟨controlWord op m c l ts, w1, w2, w3, w4, w5⟩ = ts := (fields_controlWord op m c l ts).2.2.2.2.2

end

/-- A descriptor with `RSV = 0` is its own fields, put together again. -/
theorem Descriptor.eq_of_fields {d : Descriptor} {op : Opcode} (hop : op.toByte = d.opc) (hrsv : d.rsv = 0) :
    ⟨controlWord op d.mode d.codec d.level d.ts, d.w1, d.w2, d.w3, d.w4, d.w5⟩ = d := by
  have hw0 : controlWord op d.mode d.codec d.level d.ts = d.w0 := by
    rw [controlWord, hop, ← show d.rsv = 0#6 from hrsv]
    exact (controlWord_fields d.w0).symm
  rw [hw0]

/-! ### What each format leaves zero (R63) -/

section
variable {d : Descriptor}

theorem Descriptor.unusedZero_P : d.unusedZero .P = true ↔
    d.rsv = 0 ∧ d.mode = 0 ∧ d.codec = 0 ∧ d.level = 0 ∧ d.w4 = 0 ∧ d.w5 = 0 := by
  simp [unusedZero, Field.all, Format.uses, Format.fields, fieldZero]

theorem Descriptor.unusedZero_I : d.unusedZero .I = true ↔
    d.rsv = 0 ∧ d.codec = 0 ∧ d.level = 0 ∧ d.w3 = 0 ∧ d.w4 = 0 ∧ d.w5 = 0 := by
  simp [unusedZero, Field.all, Format.uses, Format.fields, fieldZero]

theorem Descriptor.unusedZero_S : d.unusedZero .S = true ↔
    d.rsv = 0 ∧ d.mode = 0 ∧ d.codec = 0 ∧ d.level = 0 ∧ d.ts = 0 ∧ d.w3 = 0 ∧ d.w4 = 0 ∧ d.w5 = 0 := by
  simp [unusedZero, Field.all, Format.uses, Format.fields, fieldZero]

theorem Descriptor.unusedZero_H : d.unusedZero .H = true ↔
    d.rsv = 0 ∧ d.mode = 0 ∧ d.codec = 0 ∧ d.level = 0 ∧ d.ts = 0 ∧ d.w1 = 0 ∧ d.w2 = 0 := by
  simp [unusedZero, Field.all, Format.uses, Format.fields, fieldZero]

theorem Descriptor.unusedZero_Q : d.unusedZero .Q = true ↔
    d.rsv = 0 ∧ d.mode = 0 ∧ d.codec = 0 ∧ d.level = 0 ∧ d.ts = 0 ∧ d.w1 = 0 ∧ d.w2 = 0 ∧ d.w3 = 0 ∧ d.w5 = 0 := by
  simp [unusedZero, Field.all, Format.uses, Format.fields, fieldZero]

theorem Descriptor.unusedZero_C : d.unusedZero .C = true ↔
    d.rsv = 0 ∧ d.mode = 0 ∧ d.codec = 0 ∧ d.level = 0 := by
  simp [unusedZero, Field.all, Format.uses, Format.fields, fieldZero]

theorem Descriptor.unusedZero_E : d.unusedZero .E = true ↔ d.rsv = 0 ∧ d.w4 = 0 ∧ d.w5 = 0 := by
  simp [unusedZero, Field.all, Format.uses, Format.fields, fieldZero]

theorem Descriptor.unusedZero_W : d.unusedZero .W = true ↔ d.rsv = 0 ∧ d.level = 0 := by
  simp [unusedZero, Field.all, Format.uses, Format.fields, fieldZero]

/-- In every format `RSV` is zero. -/
theorem Descriptor.rsv_of_unusedZero {f : Format} (h : d.unusedZero f = true) : d.rsv = 0 :=
  eq_of_beq (Bool.and_eq_true_iff.1 h).1

/-! ### Decoding by opcode -/

/-- A descriptor with an opcode decodes by that opcode's format (R76). -/
theorem decode_of_ofByte {op : Opcode} (h : Opcode.ofByte d.opc = some op) :
    decode d = if d.unusedZero op.format then buildInstr op d else .error .reserved := by
  rw [decode, h]

/-- What a descriptor that decodes has passed: its opcode is one of R65, its unused fields are zero, its operands legal. -/
theorem decode_eq_ok {i : Instr} (h : decode d = .ok i) :
    ∃ op, Opcode.ofByte d.opc = some op ∧ d.unusedZero op.format = true ∧ buildInstr op d = .ok i := by
  unfold decode at h
  split at h
  · cases h
  · next op hop =>
    split at h
    · next hzero => exact ⟨op, hop, hzero, h⟩
    · cases h

/-- A command that uses `MODE` is built from the mode the field names. -/
theorem withMode_eq_ok {k : Mode → Except FaultCode Instr} {i : Instr} (h : withMode d k = .ok i) :
    ∃ m, d.mode = m.toBits ∧ k m = .ok i := by
  unfold withMode at h
  split at h
  · next m hm => exact ⟨m, (Mode.toBits_of_ofBits hm).symm, h⟩
  · cases h

theorem withMode_of_toBits {m : Mode} (h : d.mode = m.toBits) (k : Mode → Except FaultCode Instr) :
    withMode d k = k m := by
  rw [withMode, h, Mode.ofBits_toBits]

end

/-! ### From a command to its descriptor and back -/

theorem ofByte_opc_encode (i : Instr) : Opcode.ofByte (encode i).opc = some (opcodeOf i) := by
  cases i <;> exact (of_controlWord ..).1

/-- An encoded command leaves the fields its format does not use zero. -/
theorem unusedZero_encode (i : Instr) : (encode i).unusedZero (opcodeOf i).format = true := by
  cases i with
  | shuf | unshuf | bshuf | bunshuf => exact Descriptor.unusedZero_P.2 (by simp [encode])
  | shufip | unshufip => exact Descriptor.unusedZero_I.2 (by simp [encode])
  | hparse | dsize | fopen => exact Descriptor.unusedZero_S.2 (by simp [encode])
  | hser => exact Descriptor.unusedZero_H.2 (by simp [encode])
  | hmode | hhassh | hhasbs | hismc => exact Descriptor.unusedZero_Q.2 (by simp [encode])
  | fclose => exact Descriptor.unusedZero_C.2 (by simp [encode])
  | fpre => exact Descriptor.unusedZero_E.2 (by simp [encode])
  | fwrap => exact Descriptor.unusedZero_W.2 (by simp [encode])

/-- The operands of an encoded command are read back; for FWRAP well-formedness is R64's bound on `TS`. -/
theorem buildInstr_encode {i : Instr} (h : i.wf = true) : buildInstr (opcodeOf i) (encode i) = .ok i := by
  cases i with
  | shuf | unshuf | bshuf | bunshuf | fclose => simp [encode, opcodeOf, buildInstr]
  | hparse | hser | hmode | hhassh | hhasbs | hismc | dsize | fopen => rfl
  | shufip m | unshufip m | fpre m =>
    rw [opcodeOf, buildInstr, withMode_of_toBits (m := m) (by simp [encode])]
    simp [encode]
  | fwrap m codec ts =>
    have hts : ts.toNat ≤ 255 := of_decide_eq_true h
    rw [opcodeOf, buildInstr, withMode_of_toBits (m := m) (by simp [encode])]
    simp [encode, hts]

theorem decode_encode {i : Instr} (h : i.wf = true) : decode (encode i) = .ok i := by
  rw [decode_of_ofByte (ofByte_opc_encode i), if_pos (unusedZero_encode i), buildInstr_encode h]

/-- What is built from a descriptor's operands is well-formed, and its encoding holds the descriptor's own fields. -/
theorem encode_of_buildInstr {op : Opcode} {d : Descriptor} {i : Instr} (hzero : d.unusedZero op.format = true)
    (h : buildInstr op d = .ok i) :
    i.wf = true ∧ encode i = ⟨controlWord op d.mode d.codec d.level d.ts, d.w1, d.w2, d.w3, d.w4, d.w5⟩ := by
  cases op with
  | shuf | unshuf | bshuf | bunshuf =>
    cases h
    simp [Instr.wf, encode, Descriptor.unusedZero_P.1 hzero]
  | hparse | dsize | fopen =>
    cases h
    simp [Instr.wf, encode, Descriptor.unusedZero_S.1 hzero]
  | hser =>
    cases h
    simp [Instr.wf, encode, Descriptor.unusedZero_H.1 hzero]
  | hmode | hhassh | hhasbs | hismc =>
    cases h
    simp [Instr.wf, encode, Descriptor.unusedZero_Q.1 hzero]
  | fclose =>
    cases h
    simp [Instr.wf, encode, Descriptor.unusedZero_C.1 hzero]
  | shufip | unshufip =>
    obtain ⟨m, hm, h⟩ := withMode_eq_ok h
    cases h
    simp [Instr.wf, encode, hm, Descriptor.unusedZero_I.1 hzero]
  | fpre =>
    obtain ⟨m, hm, h⟩ := withMode_eq_ok h
    cases h
    simp [Instr.wf, encode, hm, Descriptor.unusedZero_E.1 hzero]
  | fwrap =>
    obtain ⟨m, hm, h⟩ := withMode_eq_ok h
    split at h
    · next hts =>
      cases h
      simp [Instr.wf, encode, hm, hts, Descriptor.unusedZero_W.1 hzero]
    · cases h

end Sys2Proof
end

section
/-! SUPPORT. The decoder by number: the fields of `W0` as quotients and remainders (R61), and how a descriptor of each format
decodes (R63, R64, R67). -/

namespace Sys2Proof

open Machine (FaultCode)
open Spec

section
variable (d : Descriptor)

theorem Descriptor.toNat_opc : d.opc.toNat = d.w0.toNat % 2 ^ 8 := by
  rw [opc, toNat_field, pow_zero, Nat.div_one]

/-- `MODE`, `RSV`, `CODEC`, `LEVEL` are the bits [31:8]. -/
theorem Descriptor.control_eq_zero :
    (d.rsv = 0 ∧ d.mode = 0 ∧ d.codec = 0 ∧ d.level = 0) ↔ d.w0.toNat / 2 ^ 8 % 2 ^ 24 = 0 := by
  simp only [rsv, mode, codec, level, BitVec.toNat_eq, toNat_field, BitVec.ofNat_eq_ofNat, BitVec.toNat_ofNat]
  omega

/-- `MODE`, `RSV`, `CODEC`, `LEVEL`, `TS` are the bits [63:8]. -/
theorem Descriptor.controlTs_eq_zero :
    (d.rsv = 0 ∧ d.mode = 0 ∧ d.codec = 0 ∧ d.level = 0 ∧ d.ts = 0) ↔ d.w0.toNat / 2 ^ 8 = 0 := by
  have hw0 := d.w0.isLt
  simp only [rsv, mode, codec, level, ts, BitVec.toNat_eq, toNat_field, BitVec.ofNat_eq_ofNat, BitVec.toNat_ofNat]
  omega

/-- `RSV`, `CODEC`, `LEVEL` are the bits [31:10]. -/
theorem Descriptor.rsvCodecLevel_eq_zero :
    (d.rsv = 0 ∧ d.codec = 0 ∧ d.level = 0) ↔ d.w0.toNat / 2 ^ 10 % 2 ^ 22 = 0 := by
  simp only [rsv, codec, level, BitVec.toNat_eq, toNat_field, BitVec.ofNat_eq_ofNat, BitVec.toNat_ofNat]
  omega

theorem Descriptor.rsv_eq_zero : d.rsv = 0 ↔ d.w0.toNat / 2 ^ 10 % 2 ^ 6 = 0 := by
  rw [BitVec.toNat_eq, rsv, toNat_field]
  rfl

theorem Descriptor.level_eq_zero : d.level = 0 ↔ d.w0.toNat / 2 ^ 24 % 2 ^ 8 = 0 := by
  rw [BitVec.toNat_eq, level, toNat_field]
  rfl

theorem Descriptor.toNat_ts : d.ts.toNat = d.w0.toNat / 2 ^ 32 := by
  have hw0 := d.w0.isLt
  rw [ts, toNat_field]
  omega

theorem Descriptor.ts_eq_ofNat : d.ts = BitVec.ofNat 32 (d.w0.toNat / 2 ^ 32) := by
  rw [← toNat_ts, BitVec.ofNat_toNat, BitVec.setWidth_eq]

theorem Descriptor.codec_eq_ofNat : d.codec = BitVec.ofNat 8 (d.w0.toNat / 2 ^ 16) := by
  rw [BitVec.toNat_eq, codec, toNat_field, BitVec.toNat_ofNat]

theorem Descriptor.level_eq_ofNat : d.level = BitVec.ofNat 8 (d.w0.toNat / 2 ^ 24) := by
  rw [BitVec.toNat_eq, level, toNat_field, BitVec.toNat_ofNat]

theorem Mode.ofBits_eq (b : BitVec 2) :
    Mode.ofBits b = if b.toNat ≠ 3 then some (modeOfNumber b.toNat) else none := by
  revert b
  decide

/-- A command that uses `MODE`, by the number in the field (R67). -/
theorem withMode_eq (k : Mode → Except FaultCode Instr) :
    withMode d k = if d.w0.toNat / 2 ^ 8 % 4 ≠ 3 then k (modeOfNumber (d.w0.toNat / 2 ^ 8 % 4)) else .error .reserved := by
  have hmode : d.mode.toNat = d.w0.toNat / 2 ^ 8 % 4 := toNat_field d.w0 8 2
  rw [withMode, Mode.ofBits_eq, hmode]
  by_cases h3 : d.w0.toNat / 2 ^ 8 % 4 ≠ 3
  · simp only [if_pos h3]
  · simp only [if_neg h3]

end

/-- A byte outside the 17 numbers of R65 is no opcode. -/
theorem Opcode.ofByte_of_notMem {b : Byte} (h : b.toNat ∉ opcodes) : Opcode.ofByte b = none := by
  revert b
  decide

/-- The decoder on a descriptor whose opcode number is known. -/
theorem decode_of_opcode {d : Descriptor} {op : Opcode} (h : d.w0.toNat % 2 ^ 8 = op.toByte.toNat) :
    decode d = if d.unusedZero op.format then buildInstr op d else .error .reserved := by
  have hopc : d.opc = op.toByte := BitVec.eq_of_toNat_eq (d.toNat_opc.trans h)
  exact decode_of_ofByte (hopc ▸ op.ofByte_toByte)

/-! ### Decoding by format -/

theorem decodesP_of_buildInstr {op : Opcode} {mk : BitVec 32 → Word → Word → Word → Instr} (hformat : op.format = .P)
    (hbuild : ∀ d, buildInstr op d = .ok (mk d.ts d.w1 d.w2 d.w3)) : DecodesP op.toByte.toNat mk := by
  intro d h
  have hzero : d.unusedZero .P = true ↔ d.w0.toNat / 2 ^ 8 % 2 ^ 24 = 0 ∧ d.w4 = 0 ∧ d.w5 = 0 := by
    rw [← d.control_eq_zero, Descriptor.unusedZero_P]
    tauto
  rw [decode_of_opcode h, hformat, hbuild, ← d.ts_eq_ofNat]
  exact if_congr hzero rfl rfl

theorem decodesI_of_buildInstr {op : Opcode} {mk : Mode → BitVec 32 → Word → Word → Instr} (hformat : op.format = .I)
    (hbuild : ∀ d, buildInstr op d = withMode d fun m => .ok (mk m d.ts d.w1 d.w2)) : DecodesI op.toByte.toNat mk := by
  intro d h
  have hzero : (d.unusedZero .I = true ∧ d.w0.toNat / 2 ^ 8 % 4 ≠ 3) ↔
      d.w0.toNat / 2 ^ 10 % 2 ^ 22 = 0 ∧ d.w0.toNat / 2 ^ 8 % 4 ≠ 3 ∧ d.w3 = 0 ∧ d.w4 = 0 ∧ d.w5 = 0 := by
    rw [← d.rsvCodecLevel_eq_zero, Descriptor.unusedZero_I]
    tauto
  rw [decode_of_opcode h, hformat, hbuild, withMode_eq, ← ite_and, ← d.ts_eq_ofNat]
  exact if_congr hzero rfl rfl

theorem decodesS_of_buildInstr {op : Opcode} {mk : Word → Word → Instr} (hformat : op.format = .S)
    (hbuild : ∀ d, buildInstr op d = .ok (mk d.w1 d.w2)) : DecodesS op.toByte.toNat mk := by
  intro d h
  have hzero : d.unusedZero .S = true ↔ d.w0.toNat / 2 ^ 8 = 0 ∧ d.w3 = 0 ∧ d.w4 = 0 ∧ d.w5 = 0 := by
    rw [← d.controlTs_eq_zero, Descriptor.unusedZero_S]
    tauto
  rw [decode_of_opcode h, hformat, hbuild]
  exact if_congr hzero rfl rfl

theorem decodesQ_of_buildInstr {op : Opcode} {mk : Word → Instr} (hformat : op.format = .Q)
    (hbuild : ∀ d, buildInstr op d = .ok (mk d.w4)) : DecodesQ op.toByte.toNat mk := by
  intro d h
  have hzero : d.unusedZero .Q = true ↔ d.w0.toNat / 2 ^ 8 = 0 ∧ d.w1 = 0 ∧ d.w2 = 0 ∧ d.w3 = 0 ∧ d.w5 = 0 := by
    rw [← d.controlTs_eq_zero, Descriptor.unusedZero_Q]
    tauto
  rw [decode_of_opcode h, hformat, hbuild]
  exact if_congr hzero rfl rfl

theorem decodesH_hser : DecodesH 0x11 Instr.hser := by
  intro d h
  have hzero : d.unusedZero .H = true ↔ d.w0.toNat / 2 ^ 8 = 0 ∧ d.w1 = 0 ∧ d.w2 = 0 := by
    rw [← d.controlTs_eq_zero, Descriptor.unusedZero_H]
    tauto
  rw [decode_of_opcode (op := .hser) h]
  exact if_congr hzero rfl rfl

theorem decodesC_fclose : DecodesC 0x21 Instr.fclose := by
  intro d h
  have hzero : d.unusedZero .C = true ↔ d.w0.toNat / 2 ^ 8 % 2 ^ 24 = 0 := by
    rw [← d.control_eq_zero, Descriptor.unusedZero_C]
  rw [decode_of_opcode (op := .fclose) h, ← d.ts_eq_ofNat]
  exact if_congr hzero rfl rfl

theorem decodesE_fpre : DecodesE 0x22 Instr.fpre := by
  intro d h
  have hzero : (d.unusedZero .E = true ∧ d.w0.toNat / 2 ^ 8 % 4 ≠ 3) ↔
      d.w0.toNat / 2 ^ 10 % 2 ^ 6 = 0 ∧ d.w0.toNat / 2 ^ 8 % 4 ≠ 3 ∧ d.w4 = 0 ∧ d.w5 = 0 := by
    rw [← d.rsv_eq_zero, Descriptor.unusedZero_E]
    tauto
  rw [decode_of_opcode (op := .fpre) h, buildInstr, withMode_eq, ← ite_and, ← d.ts_eq_ofNat, ← d.codec_eq_ofNat,
    ← d.level_eq_ofNat]
  exact if_congr hzero rfl rfl

theorem decodesW_fwrap : DecodesW 0x23 Instr.fwrap := by
  intro d h
  have hzero : ((d.unusedZero .W = true ∧ d.w0.toNat / 2 ^ 8 % 4 ≠ 3) ∧ d.w0.toNat / 2 ^ 32 ≤ 255) ↔
      d.w0.toNat / 2 ^ 10 % 2 ^ 6 = 0 ∧ d.w0.toNat / 2 ^ 24 % 2 ^ 8 = 0 ∧ d.w0.toNat / 2 ^ 8 % 4 ≠ 3 ∧
        d.w0.toNat / 2 ^ 32 ≤ 255 := by
    rw [← d.rsv_eq_zero, ← d.level_eq_zero, Descriptor.unusedZero_W]
    tauto
  rw [decode_of_opcode (op := .fwrap) h, buildInstr, withMode_eq, ← ite_and, ← ite_and, d.toNat_ts, ← d.ts_eq_ofNat,
    ← d.codec_eq_ofNat]
  exact if_congr hzero rfl rfl

end Sys2Proof
end

section
/-! SUPPORT. The assembler (R73): a command whose nine field values are those of an instruction's descriptor assembles to that
instruction; one without a value for a field, or with a field its format does not use, is refused. -/

namespace Sys2Proof.Machine

/-- A number that is an address, a length or a header word fits its 64-bit field. -/
theorem numberFor_toNat {f : Field} (hf : f ∈ [Field.src, .len, .dst, .w4, .w5]) (w : Word) :
    numberFor f w.toNat = some w.toNat := by
  have hw := w.isLt
  fin_cases hf <;> simp [numberFor] <;> omega

/-- A field written once, as an address, a length or a header word, has the written value. -/
theorem fieldValue_of_number {op : Opcode} {ops : List Operand} {f : Field} {n : OperandName} {w : Word}
    (hf : f ∈ [Field.src, .len, .dst, .w4, .w5])
    (hops : ops.filter (fun o => (o.name.fields op).contains f) = [⟨n, .number w.toNat⟩]) :
    fieldValue op ops f = some w.toNat := by
  rw [fieldValue, hops]
  exact numberFor_toNat hf w

/-- A field not written has its default where the format uses it, and zero elsewhere. -/
theorem fieldValue_of_omitted {op : Opcode} {ops : List Operand} {f : Field}
    (hops : ops.filter (fun o => (o.name.fields op).contains f) = []) :
    fieldValue op ops f = if op.format.uses f then defaultFor op f else some 0 := by
  rw [fieldValue, hops]

open Laws.EncodesOwnOpcode (opcodeOf)

/-- The number in a field of a descriptor, as the assembler computes it. -/
def fieldNumber (d : Descriptor) : Field → Nat
  | .mode => d.mode.toNat
  | .codec => d.codec.toNat
  | .level => d.level.toNat
  | .ts => d.ts.toNat
  | .src => d.w1.toNat
  | .len => d.w2.toNat
  | .dst => d.w3.toNat
  | .w4 => d.w4.toNat
  | .w5 => d.w5.toNat

/-- Operands that give every field of a command's descriptor assemble to the command. -/
theorem assemble_eq_some {i : Instr} {ops : List Operand} (hwf : i.wf = true)
    (hok : ops.all (fun o => o.kindOk && !(o.name.fields (opcodeOf i)).isEmpty) = true)
    (hval : ∀ f, fieldValue (opcodeOf i) ops f = some (fieldNumber (encode i) f)) :
    assemble (opcodeOf i) ops = some i := by
  have hopc : (opcodeOf i).toByte = (encode i).opc := Opcode.toByte_of_ofByte (ofByte_opc_encode i)
  have hrsv : (encode i).rsv = 0 := Descriptor.rsv_of_unusedZero (unusedZero_encode i)
  rw [assemble, if_pos hok]
  simp only [hval, fieldNumber, BitVec.ofNat_toNat, BitVec.setWidth_eq, Descriptor.eq_of_fields hopc hrsv,
    decode_encode hwf]

/-- A field without a value refuses the command. -/
theorem assemble_of_fieldValue_none {op : Opcode} {ops : List Operand} {f : Field} (h : fieldValue op ops f = none) :
    assemble op ops = none := by
  unfold assemble
  split
  · split
    · cases f <;> simp_all
    · rfl
  · rfl

/-- An operand the command's format does not use refuses the command. -/
theorem assemble_of_fields_nil {op : Opcode} {ops : List Operand} {o : Operand} (ho : o ∈ ops)
    (h : o.name.fields op = []) : assemble op ops = none := by
  refine if_neg fun hall => ?_
  have hused := List.all_eq_true.1 hall o ho
  simp [h] at hused

end Sys2Proof.Machine
end

section
/-! The obligations of the encoding's family. -/

open Sys2Proof Sys2Proof.Machine Sys2Proof.Spec Sys2Proof.Laws.EncodesOwnOpcode

/-- Settles O1: the opcode, the zero test and the operands of an encoded command each read back. -/
theorem decodeOfEncode : Obligations.DecodeOfEncode := fun _ hwf => decode_encode hwf

/-- Settles O2: the fields of a control word tile it, so the command's fields and `RSV = 0` fix the descriptor. -/
theorem encodeOfDecode : Obligations.EncodeOfDecode := by
  intro d i h
  obtain ⟨op, hop, hzero, hbuild⟩ := decode_eq_ok h
  obtain ⟨hwf, henc⟩ := encode_of_buildInstr hzero hbuild
  exact ⟨hwf, henc.trans (Descriptor.eq_of_fields (Opcode.toByte_of_ofByte hop) (Descriptor.rsv_of_unusedZero hzero))⟩

/-- Settles O3: each opcode decodes by its format, and every other byte is no opcode. -/
theorem decodeFollowsOpcodeMap : Obligations.DecodeFollowsOpcodeMap := by
  have hnone (d : Descriptor) (h : d.w0.toNat % 2 ^ 8 ∉ opcodes) : decode d = .error .opcode := by
    rw [decode, Opcode.ofByte_of_notMem (d.toNat_opc ▸ h)]
  exact ⟨hnone,
    decodesP_of_buildInstr (op := .shuf) rfl fun _ => rfl,
    decodesP_of_buildInstr (op := .unshuf) rfl fun _ => rfl,
    decodesP_of_buildInstr (op := .bshuf) rfl fun _ => rfl,
    decodesP_of_buildInstr (op := .bunshuf) rfl fun _ => rfl,
    decodesI_of_buildInstr (op := .shufip) rfl fun _ => rfl,
    decodesI_of_buildInstr (op := .unshufip) rfl fun _ => rfl,
    decodesS_of_buildInstr (op := .hparse) rfl fun _ => rfl,
    decodesH_hser,
    decodesQ_of_buildInstr (op := .hmode) rfl fun _ => rfl,
    decodesQ_of_buildInstr (op := .hhassh) rfl fun _ => rfl,
    decodesQ_of_buildInstr (op := .hhasbs) rfl fun _ => rfl,
    decodesQ_of_buildInstr (op := .hismc) rfl fun _ => rfl,
    decodesS_of_buildInstr (op := .dsize) rfl fun _ => rfl,
    decodesS_of_buildInstr (op := .fopen) rfl fun _ => rfl,
    decodesC_fclose, decodesE_fpre, decodesW_fwrap⟩

/-- Settles O35: the written operands give their fields, the defaults the others; a field without either is missing. -/
theorem assemblerFillsDefaults : Obligations.AssemblerFillsDefaults := by
  intro src len dst hlo hhi
  refine ⟨?_, ?_, ?_, ?_, ?_⟩
  · refine assemble_eq_some (i := .fpre .byteShuffle 1 5 4 src len dst) rfl rfl fun f => ?_
    cases f with
    | src | len | dst => exact fieldValue_of_number (by decide) rfl
    | mode | codec | level | ts | w4 | w5 =>
      rw [fieldValue_of_omitted rfl]
      simp [fieldNumber, encode, opcodeOf, Opcode.format, Format.uses, Format.fields, defaultFor, Mode.toBits]
  · refine assemble_eq_some (i := .shufip .byteShuffle 4 src len) rfl rfl fun f => ?_
    cases f with
    | src | len => exact fieldValue_of_number (by decide) rfl
    | mode | codec | level | ts | dst | w4 | w5 =>
      rw [fieldValue_of_omitted rfl]
      simp [fieldNumber, encode, opcodeOf, Opcode.format, Format.uses, Format.fields, defaultFor, Mode.toBits]
  · refine assemble_eq_some (i := .fclose 0 src len dst hlo hhi) rfl rfl fun f => ?_
    cases f with
    | src | len | dst | w4 | w5 => exact fieldValue_of_number (by decide) rfl
    | mode | codec | level | ts =>
      rw [fieldValue_of_omitted rfl]
      simp [fieldNumber, encode, opcodeOf, Opcode.format, Format.uses, Format.fields, defaultFor]
  · exact assemble_of_fieldValue_none (f := .dst) rfl
  · exact assemble_of_fields_nil (o := ⟨.hlo, .number hlo.toNat⟩) (by simp) rfl

end

section
/-! SUPPORT. The 8 by 8 bit transpose (R104): its bits, the bytes it looks at, and that it undoes itself (R118 (a)). -/

namespace Sys2Proof.Machine

/-- A bit of a disjunction of bytes. -/
theorem getLsbD_foldl_or {α : Type} (l : List α) (f : α → Byte) (acc : Byte) (i : Nat) :
    (l.foldl (fun acc k => acc ||| f k) acc).getLsbD i = (acc.getLsbD i || l.any fun k => (f k).getLsbD i) := by
  induction l generalizing acc with
  | nil => simp
  | cons k l ih => simp [ih, Bool.or_assoc]

/-- A bit moved to position `c` stands there and nowhere else. -/
theorem getLsbD_and_one_shiftLeft (x : Byte) {c i : Nat} (hc : c < 8) :
    ((x &&& 1#8) <<< c).getLsbD i = (decide (i = c) && x.getLsbD 0) := by
  rw [BitVec.getLsbD_shiftLeft, BitVec.getLsbD_and, BitVec.getLsbD_one]
  by_cases h : i = c
  · simp [h, hc]
  · by_cases hlt : i < c
    · simp [h, hlt]
    · simp [h, show ¬ i - c = 0 by omega]

/-- R104: bit `7-k` of byte `m` is bit `7-m` of input byte `k`. -/
theorem getLsbD_tr8 (b : Nat → Byte) (m : Nat) {k : Nat} (hk : k < 8) :
    (tr8 b m).getLsbD (7 - k) = (b k).getLsbD (7 - m) := by
  have hterm (x : Nat) (hx : x < 8) : (((b x >>> (7 - m)) &&& 1#8) <<< (7 - x)).getLsbD (7 - k) = true ↔
      x = k ∧ (b x).getLsbD (7 - m) = true := by
    rw [getLsbD_and_one_shiftLeft _ (by omega)]
    simp [show 7 - k = 7 - x ↔ x = k by omega]
  rw [tr8, getLsbD_foldl_or, BitVec.getLsbD_zero, Bool.false_or, Bool.eq_iff_iff, List.any_eq_true]
  constructor
  · rintro ⟨x, hx, hbit⟩
    obtain ⟨rfl, h⟩ := (hterm x (List.mem_range.1 hx)).1 hbit
    exact h
  · exact fun h => ⟨k, List.mem_range.2 hk, (hterm k hk).2 ⟨rfl, h⟩⟩

/-- Bytes that agree on the bits `7-k`, `k < 8`, are equal. -/
theorem byte_ext {x y : Byte} (h : ∀ k, k < 8 → x.getLsbD (7 - k) = y.getLsbD (7 - k)) : x = y :=
  BitVec.eq_of_getLsbD_eq fun i hi => by
    have := h (7 - i) (by omega)
    rwa [show 7 - (7 - i) = i by omega] at this

/-- The transpose looks at eight bytes only. -/
theorem tr8_congr {b c : Nat → Byte} (h : ∀ k, k < 8 → b k = c k) (m : Nat) : tr8 b m = tr8 c m :=
  byte_ext fun k hk => by rw [getLsbD_tr8 b m hk, getLsbD_tr8 c m hk, h k hk]

/-- R118 (a). -/
theorem tr8_tr8 (b : Nat → Byte) {k : Nat} (hk : k < 8) : tr8 (tr8 b) k = b k :=
  byte_ext fun m hm => by rw [getLsbD_tr8 _ k hm, getLsbD_tr8 b m hk]

end Sys2Proof.Machine
end

section
/-! SUPPORT. The transforms byte by byte (R101 to R106): what each is on a degenerate shape and the bytes of its output, in
the positions the rules name; from these, the round trips of R108 and the permutation of R118 (b). -/

namespace Sys2Proof.Machine

/-! ## Positions -/

/-- Every position of the shuffled region is byte `j` of element `i` (R103). -/
theorem element_of_lt {e t p : Nat} (h : p < e * t) : ∃ i j, i < e ∧ j < t ∧ p = i * t + j := by
  obtain ⟨i, j, hj, hi, hp⟩ := plane_of_lt (Nat.mul_comm e t ▸ h)
  exact ⟨i, j, hi, hj, hp⟩

/-- A position of group `g` lies in the transposed region, and so in the buffer (R100). -/
theorem group_position_lt {n t g r : Nat} (hg : g < groups n t) (hr : r < 8 * t) : g * 8 * t + r < n :=
  calc g * 8 * t + r = g * (8 * t) + r := by rw [Nat.mul_assoc]
    _ < 8 * t * groups n t := plane_lt hr hg
    _ = groups n t * (8 * t) := Nat.mul_comm _ _
    _ ≤ n := groups_le n t

/-- Output position `j*8 + m` of group `g` (R105) lies in the buffer. -/
theorem shuffled_position_lt {n t g j m : Nat} (hg : g < groups n t) (hj : j < t) (hm : m < 8) :
    g * 8 * t + j * 8 + m < n := by
  rw [Nat.add_assoc]
  exact group_position_lt hg (by omega)

/-- Byte `j` of element `k` of group `g` (R106) lies in the buffer. -/
theorem element_in_group_lt {n t g j k : Nat} (hg : g < groups n t) (hj : j < t) (hk : k < 8) :
    g * 8 * t + k * t + j < n := by
  rw [Nat.add_assoc]
  exact group_position_lt hg (Nat.lt_of_lt_of_eq (plane_lt hj hk) (Nat.mul_comm _ _))

/-- Byte `j` of element `i` lies in the buffer (R100). -/
theorem element_position_lt {n t i j : Nat} (hi : i < elements n t) (hj : j < t) : i * t + j < n :=
  calc i * t + j < t * elements n t := plane_lt hj hi
    _ = elements n t * t := Nat.mul_comm _ _
    _ ≤ n := Nat.div_mul_le_self n t

/-- Position `i` of plane `j` lies in the buffer (R100). -/
theorem plane_position_lt {n t i j : Nat} (hi : i < elements n t) (hj : j < t) : j * elements n t + i < n :=
  Nat.lt_of_lt_of_le (plane_lt hi hj) (Nat.div_mul_le_self n t)

/-! ## The index maps of R102 and R103 -/

theorem byteUnshuffleIndex_byteShuffleIndex (n t p : Nat) : byteUnshuffleIndex n t (byteShuffleIndex n t p) = p := by
  by_cases h : p < elements n t * t
  · obtain ⟨j, i, hi, hj, rfl⟩ := plane_of_lt h
    rw [byteShuffleIndex_plane hi hj, byteUnshuffleIndex_element hi hj]
  · obtain ⟨hs, hu⟩ := byteShuffleIndex_tail (Nat.not_lt.1 h)
    rw [hs, hu]

theorem byteShuffleIndex_byteUnshuffleIndex (n t p : Nat) : byteShuffleIndex n t (byteUnshuffleIndex n t p) = p := by
  by_cases h : p < elements n t * t
  · obtain ⟨i, j, hi, hj, rfl⟩ := element_of_lt h
    rw [byteUnshuffleIndex_element hi hj, byteShuffleIndex_plane hi hj]
  · obtain ⟨hs, hu⟩ := byteShuffleIndex_tail (Nat.not_lt.1 h)
    rw [hu, hs]

theorem byteShuffleIndex_lt {n t p : Nat} (hp : p < n) : byteShuffleIndex n t p < n := by
  by_cases h : p < elements n t * t
  · obtain ⟨j, i, hi, hj, rfl⟩ := plane_of_lt h
    rw [byteShuffleIndex_plane hi hj]
    exact element_position_lt hi hj
  · rwa [(byteShuffleIndex_tail (Nat.not_lt.1 h)).1]

theorem byteUnshuffleIndex_lt {n t p : Nat} (hp : p < n) : byteUnshuffleIndex n t p < n := by
  by_cases h : p < elements n t * t
  · obtain ⟨i, j, hi, hj, rfl⟩ := element_of_lt h
    rw [byteUnshuffleIndex_element hi hj]
    exact plane_position_lt hi hj
  · rwa [(byteShuffleIndex_tail (Nat.not_lt.1 h)).2]

/-! ## Degenerate shapes (R101) -/

section
variable {s : List Byte} {t : Nat} (hd : degenerate s.length t = true)
include hd

theorem byteShuffle_of_degenerate : byteShuffle s t = s := if_pos hd
theorem byteUnshuffle_of_degenerate : byteUnshuffle s t = s := if_pos hd
theorem bitShuffle_of_degenerate : bitShuffle s t = s := if_pos hd
theorem bitUnshuffle_of_degenerate : bitUnshuffle s t = s := if_pos hd

end

/-! ## The bytes of the output on any other shape -/

section
variable {s : List Byte} {t : Nat} (hd : ¬ degenerate s.length t = true)
include hd

/-- R102 at output position `p`. -/
theorem byteAt_byteShuffle {p : Nat} (hp : p < s.length) :
    byteAt (byteShuffle s t) p = byteAt s (byteShuffleIndex s.length t p) := by
  rw [byteShuffle, if_neg hd, byteAt_rebuild _ hp]

/-- R103 at output position `p`. -/
theorem byteAt_byteUnshuffle {p : Nat} (hp : p < s.length) :
    byteAt (byteUnshuffle s t) p = byteAt s (byteUnshuffleIndex s.length t p) := by
  rw [byteUnshuffle, if_neg hd, byteAt_rebuild _ hp]

/-- R105: byte `m` of the transpose of the eight bytes at position `j` of group `g`. -/
theorem byteAt_bitShuffle_group {g j m : Nat} (hg : g < groups s.length t) (hj : j < t) (hm : m < 8) :
    byteAt (bitShuffle s t) (g * 8 * t + j * 8 + m) = tr8 (fun k => byteAt s (g * 8 * t + k * t + j)) m := by
  rw [bitShuffle, if_neg hd, byteAt_rebuild _ (shuffled_position_lt hg hj hm), Nat.mul_assoc, Nat.add_assoc,
    bitShuffleByte_group hg hj hm]

/-- R106: byte `k` of the transpose of the eight bytes at `g*8*T + j*8`. -/
theorem byteAt_bitUnshuffle_group {g j k : Nat} (hg : g < groups s.length t) (hj : j < t) (hk : k < 8) :
    byteAt (bitUnshuffle s t) (g * 8 * t + k * t + j) = tr8 (fun m => byteAt s (g * 8 * t + j * 8 + m)) k := by
  rw [bitUnshuffle, if_neg hd, byteAt_rebuild _ (element_in_group_lt hg hj hk), Nat.mul_assoc, Nat.add_assoc,
    bitUnshuffleByte_group hg hj hk]

/-- The bytes from `G*8*T` on pass through both bit transforms. -/
theorem byteAt_bitTransforms_tail {p : Nat} (hp : groups s.length t * 8 * t ≤ p) (hlt : p < s.length) :
    byteAt (bitShuffle s t) p = byteAt s p ∧ byteAt (bitUnshuffle s t) p = byteAt s p := by
  rw [bitShuffle, bitUnshuffle, if_neg hd, if_neg hd, byteAt_rebuild _ hlt, byteAt_rebuild _ hlt]
  exact bitShuffleByte_tail (Nat.mul_assoc _ 8 t ▸ hp)

end

/-! ## Round trips (R108) -/

theorem byteUnshuffle_byteShuffle (s : List Byte) (t : Nat) : byteUnshuffle (byteShuffle s t) t = s := by
  by_cases hd : degenerate s.length t = true
  · rw [byteShuffle_of_degenerate hd, byteUnshuffle_of_degenerate hd]
  · have hd' : ¬ degenerate (byteShuffle s t).length t = true := by rwa [length_byteShuffle]
    refine ext_byteAt (by simp) fun p hp => ?_
    simp only [length_byteUnshuffle, length_byteShuffle] at hp
    rw [byteAt_byteUnshuffle hd' (by simpa using hp), length_byteShuffle,
      byteAt_byteShuffle hd (byteUnshuffleIndex_lt hp), byteShuffleIndex_byteUnshuffleIndex]

theorem bitUnshuffle_bitShuffle (s : List Byte) (t : Nat) : bitUnshuffle (bitShuffle s t) t = s := by
  by_cases hd : degenerate s.length t = true
  · rw [bitShuffle_of_degenerate hd, bitUnshuffle_of_degenerate hd]
  · have hd' : ¬ degenerate (bitShuffle s t).length t = true := by rwa [length_bitShuffle]
    refine ext_byteAt (by simp) fun p hp => ?_
    simp only [length_bitUnshuffle, length_bitShuffle] at hp
    by_cases h : p < groups s.length t * 8 * t
    · rw [Nat.mul_assoc] at h
      obtain ⟨g, r, hg, hr, rfl⟩ := element_of_lt h
      obtain ⟨k, j, hk, hj, rfl⟩ := element_of_lt hr
      rw [← Nat.mul_assoc, ← Nat.add_assoc, byteAt_bitUnshuffle_group hd' (by rwa [length_bitShuffle]) hj hk,
        tr8_congr (fun m hm => byteAt_bitShuffle_group hd hg hj hm) k]
      exact tr8_tr8 (fun k => byteAt s (g * 8 * t + k * t + j)) hk
    · rw [(byteAt_bitTransforms_tail hd' (by simpa using h) (by simpa using hp)).2,
        (byteAt_bitTransforms_tail hd (by simpa using h) hp).1]

/-- There are finitely many sequences of one length, so an inverse of a length-keeping map undoes it in both orders. -/
theorem rightInverse_of_leftInverse {f g : List Byte → List Byte} (hlen : ∀ s, (f s).length = s.length)
    (h : Function.LeftInverse g f) : Function.RightInverse g f := by
  intro s
  have hfin : {u : List Byte | u.length = s.length}.Finite := List.finite_length_eq ..
  have hbij := (hfin.injOn_iff_bijOn_of_mapsTo fun u hu => (hlen u).trans hu).1 h.injective.injOn
  obtain ⟨u, -, hu⟩ := hbij.surjOn rfl
  rw [← hu, h u]

theorem byteShuffle_byteUnshuffle (s : List Byte) (t : Nat) : byteShuffle (byteUnshuffle s t) t = s :=
  rightInverse_of_leftInverse (f := (byteShuffle · t)) (g := (byteUnshuffle · t)) (length_byteShuffle · t)
    (byteUnshuffle_byteShuffle · t) s

theorem bitShuffle_bitUnshuffle (s : List Byte) (t : Nat) : bitShuffle (bitUnshuffle s t) t = s :=
  rightInverse_of_leftInverse (f := (bitShuffle · t)) (g := (bitUnshuffle · t)) (length_bitShuffle · t)
    (bitUnshuffle_bitShuffle · t) s

theorem inverse_forward (mode : Mode) (s : List Byte) (t : Nat) : inverse mode (forward mode s t) t = s := by
  cases mode with
  | noShuffle => rfl
  | byteShuffle => exact byteUnshuffle_byteShuffle s t
  | bitShuffle => exact bitUnshuffle_bitShuffle s t

/-! ## The byte shuffle permutes (R118) -/

/-- A one-to-one index map on the positions permutes them. -/
theorem perm_map_range {n : Nat} {f : Nat → Nat} (hinj : f.Injective) (hlt : ∀ p, p < n → f p < n) :
    ((List.range n).map f).Perm (List.range n) := by
  have hsub : (List.range n).map f ⊆ List.range n := by
    intro q hq
    obtain ⟨p, hp, rfl⟩ := List.mem_map.1 hq
    exact List.mem_range.2 (hlt p (List.mem_range.1 hp))
  exact (List.subperm_of_subset (List.nodup_range.map hinj) hsub).perm_of_length_le (by simp)

/-- Rebuilding from a sequence's own bytes copies it. -/
theorem rebuild_byteAt (s : List Byte) : rebuild s (byteAt s) = s :=
  ext_byteAt (length_rebuild ..) fun _ hp => byteAt_rebuild _ (by rwa [length_rebuild] at hp)

theorem perm_byteShuffle (s : List Byte) (t : Nat) : (byteShuffle s t).Perm s := by
  by_cases hd : degenerate s.length t = true
  · rw [byteShuffle_of_degenerate hd]
  · have hperm : ((List.range s.length).map (byteShuffleIndex s.length t)).Perm (List.range s.length) :=
      perm_map_range (Function.LeftInverse.injective (byteUnshuffleIndex_byteShuffleIndex s.length t))
        fun _ => byteShuffleIndex_lt
    have h := hperm.map (byteAt s)
    rw [List.map_map] at h
    rw [byteShuffle, if_neg hd]
    exact h.trans (.of_eq (rebuild_byteAt s))

/-- One element: every plane holds one byte, which stays where it is. -/
theorem byteShuffle_of_length_eq {s : List Byte} {t : Nat} (h : s.length = t) : byteShuffle s t = s := by
  by_cases hd : degenerate s.length t = true
  · exact byteShuffle_of_degenerate hd
  · have he : elements s.length t = 1 := by
      rw [elements, h]
      exact Nat.div_self (by have := (not_degenerate hd).1; omega)
    refine ext_byteAt (length_byteShuffle ..) fun p hp => ?_
    rw [length_byteShuffle] at hp
    rw [byteAt_byteShuffle hd hp]
    simp [byteShuffleIndex, he, Nat.mod_one]

end Sys2Proof.Machine
end

section
/-! SUPPORT. The transforms against the relations of the statements (R101 to R106, R114): functions that read as a sequence
and as its transform are related byte by byte, bit by bit. -/

namespace Sys2Proof.Machine

open Spec

/-- A function on positions whose first values are the bytes of a sequence. -/
def ReadsAs (f : Nat → Byte) (s : List Byte) : Prop := ∀ p, p < s.length → f p = byteAt s p

/-- A transform of byte sequences keeps the length, and on `n` bytes it relates what reads as its input to what reads as its
output. -/
structure Realizes (f : List Byte → List Byte) (n : Nat) (rel : (Nat → Byte) → (Nat → Byte) → Prop) : Prop where
  length : ∀ s, (f s).length = s.length
  rel : ∀ s inp out, s.length = n → ReadsAs inp s → ReadsAs out (f s) → rel inp out

theorem copied_of_readsAs {s : List Byte} {inp out : Nat → Byte} (hin : ReadsAs inp s) (hout : ReadsAs out s) :
    Copied s.length inp out := fun p hp => (hout p hp).trans (hin p hp).symm

theorem realizes_copy (n : Nat) : Realizes id n (Copied n) where
  length _ := rfl
  rel := by
    rintro s inp out rfl hin hout
    exact copied_of_readsAs hin hout

/-- A transform that another one undoes realizes the other's relation read backwards. -/
theorem Realizes.of_rightInverse {f g : List Byte → List Byte} {n : Nat} {rel rel' : (Nat → Byte) → (Nat → Byte) → Prop}
    (hf : Realizes f n rel) (hlen : ∀ s, (g s).length = s.length) (hfg : ∀ s, f (g s) = s)
    (hrel : ∀ {inp out}, rel inp out → rel' out inp) : Realizes g n rel' where
  length := hlen
  rel s inp out hn hin hout := hrel (hf.rel (g s) out inp ((hlen s).trans hn) hout ((hfg s).symm ▸ hin))

/-- The map of R103 is that of R102 read backwards. -/
theorem byteUnshuffled_of_byteShuffled {n t : Nat} {inp out : Nat → Byte} (h : ByteShuffled n t inp out) :
    ByteUnshuffled n t out inp := by
  obtain ⟨hcopy, hmove⟩ := h
  refine ⟨fun hd p hp => (hcopy hd p hp).symm, fun hd => ?_⟩
  obtain ⟨hregion, htail⟩ := hmove hd
  exact ⟨fun i j hi hj => (hregion i j hi hj).symm, fun p hle hp => (htail p hle hp).symm⟩

/-- The map of R106 is that of R105 read backwards. -/
theorem bitUnshuffled_of_bitShuffled {n t : Nat} {inp out : Nat → Byte} (h : BitShuffled n t inp out) :
    BitUnshuffled n t out inp := by
  obtain ⟨hcopy, hmove⟩ := h
  refine ⟨fun hd p hp => (hcopy hd p hp).symm, fun hd => ?_⟩
  obtain ⟨hregion, htail⟩ := hmove hd
  exact ⟨fun g j m k hg hj hm hk => (hregion g j m k hg hj hm hk).symm, fun p hle hp => (htail p hle hp).symm⟩

theorem realizes_byteShuffle (n t : Nat) : Realizes (fun s => byteShuffle s t) n (ByteShuffled n t) where
  length s := length_byteShuffle s t
  rel := by
    rintro s inp out rfl hin hout
    refine ⟨fun hd => ?_, fun hd => ?_⟩
    · rw [byteShuffle_of_degenerate (degenerate_iff.2 hd)] at hout
      exact copied_of_readsAs hin hout
    · have hbyte (p : Nat) (hp : p < s.length) : out p = inp (byteShuffleIndex s.length t p) := by
        rw [hout p (by rwa [length_byteShuffle]), byteAt_byteShuffle (mt degenerate_iff.1 hd) hp,
          hin _ (byteShuffleIndex_lt hp)]
      exact ⟨fun i j hi hj => (hbyte _ (plane_position_lt hi hj)).trans (congrArg inp (byteShuffleIndex_plane hi hj)),
        fun p hle hp => (hbyte p hp).trans (congrArg inp (byteShuffleIndex_tail hle).1)⟩

theorem realizes_byteUnshuffle (n t : Nat) : Realizes (fun s => byteUnshuffle s t) n (ByteUnshuffled n t) :=
  (realizes_byteShuffle n t).of_rightInverse (length_byteUnshuffle · t) (byteShuffle_byteUnshuffle · t)
    byteUnshuffled_of_byteShuffled

theorem realizes_bitShuffle (n t : Nat) : Realizes (fun s => bitShuffle s t) n (BitShuffled n t) where
  length s := length_bitShuffle s t
  rel := by
    rintro s inp out rfl hin hout
    refine ⟨fun hd => ?_, fun hd => ⟨fun g j m k hg hj hm hk => ?_, fun p hle hp => ?_⟩⟩
    · rw [bitShuffle_of_degenerate (degenerate_iff.2 hd)] at hout
      exact copied_of_readsAs hin hout
    · rw [hout _ (by rw [length_bitShuffle]; exact shuffled_position_lt hg hj hm), hin _ (element_in_group_lt hg hj hk),
        byteAt_bitShuffle_group (mt degenerate_iff.1 hd) hg hj hm, getLsbD_tr8 _ _ hk]
    · rw [hout _ (by rwa [length_bitShuffle]), hin p hp, (byteAt_bitTransforms_tail (mt degenerate_iff.1 hd) hle hp).1]

theorem realizes_bitUnshuffle (n t : Nat) : Realizes (fun s => bitUnshuffle s t) n (BitUnshuffled n t) :=
  (realizes_bitShuffle n t).of_rightInverse (length_bitUnshuffle · t) (bitShuffle_bitUnshuffle · t)
    bitUnshuffled_of_bitShuffled

theorem realizes_forward (mode : Mode) (n t : Nat) : Realizes (fun s => forward mode s t) n (Forwarded mode n t) := by
  cases mode with
  | noShuffle => exact realizes_copy n
  | byteShuffle => exact realizes_byteShuffle n t
  | bitShuffle => exact realizes_bitShuffle n t

theorem realizes_inverse (mode : Mode) (n t : Nat) : Realizes (fun s => inverse mode s t) n (Inverted mode n t) := by
  cases mode with
  | noShuffle => exact realizes_copy n
  | byteShuffle => exact realizes_byteUnshuffle n t
  | bitShuffle => exact realizes_bitUnshuffle n t

end Sys2Proof.Machine
end

section
/-! SUPPORT. The permutation commands (R110 to R117): the success end of the shared body, what its store leaves in memory, and
a read of a stored range. -/

namespace Sys2Proof.Machine

open Spec

/-! ## Memory -/

theorem readsAs_memRead (m : Memory) (a n : Nat) : ReadsAs (bytesFrom m a) (memRead m a n) := fun p hp => by
  rw [length_memRead] at hp
  exact (getD_memRead m a hp).symm

theorem readsAs_memWrite {m : Memory} (h : m.wf = true) (a : Nat) (bs : List Byte) :
    ReadsAs (bytesFrom (memWrite m a bs) a) bs := fun _ hp => memByte_memWrite_offset h a hp

/-- A stored range reads back as the sequence stored. -/
theorem memRead_memWrite {m : Memory} (h : m.wf = true) (a : Nat) {bs : List Byte} {n : Nat} (hn : bs.length = n) :
    memRead (memWrite m a bs) a n = bs := by
  subst hn
  refine ext_byteAt (length_memRead ..) fun p hp => ?_
  rw [length_memRead] at hp
  exact (getD_memRead _ a hp).trans (memByte_memWrite_offset h a hp)

/-- Overwriting a range and storing its old bytes again restores the whole memory. -/
theorem memWrite_memWrite_memRead {m : Memory} (h : m.wf = true) (a : Nat) {bs : List Byte} {n : Nat}
    (hn : bs.length = n) : memWrite (memWrite m a bs) a (memRead m a n) = m := by
  have h' := wf_memWrite a bs h
  refine memory_ext (wf_memWrite _ _ h') h fun x => ?_
  rw [memByte_memWrite _ _ _ h', memByte_memWrite _ _ _ h, length_memRead, hn]
  by_cases hx : a ≤ x ∧ x < a + n
  · rw [if_pos hx, getD_memRead m a (by omega), Nat.add_sub_cancel' hx.1]
  · rw [if_neg hx, if_neg hx]

/-- What a realized transform from one range to another leaves in memory. -/
theorem Realizes.stored {f : List Byte → List Byte} {n : Nat} {rel : (Nat → Byte) → (Nat → Byte) → Prop}
    (hf : Realizes f n rel) {m : Memory} (h : m.wf = true) (src dst : Nat) :
    rel (bytesFrom m src) (bytesFrom (memWrite m dst (f (memRead m src n))) dst) ∧
    SameOutside m (memWrite m dst (f (memRead m src n))) dst n := by
  have hlen : (f (memRead m src n)).length = n := (hf.length _).trans (length_memRead ..)
  refine ⟨hf.rel _ _ _ (length_memRead ..) (readsAs_memRead m src n) (readsAs_memWrite h dst _), ?_⟩
  have := sameOutside_memWrite h dst (f (memRead m src n))
  rwa [hlen] at this

/-! ## Commands -/

/-- The success end of a permutation command (R117). -/
theorem runCommand_permuteTo {r : Ranges} {s : State} (h : rangeFault s.params.memSize r = none)
    (f : List Byte → List Byte) (src len target : Word) :
    runCommand r s (permuteTo f src len target) =
      .next (success s (memWrite s.mem target.toNat (f (memRead s.mem src.toNat len.toNat))) len s.res1 s.hdrLo
        s.hdrHi) :=
  runCommand_ok (body := permuteTo f src len target) h rfl

section
variable {i : Instr} {f : List Byte → List Byte} {src len dst : Word} {rel : (Nat → Byte) → (Nat → Byte) → Prop}

/-- A command that runs a realized transform between two ranges is the out-of-place transform command of R117. -/
theorem transformsTo_of_realizes
    (hexec : ∀ s, exec i s = runCommand (rangesSrcDst src len dst) s (permuteTo f src len dst))
    (hf : Realizes f len.toNat rel) : TransformsTo i src len dst rel := by
  intro s hm
  have hfault := rangeFault_srcDst s.params.memSize src len dst
  refine ⟨⟨fun hfit => ?_, fun hsrc hdst hover => ?_⟩, fun hsrc hdst hover => ⟨_, ?_, hf.stored hm ..⟩⟩
  · exact (hexec s).trans (runCommand_fault (hfault.trans (if_neg hfit)))
  · rw [if_pos ⟨hsrc, hdst⟩, if_pos hover] at hfault
    exact (hexec s).trans (runCommand_fault hfault)
  · rw [if_pos ⟨hsrc, hdst⟩, if_neg hover] at hfault
    exact (hexec s).trans (runCommand_permuteTo hfault ..)

/-- A command that runs a realized transform over one range is the in-place transform command of R117. -/
theorem transformsInPlace_of_realizes
    (hexec : ∀ s, exec i s = runCommand (rangesSrc src len) s (permuteTo f src len src))
    (hf : Realizes f len.toNat rel) : TransformsInPlace i src len rel := by
  intro s hm
  have hfault := rangeFault_src s.params.memSize src len
  refine ⟨fun hfit => ?_, fun hfit => ⟨_, ?_, hf.stored hm ..⟩⟩
  · exact (hexec s).trans (runCommand_fault (hfault.trans (if_neg hfit)))
  · exact (hexec s).trans (runCommand_permuteTo (hfault.trans (if_pos hfit)) ..)

end

/-- SHUFIP on a buffer in memory (R115). -/
theorem exec_shufip_of_fits {s : State} {src len : Word} (h : Fits s src.toNat len.toNat) (mode : Mode)
    (ts : BitVec 32) :
    exec (.shufip mode ts src len) s =
      .next (success s (memWrite s.mem src.toNat (forward mode (memRead s.mem src.toNat len.toNat) ts.toNat)) len
        s.res1 s.hdrLo s.hdrHi) :=
  runCommand_permuteTo ((rangeFault_src ..).trans (if_pos h)) (fun b => forward mode b ts.toNat) src len src

/-- UNSHUFIP on a buffer in memory (R116). -/
theorem exec_unshufip_of_fits {s : State} {src len : Word} (h : Fits s src.toNat len.toNat) (mode : Mode)
    (ts : BitVec 32) :
    exec (.unshufip mode ts src len) s =
      .next (success s (memWrite s.mem src.toNat (inverse mode (memRead s.mem src.toNat len.toNat) ts.toNat)) len
        s.res1 s.hdrLo s.hdrHi) :=
  runCommand_permuteTo ((rangeFault_src ..).trans (if_pos h)) (fun b => inverse mode b ts.toNat) src len src

/-- Every command answers a next state. -/
theorem exec_total (i : Instr) (s : State) : ∃ t, exec i s = .next t := by
  rw [exec_eq]
  split
  · split
    · exact ⟨_, rfl⟩
    · split <;> exact ⟨_, rfl⟩
  · exact ⟨_, rfl⟩

/-- `CAP.SIMD` is no input of any command (R1, R109). -/
theorem agreeFor_setSimd (i : Instr) (s : State) (b : Bool) : AgreeFor i s { s with simd := b } :=
  ⟨rfl, fun _ => ⟨rfl, rfl, rfl, rfl⟩, fun _ _ _ _ _ => rfl⟩

end Sys2Proof.Machine
end

section
/-! The obligations of the permutation family. -/

open Sys2Proof Sys2Proof.Machine Sys2Proof.Spec

/-- Settles O5: a format P descriptor whose body is the byte shuffle. -/
theorem shufRearrangesBytes : Obligations.ShufRearrangesBytes :=
  ⟨decodesP_of_buildInstr (op := .shuf) rfl fun _ => rfl,
    fun ts _ len _ => transformsTo_of_realizes (fun _ => rfl) (realizes_byteShuffle len.toNat ts.toNat)⟩

/-- Settles O6: a format P descriptor whose body is the inverse byte shuffle. -/
theorem unshufRestoresOrder : Obligations.UnshufRestoresOrder :=
  ⟨decodesP_of_buildInstr (op := .unshuf) rfl fun _ => rfl,
    fun ts _ len _ => transformsTo_of_realizes (fun _ => rfl) (realizes_byteUnshuffle len.toNat ts.toNat)⟩

/-- Settles O7: a format P descriptor whose body is the bit shuffle. -/
theorem bshufTransposesBits : Obligations.BshufTransposesBits :=
  ⟨decodesP_of_buildInstr (op := .bshuf) rfl fun _ => rfl,
    fun ts _ len _ => transformsTo_of_realizes (fun _ => rfl) (realizes_bitShuffle len.toNat ts.toNat)⟩

/-- Settles O8: a format P descriptor whose body is the inverse bit shuffle. -/
theorem bunshufTransposesBack : Obligations.BunshufTransposesBack :=
  ⟨decodesP_of_buildInstr (op := .bunshuf) rfl fun _ => rfl,
    fun ts _ len _ => transformsTo_of_realizes (fun _ => rfl) (realizes_bitUnshuffle len.toNat ts.toNat)⟩

/-- Settles O9: a format I descriptor whose body is the forward transform of its mode. -/
theorem shufipTransformsInPlace : Obligations.ShufipTransformsInPlace :=
  ⟨decodesI_of_buildInstr (op := .shufip) rfl fun _ => rfl,
    fun mode ts _ len => transformsInPlace_of_realizes (fun _ => rfl) (realizes_forward mode len.toNat ts.toNat)⟩

/-- Settles O10: after SHUFIP the buffer reads as the transformed sequence, whose inverse is the sequence before (R108), and
storing that restores the memory. -/
theorem unshufipUndoesShufip : Obligations.UnshufipUndoesShufip := by
  refine ⟨decodesI_of_buildInstr (op := .unshufip) rfl fun _ => rfl,
    fun mode ts _ len => transformsInPlace_of_realizes (fun _ => rfl) (realizes_inverse mode len.toNat ts.toNat), ?_⟩
  intro mode ts src len s t hm hfit ht
  rw [exec_shufip_of_fits hfit] at ht
  cases ht
  have hlen : (forward mode (memRead s.mem src.toNat len.toNat) ts.toNat).length = len.toNat := by
    rw [length_forward, length_memRead]
  rw [exec_unshufip_of_fits (show Fits (success s _ len s.res1 s.hdrLo s.hdrHi) src.toNat len.toNat from hfit)]
  simp only [success, memRead_memWrite hm _ hlen, inverse_forward, memWrite_memWrite_memRead hm _ hlen]

/-- Settles O11: the transpose moves bit `7-m` of byte `k` to bit `7-k` of byte `m`, and twice that is where it was. -/
theorem bitTransposeIsSelfInverse : Obligations.BitTransposeIsSelfInverse := fun b =>
  ⟨fun m _ _ hk => getLsbD_tr8 b m hk, fun _ hk => tr8_tr8 b hk⟩

/-- Settles O13: the index maps are inverse to each other and the bit transpose to itself, a left inverse on the sequences of
one length is a right inverse, and where the forward shuffle is the identity, the round trip says the same of its inverse. -/
theorem transformsRoundTrip : Obligations.TransformsRoundTrip := by
  refine fun s t => ⟨byteUnshuffle_byteShuffle s t, bitUnshuffle_bitShuffle s t, byteShuffle_byteUnshuffle s t,
    bitShuffle_bitUnshuffle s t, fun hid => ?_⟩
  have h := byteUnshuffle_byteShuffle s t
  rwa [hid] at h

/-- Settles O14: the index map of R102 is one-to-one on the positions. -/
theorem byteShufflePermutes : Obligations.ByteShufflePermutes := fun s t =>
  ⟨perm_byteShuffle s t, byteShuffle_of_length_eq⟩

/-- Settles O42: the flag is no input, so the command ends alike from both states; no end writes it. -/
theorem simdFlagIsInvisible : Obligations.SimdFlagIsInvisible := by
  intro i s t b ht
  obtain ⟨t', ht'⟩ := exec_total i { s with simd := b }
  rcases exec_ends_alike (agreeFor_setSimd i s b) ht ht' with ⟨c, rfl, rfl⟩ | ⟨k, -, rfl, rfl⟩ | ⟨e, -, rfl, rfl⟩ <;>
    exact ht'

/-- Settles O12: each transform rebuilds or copies its input (R107). -/
theorem transformsKeepLength : Obligations.TransformsKeepLength := fun s t =>
  ⟨length_byteShuffle s t, length_byteUnshuffle s t, length_bitShuffle s t, length_bitUnshuffle s t⟩

end

section
/-! SUPPORT. The packing of a header (R131, R137, R148): numbers and their little-endian bytes determine each other at full
width, so fields, bytes and words carry the same 128 bits; and `parse` by its tests (R135). -/

namespace Sys2Proof.Machine

/-! ## Little-endian numbers at full width -/

section
variable {w n : Nat}

theorem ofNat_le_bytesLe (h : 2 ^ w = 256 ^ n) (v : BitVec w) : BitVec.ofNat w (le (bytesLe v.toNat n)) = v := by
  apply BitVec.eq_of_toNat_eq
  rw [BitVec.toNat_ofNat, le_bytesLe, ← h, Nat.mod_mod, Nat.mod_eq_of_lt v.isLt]

theorem toNat_ofNat_le (h : 2 ^ w = 256 ^ n) {s : List Byte} (hs : s.length = n) :
    (BitVec.ofNat w (le s)).toNat = le s := by
  rw [BitVec.toNat_ofNat, Nat.mod_eq_of_lt (h ▸ hs ▸ le_lt s)]

theorem bytesLe_ofNat_le (h : 2 ^ w = 256 ^ n) {s : List Byte} (hs : s.length = n) :
    bytesLe (BitVec.ofNat w (le s)).toNat n = s := by
  rw [toNat_ofNat_le h hs, ← hs, bytesLe_le]

end

/-! ## Slices -/

theorem slice_append_left {s t : List Byte} {n : Nat} (h : s.length = n) : slice (s ++ t) 0 n = s := by
  simp [slice, ← h]

theorem slice_append_right {s t : List Byte} {a b : Nat} (ha : s.length = a) (hb : s.length + t.length = b) :
    slice (s ++ t) a b = t := by
  simp [slice, ← ha, ← hb]

/-- Two adjoining slices are the slice of both ranges. -/
theorem slice_append_slice (s : List Byte) {a b c : Nat} (hab : a ≤ b) (hbc : b ≤ c) :
    slice s a b ++ slice s b c = slice s a c := by
  have hdrop : (s.drop a).drop (b - a) = s.drop b := by rw [List.drop_drop, Nat.add_sub_cancel' hab]
  rw [slice, slice, slice, ← hdrop, ← List.take_add]
  congr 1
  omega

theorem slice_length (s : List Byte) : slice s 0 s.length = s := by simp [slice]

/-- The first four bytes are the four byte fields (R131). -/
theorem slice_zero_four {s : List Byte} (h : 4 ≤ s.length) :
    slice s 0 4 = [s.getD 0 0, s.getD 1 0, s.getD 2 0, s.getD 3 0] := by
  match s, h with
  | _ :: _ :: _ :: _ :: _, _ => simp [slice]

/-! ## Fields and bytes (R131, R137) -/

theorem hdrBytes_hdrFields {s : List Byte} (h : s.length = 16) : hdrBytes (hdrFields s) = s := by
  have hnumber {a b : Nat} (hb : b ≤ 16) (hab : b - a = 4) :
      bytesLe (BitVec.ofNat 32 (le (slice s a b))).toNat 4 = slice s a b :=
    bytesLe_ofNat_le (by norm_num) ((length_slice (h ▸ hb)).trans hab)
  calc hdrBytes (hdrFields s)
      = slice s 0 4 ++ slice s 4 8 ++ slice s 8 12 ++ slice s 12 16 := by
        rw [slice_zero_four (by omega), hdrBytes, hdrFields, hnumber (by omega) (by omega),
          hnumber (by omega) (by omega), hnumber (by omega) (by omega)]
    _ = s := by
        rw [slice_append_slice s (by omega) (by omega), slice_append_slice s (by omega) (by omega),
          slice_append_slice s (by omega) (by omega), ← h, slice_length]

/-- Where the number fields stand among the bytes (R131). -/
theorem slice_hdrBytes (h : Header) :
    slice (hdrBytes h) 4 8 = bytesLe h.nBytesOrig.toNat 4 ∧ slice (hdrBytes h) 8 12 = bytesLe h.blockSize.toNat 4 ∧
    slice (hdrBytes h) 12 16 = bytesLe h.nBytesComp.toNat 4 := ⟨rfl, rfl, rfl⟩

theorem hdrFields_hdrBytes (h : Header) : hdrFields (hdrBytes h) = h := by
  have hnumber (v : BitVec 32) : BitVec.ofNat 32 (le (bytesLe v.toNat 4)) = v := ofNat_le_bytesLe (by norm_num) v
  obtain ⟨horig, hblock, hcomp⟩ := slice_hdrBytes h
  rw [hdrFields, horig, hblock, hcomp, hnumber, hnumber, hnumber]
  rfl

/-! ## Words and bytes (R71, R148) -/

theorem slice_immediateBytes_low (lo hi : Word) : slice (immediateBytes lo hi) 0 8 = bytesLe lo.toNat 8 :=
  slice_append_left (length_bytesLe ..)

theorem slice_immediateBytes_high (lo hi : Word) : slice (immediateBytes lo hi) 8 16 = bytesLe hi.toNat 8 :=
  slice_append_right (length_bytesLe ..) (by simp)

theorem hdrWords_immediateBytes (lo hi : Word) : hdrWords (immediateBytes lo hi) = (lo, hi) := by
  rw [hdrWords, slice_immediateBytes_low, slice_immediateBytes_high, ofNat_le_bytesLe (by norm_num),
    ofNat_le_bytesLe (by norm_num)]

theorem immediateBytes_hdrWords {s : List Byte} (h : s.length = 16) :
    immediateBytes (hdrWords s).1 (hdrWords s).2 = s := by
  rw [immediateBytes, hdrWords, bytesLe_ofNat_le (by norm_num) (length_slice (by omega)),
    bytesLe_ofNat_le (by norm_num) (length_slice (by omega)), slice_append_slice s (by omega) (by omega), ← h,
    slice_length]

/-- The first byte of an immediate, its `Version`, is the low byte of the low word. -/
theorem toNat_getD_zero_immediateBytes (lo hi : Word) : ((immediateBytes lo hi).getD 0 0).toNat = lo.toNat % 256 := by
  simp [immediateBytes, bytesLe]

/-! ## Parsing (R135) -/

theorem getD_zero_eq_iff {s : List Byte} (h : 0 < s.length) (b : Byte) : s.getD 0 0 = b ↔ s.head? = some b := by
  match s, h with
  | _ :: _, _ => simp

section
variable {s : List Byte}

theorem parse_of_length_lt (h : s.length < 16) : parse s = .error .invalidHeader := if_pos h

theorem parse_of_version_ne (h : 16 ≤ s.length) (hv : s.head? ≠ some 2#8) : parse s = .error .invalidVersion := by
  rw [parse, if_neg (by omega), if_pos (mt (getD_zero_eq_iff (by omega) _).1 hv)]

theorem parse_of_version_eq (h : 16 ≤ s.length) (hv : s.head? = some 2#8) : parse s = .ok (hdrFields (s.take 16)) := by
  rw [parse, if_neg (by omega), if_neg (not_not.2 ((getD_zero_eq_iff (by omega) _).2 hv))]
  rfl

/-- What parses has at least 16 bytes, and its header is the fields of the first 16. -/
theorem parse_eq_ok {h : Header} (hp : parse s = .ok h) : 16 ≤ s.length ∧ h = hdrFields (s.take 16) := by
  by_cases hl : s.length < 16
  · rw [parse_of_length_lt hl] at hp
    cases hp
  · by_cases hv : s.head? = some 2#8
    · rw [parse_of_version_eq (by omega) hv] at hp
      cases hp
      exact ⟨by omega, rfl⟩
    · rw [parse_of_version_ne (by omega) hv] at hp
      cases hp

theorem parse_serialize {h : Header} (hv : h.version = 2#8) : parse (serialize h) = .ok h := by
  have hlen : (hdrBytes h).length = 16 := length_hdrBytes h
  have hhead : (hdrBytes h).head? = some 2#8 := congrArg some hv
  rw [serialize, parse_of_version_eq hlen.ge hhead, List.take_of_length_le hlen.le, hdrFields_hdrBytes]

theorem serialize_of_parse {h : Header} (hp : parse s = .ok h) : serialize h = s.take 16 := by
  obtain ⟨hl, rfl⟩ := parse_eq_ok hp
  exact hdrBytes_hdrFields (by rw [List.length_take, Nat.min_eq_left hl])

end

end Sys2Proof.Machine
end

section
/-! SUPPORT. The header commands (R138 to R144): what a command whose ranges are clear answers, the two errors of a header
read, the numbers in memory as the statements read them, and what HSER leaves at its destination. -/

namespace Sys2Proof.Machine

open Spec

/-! ## Numbers in memory (R40) -/

theorem memRead_succ (m : Memory) (a n : Nat) : memRead m a (n + 1) = memRead m a n ++ [memByte m (a + n)] := by
  simp [memRead, List.range_succ]

theorem le_memRead (m : Memory) (a n : Nat) : le (memRead m a n) = numberAt m a n := by
  induction n with
  | zero => rfl
  | succ n ih =>
    rw [memRead_succ, le_append, ih, length_memRead, numberAt, le, le, Nat.mul_zero, Nat.add_zero, Nat.mul_comm]

/-- A range that reads as the little-endian bytes of a number holds that number. -/
theorem holdsNumber_of_memRead {m : Memory} {a n v : Nat} (h : memRead m a n = bytesLe v n) : HoldsNumber m a n v :=
  fun k hk => by rw [← getD_memRead m a hk, h, getD_bytesLe hk]

/-- A range that reads as a header immediate holds its two words (R148). -/
theorem holdsNumber_of_memRead_immediateBytes {m : Memory} {a : Nat} {lo hi : Word}
    (h : memRead m a 16 = immediateBytes lo hi) :
    HoldsNumber m a 8 lo.toNat ∧ HoldsNumber m (a + 8) 8 hi.toNat := by
  have hlow : memRead m a 8 = bytesLe lo.toNat 8 := by
    rw [← slice_immediateBytes_low lo hi, ← h]
    exact (slice_memRead m a (Nat.zero_le 8) (Nat.le_add_left 8 8)).symm
  have hhigh : memRead m (a + 8) 8 = bytesLe hi.toNat 8 := by
    rw [← slice_immediateBytes_high lo hi, ← h]
    exact (slice_memRead m a (Nat.le_add_left 8 8) (Nat.le_refl 16)).symm
  exact ⟨holdsNumber_of_memRead hlow, holdsNumber_of_memRead hhigh⟩

/-- In a range that reads as a header immediate the version is 2 when the low byte of the low word is. -/
theorem version_eq_two_iff_of_memRead {m : Memory} {a : Nat} {lo hi : Word} (h : memRead m a 16 = immediateBytes lo hi) :
    memByte m a = 2#8 ↔ lo.toNat % 256 = 2 := by
  have hfirst : (memByte m a).toNat = lo.toNat % 256 := by
    rw [← toNat_getD_zero_immediateBytes lo hi, ← h, getD_memRead m a (by omega), Nat.add_zero]
  rw [BitVec.toNat_eq, hfirst]
  rfl

/-! ## The three ends of a well-formed command -/

section
variable {i : Instr} {s : State} (hwf : i.wf = true)
include hwf

theorem exec_of_rangeFault {c : FaultCode} (hr : rangeFault s.params.memSize (commandRanges i) = some c) :
    exec i s = .next (faultEnd s c) := by
  simp only [exec_eq, if_pos hwf, hr]
  rfl

theorem exec_of_error {k : ErrKind} (hr : rangeFault s.params.memSize (commandRanges i) = none)
    (he : Effect.of s i = .error k) : exec i s = .next (errorEnd s k) := by
  simp only [exec_eq, if_pos hwf, hr, he]
  rfl

theorem exec_of_effect {e : Effect} (hr : rangeFault s.params.memSize (commandRanges i) = none)
    (he : Effect.of s i = .ok e) : exec i s = .next (e.apply s).succeed := by
  simp only [exec_eq, if_pos hwf, hr, he]

theorem exec_of_answer {v : Word} (hr : rangeFault s.params.memSize (commandRanges i) = none)
    (he : Effect.of s i = .ok (.answer v)) : exec i s = .next (success s s.mem v s.res1 s.hdrLo s.hdrHi) :=
  exec_of_effect hwf hr he

theorem exec_of_hdr {w : Word × Word} (hr : rangeFault s.params.memSize (commandRanges i) = none)
    (he : Effect.of s i = .ok ⟨none, none, none, some w⟩) :
    exec i s = .next (success s s.mem s.res0 s.res1 w.1 w.2) :=
  exec_of_effect hwf hr he

theorem exec_of_store {a : Nat} {bs : List Byte} {v : Word}
    (hr : rangeFault s.params.memSize (commandRanges i) = none) (he : Effect.of s i = .ok (.store a bs v)) :
    exec i s = .next (success s (memWrite s.mem a bs) v s.res1 s.hdrLo s.hdrHi) :=
  exec_of_effect hwf hr he

end

/-! ## Reading a header (R135, R138, R144) -/

section
variable {m : Memory} {src len : Word}

theorem headerAt_of_lt (h : len.toNat < 16) : headerAt m src len = .error .invalidHeader := by
  rcases headerAt_cases m src len with ⟨-, he⟩ | ⟨hl, -⟩ | ⟨hl, -⟩
  · exact he
  · omega
  · omega

theorem headerAt_of_version_ne (h : 16 ≤ len.toNat) (hv : memByte m src.toNat ≠ 2#8) :
    headerAt m src len = .error .invalidVersion := by
  rcases headerAt_cases m src len with ⟨hl, -⟩ | ⟨-, -, he⟩ | ⟨-, hv', -⟩
  · omega
  · exact he
  · exact absurd hv' hv

theorem headerAt_of_version_eq (h : 16 ≤ len.toNat) (hv : memByte m src.toNat = 2#8) :
    headerAt m src len = .ok (memRead m src.toNat 16, hdrFields (memRead m src.toNat 16)) := by
  rcases headerAt_cases m src len with ⟨hl, -⟩ | ⟨-, hv', -⟩ | ⟨-, -, he⟩
  · omega
  · exact absurd hv hv'
  · exact he

end

/-- The ends a header read gives a command of format S before the command's own work (R138, R144): the range fault and the
two errors of `parse`, in this order. -/
structure HeaderReadFails (i : Instr) (src len : Word) (s : State) : Prop where
  range : ¬ Fits s src.toNat len.toNat → exec i s = .next (faultEnd s .range)
  header : Fits s src.toNat len.toNat → len.toNat < 16 → exec i s = .next (errorEnd s .invalidHeader)
  version : Fits s src.toNat len.toNat → 16 ≤ len.toNat → memByte s.mem src.toNat ≠ 2#8 →
    exec i s = .next (errorEnd s .invalidVersion)

/-- A command that ends in the error of its header read fails as the header read does. -/
theorem headerReadFails_of_effect {i : Instr} {src len : Word} (hwf : i.wf = true)
    (hranges : commandRanges i = rangesSrc src len) {s : State}
    (heffect : ∀ k, headerAt s.mem src len = .error k → Effect.of s i = .error k) : HeaderReadFails i src len s := by
  have hfault : rangeFault s.params.memSize (commandRanges i) = _ :=
    (congrArg _ hranges).trans (rangeFault_src s.params.memSize src len)
  exact {
    range := fun hfit => exec_of_rangeFault hwf (hfault.trans (if_neg hfit))
    header := fun hfit hl => exec_of_error hwf (hfault.trans (if_pos hfit)) (heffect _ (headerAt_of_lt hl))
    version := fun hfit hl hv =>
      exec_of_error hwf (hfault.trans (if_pos hfit)) (heffect _ (headerAt_of_version_ne hl hv)) }

theorem headerReadFails_hparse (src len : Word) (s : State) : HeaderReadFails (.hparse src len) src len s :=
  headerReadFails_of_effect rfl rfl fun k h => by simp only [Effect.of, h]

theorem headerReadFails_dsize (src len : Word) (s : State) : HeaderReadFails (.dsize src len) src len s :=
  headerReadFails_of_effect rfl rfl fun k h => by simp only [Effect.of, h]

section
variable {src len : Word} {s : State} (hfit : Fits s src.toNat len.toNat) (hl : 16 ≤ len.toNat)
  (hv : memByte s.mem src.toNat = 2#8)
include hfit hl hv

/-- HPARSE of a header with version 2 delivers the header's words (R138). -/
theorem exec_hparse_of_version_eq :
    exec (.hparse src len) s = .next (success s s.mem s.res0 s.res1 (hdrWords (memRead s.mem src.toNat 16)).1
      (hdrWords (memRead s.mem src.toNat 16)).2) :=
  exec_of_hdr rfl ((rangeFault_src ..).trans (if_pos hfit))
    (by simp only [Effect.of, headerAt_of_version_eq hl hv])

/-- DSIZE of a header with version 2 answers the header's `NBytesOrig` (R144). -/
theorem exec_dsize_of_version_eq :
    exec (.dsize src len) s = .next (success s s.mem ((hdrFields (memRead s.mem src.toNat 16)).nBytesOrig.setWidth 64)
      s.res1 s.hdrLo s.hdrHi) :=
  exec_of_answer rfl ((rangeFault_src ..).trans (if_pos hfit))
    (by simp only [Effect.of, headerAt_of_version_eq hl hv])

end

/-- `NBytesOrig` of a header in memory is the number in its bytes 4 to 7 (R131, R40). -/
theorem setWidth_nBytesOrig_memRead (m : Memory) (a : Nat) :
    (hdrFields (memRead m a 16)).nBytesOrig.setWidth 64 = BitVec.ofNat 64 (numberAt m (a + 4) 4) := by
  have hnumber : (hdrFields (memRead m a 16)).nBytesOrig = BitVec.ofNat 32 (le (memRead m (a + 4) 4)) :=
    congrArg Header.nBytesOrig (hdrFields_memRead m a)
  rw [← BitVec.ofNat_toNat, hnumber, toNat_ofNat_le (by norm_num) (length_memRead ..), le_memRead]

/-! ## HSER (R139) -/

theorem serialize_hdrFields_immediateBytes (lo hi : Word) :
    serialize (hdrFields (immediateBytes lo hi)) = immediateBytes lo hi :=
  hdrBytes_hdrFields (length_immediateBytes lo hi)

/-- HSER with its destination in memory stores the immediate's 16 bytes as they are. -/
theorem exec_hser_of_fits {dst : Word} {s : State} (hfit : Fits s dst.toNat 16) (hlo hhi : Word) :
    exec (.hser dst hlo hhi) s =
      .next (success s (memWrite s.mem dst.toNat (immediateBytes hlo hhi)) 16 s.res1 s.hdrLo s.hdrHi) :=
  exec_of_store rfl ((rangeFault_headerOut ..).trans (if_pos hfit))
    (by rw [Effect.of, serialize_hdrFields_immediateBytes])

/-! ## Flags (R133, R134, R140 to R143) -/

theorem shuffleMode_eq_modeOfFlags (f : Byte) : shuffleMode f = modeOfFlags f.toNat := by
  rw [modeOfFlags, f.testBit_toNat, f.testBit_toNat]
  rfl

/-- Bit `k` of the `Flags` field is bit `16 + k` of the low header word (R71). -/
theorem getLsbD_flagsOfHlo (hlo : Word) {k : Nat} (hk : k < 8) :
    (flagsOfHlo hlo).getLsbD k = hlo.toNat.testBit (16 + k) := by
  simp [flagsOfHlo, hk, BitVec.testBit_toNat]

/-- A flag of the low header word as a result. -/
theorem flagWord_getLsbD_flagsOfHlo (hlo : Word) {k : Nat} (hk : k < 8) :
    flagWord ((flagsOfHlo hlo).getLsbD k) = BitVec.ofNat 64 (if hlo.toNat.testBit (16 + k) then 1 else 0) := by
  rw [getLsbD_flagsOfHlo hlo hk]
  cases hlo.toNat.testBit (16 + k) <;> rfl

/-- The identifier of a flags byte's shuffle mode, by its two mode bits (R67, R133). -/
theorem modeId_shuffleMode (f : Byte) :
    modeId (shuffleMode f) = BitVec.ofNat 64 (if f.getLsbD 2 then 2 else if f.getLsbD 0 then 1 else 0) := by
  unfold shuffleMode hasBitshuffle hasShuffle
  split
  · rfl
  · split <;> rfl

/-- The shuffle mode of the low header word as a result. -/
theorem modeId_shuffleMode_flagsOfHlo (hlo : Word) :
    modeId (shuffleMode (flagsOfHlo hlo)) =
      BitVec.ofNat 64 (if hlo.toNat.testBit 18 then 2 else if hlo.toNat.testBit 16 then 1 else 0) := by
  rw [modeId_shuffleMode, getLsbD_flagsOfHlo hlo (by omega), getLsbD_flagsOfHlo hlo (by omega)]

/-- A command that runs a flag query answers the query's value and changes nothing else. -/
theorem queries_of_flagQuery {i : Instr} {q : Byte → Word} {hlo : Word} {v : Nat}
    (hexec : ∀ s, exec i s = runCommand rangesNone s (flagQuery q hlo)) (hv : q (flagsOfHlo hlo) = BitVec.ofNat 64 v) :
    Queries i v := fun s => by
  rw [hexec, ← hv]
  rfl

end Sys2Proof.Machine
end

section
/-! The obligations of the header's family. -/

open Sys2Proof Sys2Proof.Machine Sys2Proof.Spec

/-- Settles O15: each number field and each word is the little-endian value of its own bytes, and these tile the 16 bytes. -/
theorem headerPackingIsLossless : Obligations.HeaderPackingIsLossless :=
  ⟨fun h => ⟨length_hdrBytes h, hdrFields_hdrBytes h, parse_serialize⟩,
    fun _ hs => ⟨hdrBytes_hdrFields hs, immediateBytes_hdrWords hs⟩,
    hdrWords_immediateBytes, fun _ _ => serialize_of_parse⟩

/-- Settles O16: the two tests of `parse`, in their order. -/
theorem parseTestsLengthThenVersion : Obligations.ParseTestsLengthThenVersion := fun _ =>
  ⟨parse_of_length_lt, parse_of_version_ne, parse_of_version_eq⟩

/-- Settles O19: a header read whose words, little-endian in memory, are the two header registers. -/
theorem hparseDeliversHeader : Obligations.HparseDeliversHeader := by
  refine ⟨decodesS_of_buildInstr (op := .hparse) rfl fun _ => rfl, fun src len s => ?_⟩
  obtain ⟨hrange, hheader, hversion⟩ := headerReadFails_hparse src len s
  refine ⟨hrange, hheader, hversion, fun hfit hl hv => ?_⟩
  rw [exec_hparse_of_version_eq hfit hl hv, hdrWords_memRead, le_memRead, le_memRead]

/-- Settles O20: the immediate's fields serialize to its own 16 bytes, which the destination then reads as. -/
theorem hserStoresImmediate : Obligations.HserStoresImmediate := by
  refine ⟨decodesH_hser, fun dst hlo hhi s hm => ⟨fun hfit => ?_, fun hfit => ⟨_, exec_hser_of_fits hfit hlo hhi, ?_⟩⟩⟩
  · exact exec_of_rangeFault rfl ((rangeFault_headerOut ..).trans (if_neg hfit))
  · have hlen : (immediateBytes hlo hhi).length = 16 := length_immediateBytes hlo hhi
    obtain ⟨hlow, hhigh⟩ := holdsNumber_of_memRead_immediateBytes (memRead_memWrite hm dst.toNat hlen)
    exact ⟨hlow, hhigh, hlen ▸ sameOutside_memWrite hm dst.toNat (immediateBytes hlo hhi)⟩

/-- Settles O22: a header read that answers the number in bytes 4 to 7. -/
theorem dsizeReadsOriginalSize : Obligations.DsizeReadsOriginalSize := by
  refine ⟨decodesS_of_buildInstr (op := .dsize) rfl fun _ => rfl, fun src len s => ?_⟩
  obtain ⟨hrange, hheader, hversion⟩ := headerReadFails_dsize src len s
  refine ⟨hrange, hheader, hversion, fun hfit hl hv => ?_⟩
  rw [exec_dsize_of_version_eq hfit hl hv, setWidth_nBytesOrig_memRead]

/-- Settles O23: after HSER the destination reads as the immediate's bytes, whose words are the immediate (R137) and whose
first byte is the low byte of `HLO`. -/
theorem hparseReadsBackHser : Obligations.HparseReadsBackHser := by
  intro dst hlo hhi s t hm hfit ht
  rw [exec_hser_of_fits hfit] at ht
  cases ht
  have hread : memRead (memWrite s.mem dst.toNat (immediateBytes hlo hhi)) dst.toNat 16 = immediateBytes hlo hhi :=
    memRead_memWrite hm dst.toNat (length_immediateBytes hlo hhi)
  generalize memWrite s.mem dst.toNat (immediateBytes hlo hhi) = m at hread ⊢
  have hversion := version_eq_two_iff_of_memRead hread
  have hfit' : Fits (success s m 16 s.res1 s.hdrLo s.hdrHi) dst.toNat (16 : Word).toNat := hfit
  by_cases hv : hlo.toNat % 256 = 2
  · rw [if_pos hv, exec_hparse_of_version_eq hfit' (Nat.le_refl 16) (hversion.2 hv)]
    simp only [success, hread, hdrWords_immediateBytes]
  · rw [if_neg hv]
    exact (headerReadFails_hparse dst 16 _).version hfit' (Nat.le_refl 16) (mt hversion.1 hv)

/-- Settles O17: a bit of the byte is a bit of its number. -/
theorem flagFunctionsReadTheirBits : Obligations.FlagFunctionsReadTheirBits := fun f =>
  ⟨shuffleMode_eq_modeOfFlags f, f.testBit_toNat.symm, f.testBit_toNat.symm, f.testBit_toNat.symm⟩

/-- Settles O21: four format Q descriptors whose body is a flag query, each reading its bits of `HLO`. -/
theorem flagQueriesAnswer : Obligations.FlagQueriesAnswer := by
  refine ⟨decodesQ_of_buildInstr (op := .hmode) rfl fun _ => rfl, decodesQ_of_buildInstr (op := .hhassh) rfl fun _ => rfl,
    decodesQ_of_buildInstr (op := .hhasbs) rfl fun _ => rfl, decodesQ_of_buildInstr (op := .hismc) rfl fun _ => rfl,
    fun hlo => ⟨?_, ?_, ?_, ?_⟩⟩
  · exact queries_of_flagQuery (q := fun f => modeId (shuffleMode f)) (fun _ => rfl) (modeId_shuffleMode_flagsOfHlo hlo)
  · exact queries_of_flagQuery (q := fun f => flagWord (hasShuffle f)) (fun _ => rfl)
      (flagWord_getLsbD_flagsOfHlo hlo (k := 0) (by omega))
  · exact queries_of_flagQuery (q := fun f => flagWord (hasBitshuffle f)) (fun _ => rfl)
      (flagWord_getLsbD_flagsOfHlo hlo (k := 2) (by omega))
  · exact queries_of_flagQuery (q := fun f => flagWord (isMemcpy f)) (fun _ => rfl)
      (flagWord_getLsbD_flagsOfHlo hlo (k := 1) (by omega))

end


section
/-! SUPPORT. What the frame commands look at and how they end: the registry as one number (R17, R161), the flags of an
assembled header (R168), a range read in two parts, and the ends of a command with a source and a destination. -/

namespace Sys2Proof.Machine

open Spec

/-! ## The registry (R17, R161) -/

/-- The presence vector is the four masks side by side. -/
theorem toNat_presenceVector (m0 m1 m2 m3 : Word) :
    (m3 ++ m2 ++ m1 ++ m0).toNat = m0.toNat + m1.toNat * 2 ^ 64 + m2.toNat * 2 ^ 128 + m3.toNat * 2 ^ 192 := by
  simp only [toNat_append_eq_add]
  omega

/-- Bit `64 q + r` of the presence vector is bit `r` of mask `q`. -/
theorem getLsbD_presenceVector (s : State) {q r : Nat} (hq : q < 4) (hr : r < 64) :
    (s.codecMask3 ++ s.codecMask2 ++ s.codecMask1 ++ s.codecMask0).getLsbD (q * 64 + r) =
      (s.codecMask q).getLsbD r := by
  simp only [BitVec.getLsbD_append]
  interval_cases q
  · rw [if_pos (by omega), Nat.zero_mul, Nat.zero_add]
    rfl
  · rw [if_neg (by omega), if_pos (by omega), Nat.one_mul, Nat.add_sub_cancel_left]
    rfl
  · rw [if_neg (by omega), if_neg (by omega), if_pos (by omega), show 2 * 64 + r - 64 - 64 = r by omega]
    rfl
  · rw [if_neg (by omega), if_neg (by omega), if_neg (by omega), show 3 * 64 + r - 64 - 64 - 64 = r by omega]
    rfl

theorem registered_iff (s : State) (c : Byte) : registered s c = true ↔ Registered s c.toNat := by
  have hc := c.isLt
  have hbit := getLsbD_presenceVector s (q := c.toNat / 64) (by omega) (Nat.mod_lt c.toNat (show 0 < 64 by omega))
  rw [Nat.div_add_mod'] at hbit
  rw [Registered, ← toNat_presenceVector, BitVec.testBit_toNat, hbit, registered]

/-! ## The flags of an assembled header (R168) -/

theorem toNat_frameFlags (mode : Mode) (mc : Bool) :
    (frameFlags mode mc).toNat = modeWeight mode + (if mc then 2 else 0) := by
  cases mode <;> cases mc <;> rfl

theorem shuffleMode_frameFlags (mode : Mode) (mc : Bool) : shuffleMode (frameFlags mode mc) = mode := by
  cases mode <;> cases mc <;> rfl

theorem isMemcpy_frameFlags (mode : Mode) (mc : Bool) : isMemcpy (frameFlags mode mc) = mc := by
  cases mode <;> cases mc <;> rfl

theorem isMemcpy_eq_testBit (f : Byte) : isMemcpy f = f.toNat.testBit 1 := f.testBit_toNat.symm

/-! ## Ranges of memory -/

theorem memRead_add (m : Memory) (a n k : Nat) : memRead m a (n + k) = memRead m a n ++ memRead m (a + n) k := by
  simp [memRead, List.range_add, Nat.add_assoc]

/-- A range that reads as two sequences, one after the other, reads as each of them in its part. -/
theorem memRead_parts {m : Memory} {a n k : Nat} {bs cs : List Byte} (h : memRead m a (n + k) = bs ++ cs)
    (hn : bs.length = n) : memRead m a n = bs ∧ memRead m (a + n) k = cs :=
  List.append_inj (memRead_add m a n k ▸ h) ((length_memRead ..).trans hn.symm)

/-- Two ranges that read alike hold the same bytes. -/
theorem copied_of_memRead_eq {m m' : Memory} {a b n : Nat} (h : memRead m' b n = memRead m a n) :
    Copied n (bytesFrom m a) (bytesFrom m' b) := fun k hk => by
  rw [bytesFrom, bytesFrom, ← getD_memRead m' b hk, h, getD_memRead m a hk]

/-! ## The ends of a command -/

@[simp] theorem success_params (s : State) (m : Memory) (r0 r1 lo hi : Word) :
    (success s m r0 r1 lo hi).params = s.params := rfl
@[simp] theorem success_mem (s : State) (m : Memory) (r0 r1 lo hi : Word) : (success s m r0 r1 lo hi).mem = m := rfl
@[simp] theorem success_res0 (s : State) (m : Memory) (r0 r1 lo hi : Word) : (success s m r0 r1 lo hi).res0 = r0 := rfl
@[simp] theorem success_res1 (s : State) (m : Memory) (r0 r1 lo hi : Word) : (success s m r0 r1 lo hi).res1 = r1 := rfl
@[simp] theorem success_hdrLo (s : State) (m : Memory) (r0 r1 lo hi : Word) :
    (success s m r0 r1 lo hi).hdrLo = lo := rfl
@[simp] theorem success_hdrHi (s : State) (m : Memory) (r0 r1 lo hi : Word) :
    (success s m r0 r1 lo hi).hdrHi = hi := rfl

/-- No end of a command writes the registry. -/
theorem registered_success (s : State) (m : Memory) (r0 r1 lo hi : Word) :
    registered (success s m r0 r1 lo hi) = registered s := registered_congr ⟨rfl, rfl, rfl, rfl⟩

/-- The success end of a command that writes its whole row (R25). -/
theorem exec_of_fullRow {i : Instr} {s : State} (hwf : i.wf = true) {a : Nat} {bs : List Byte} {x y : Word}
    {w : Word × Word} (hr : rangeFault s.params.memSize (commandRanges i) = none)
    (he : Effect.of s i = .ok ⟨some (a, bs), some x, some y, some w⟩) :
    exec i s = .next (success s (memWrite s.mem a bs) x y w.1 w.2) :=
  exec_of_effect hwf hr he

/-- A command that ends without fault and error has passed its range tests and had its effect. -/
theorem exec_eq_ok {i : Instr} {s t : State} (h : exec i s = .next t) (hf : t.status.fault = none)
    (he : t.status.err = .ok) :
    i.wf = true ∧ rangeFault s.params.memSize (commandRanges i) = none ∧
      ∃ e, Effect.of s i = .ok e ∧ t = (e.apply s).succeed := by
  rw [exec_eq] at h
  split at h
  · next hwf =>
    split at h
    · cases h
      cases hf
    · next hr =>
      split at h
      · next k hk =>
        cases h
        exact absurd (he ▸ Effect.mem_raises_of_error hk) (ok_notMem_raises i)
      · next e heff =>
        cases h
        exact ⟨hwf, hr, e, heff, rfl⟩
  · cases h
    cases hf

section
variable {i : Instr} {src len dst : Word} (hranges : commandRanges i = rangesSrcDst src len dst)
include hranges

/-- The fault ends of formats P, C and E (R214). -/
theorem srcDstFaults_of_ranges (hwf : i.wf = true) (s : State) :
    SrcDstFaults i s src.toNat len.toNat dst.toNat := by
  have hfault := (congrArg (rangeFault s.params.memSize) hranges).trans (rangeFault_srcDst ..)
  refine ⟨fun hfit => exec_of_rangeFault hwf (hfault.trans (if_neg hfit)), fun hsrc hdst hover => ?_⟩
  rw [if_pos ⟨hsrc, hdst⟩, if_pos hover] at hfault
  exact exec_of_rangeFault hwf hfault

/-- Formats P, C and E pass the fault tests when both ranges lie in memory and do not overlap. -/
theorem rangeFault_srcDst_of_clear {s : State} (hsrc : Fits s src.toNat len.toNat) (hdst : Fits s dst.toNat len.toNat)
    (hover : ¬ Overlaps src.toNat len.toNat dst.toNat len.toNat) :
    rangeFault s.params.memSize (commandRanges i) = none := by
  rw [hranges, rangeFault_srcDst, if_pos ⟨hsrc, hdst⟩, if_neg hover]

end

end Sys2Proof.Machine
end

section
/-! SUPPORT. FOPEN (R163): the checks of R213 on the header in memory, the success end, and the header's fields as the
numbers and bytes the statements read. -/

namespace Sys2Proof.Machine

open Spec

/-- The header whose 16 bytes stand at an address (R131). -/
def headerOf (m : Memory) (a : Nat) : Header := hdrFields (memRead m a 16)

theorem flags_headerOf (m : Memory) (a : Nat) : (headerOf m a).flags = memByte m (a + 2) :=
  congrArg Header.flags (hdrFields_memRead m a)

theorem versionLZ_headerOf (m : Memory) (a : Nat) : (headerOf m a).versionLZ = memByte m (a + 1) :=
  congrArg Header.versionLZ (hdrFields_memRead m a)

theorem version_headerOf (m : Memory) (a : Nat) : (headerOf m a).version = memByte m a :=
  congrArg Header.version (hdrFields_memRead m a)

theorem toNat_nBytesOrig_headerOf (m : Memory) (a : Nat) : (headerOf m a).nBytesOrig.toNat = numberAt m (a + 4) 4 := by
  rw [headerOf, hdrFields_memRead, toNat_ofNat_le (by norm_num) (length_memRead ..), le_memRead]

theorem toNat_nBytesComp_headerOf (m : Memory) (a : Nat) : (headerOf m a).nBytesComp.toNat = numberAt m (a + 12) 4 := by
  rw [headerOf, hdrFields_memRead, toNat_ofNat_le (by norm_num) (length_memRead ..), le_memRead]

theorem toNat_payloadAddress {src : Word} (len : Word) (h : src.toNat + 16 < 2 ^ 64) :
    (payloadAddress src len).toNat = src.toNat + 16 := by
  rw [payloadAddress, if_pos h, BitVec.toNat_ofNat, Nat.mod_eq_of_lt h]

theorem headerReadFails_fopen (src len : Word) (s : State) : HeaderReadFails (.fopen src len) src len s :=
  headerReadFails_of_effect rfl rfl fun k h => by simp only [Effect.of, h]

/-- What FOPEN tests of a header of version 2 (R163): the frame's size and, off the memcpy path, its codec. -/
structure Header.Opens (h : Header) (s : State) (len : Nat) : Prop where
  header : 16 ≤ h.nBytesComp.toNat
  frame : h.nBytesComp.toNat ≤ len
  codec : isMemcpy h.flags = true ∨ registered s h.versionLZ = true

/-- The state FOPEN leaves (R163). -/
def opened (src len : Word) (s : State) : State :=
  success s s.mem (payloadAddress src len) (BitVec.ofNat 64 ((headerOf s.mem src.toNat).nBytesComp.toNat - 16))
    (hdrWords (memRead s.mem src.toNat 16)).1 (hdrWords (memRead s.mem src.toNat 16)).2

section
variable {src len : Word} {s : State} (hfit : Fits s src.toNat len.toNat) (hl : 16 ≤ len.toNat)
  (hv : memByte s.mem src.toNat = 2#8)

section
include hl hv

/-- What FOPEN does with a header of version 2. -/
theorem effect_fopen :
    Effect.of s (.fopen src len) =
      if (headerOf s.mem src.toNat).nBytesComp.toNat < 16 ∨ len.toNat < (headerOf s.mem src.toNat).nBytesComp.toNat
      then .error .invalidData
      else if isMemcpy (headerOf s.mem src.toNat).flags = false ∧
        registered s (headerOf s.mem src.toNat).versionLZ = false then .error .invalidCodec
      else .ok ⟨none, some (payloadAddress src len),
        some (BitVec.ofNat 64 ((headerOf s.mem src.toNat).nBytesComp.toNat - 16)),
        some (hdrWords (memRead s.mem src.toNat 16))⟩ := by
  simp only [Effect.of, headerAt_of_version_eq hl hv]
  rfl

end

include hfit hl hv

theorem exec_fopen_of_bad_size
    (h : (headerOf s.mem src.toNat).nBytesComp.toNat < 16 ∨ len.toNat < (headerOf s.mem src.toNat).nBytesComp.toNat) :
    exec (.fopen src len) s = .next (errorEnd s .invalidData) :=
  exec_of_error rfl ((rangeFault_src ..).trans (if_pos hfit)) ((effect_fopen hl hv).trans (if_pos h))

theorem exec_fopen_of_unknown_codec (h16 : 16 ≤ (headerOf s.mem src.toNat).nBytesComp.toNat)
    (hle : (headerOf s.mem src.toNat).nBytesComp.toNat ≤ len.toNat)
    (hmc : isMemcpy (headerOf s.mem src.toNat).flags = false)
    (hreg : registered s (headerOf s.mem src.toNat).versionLZ = false) :
    exec (.fopen src len) s = .next (errorEnd s .invalidCodec) :=
  exec_of_error rfl ((rangeFault_src ..).trans (if_pos hfit))
    ((effect_fopen hl hv).trans ((if_neg (by omega)).trans (if_pos ⟨hmc, hreg⟩)))

theorem exec_fopen_of_opens (h : (headerOf s.mem src.toNat).Opens s len.toNat) :
    exec (.fopen src len) s = .next (opened src len s) := by
  obtain ⟨h16, hle, hcodec⟩ := h
  have hpass : ¬ (isMemcpy (headerOf s.mem src.toNat).flags = false ∧
      registered s (headerOf s.mem src.toNat).versionLZ = false) := by
    rcases hcodec with h | h <;> simp [h]
  exact exec_of_effect rfl ((rangeFault_src ..).trans (if_pos hfit))
    ((effect_fopen hl hv).trans ((if_neg (by omega)).trans (if_neg hpass)))

end

/-- FOPEN succeeds on a frame in memory with a header of version 2 that passes its tests, and only there. -/
theorem fopen_eq_ok {src len : Word} {s t : State} (h : exec (.fopen src len) s = .next t)
    (hf : t.status.fault = none) (he : t.status.err = .ok) :
    Fits s src.toNat len.toNat ∧ (headerOf s.mem src.toNat).Opens s len.toNat ∧ t = opened src len s := by
  obtain ⟨-, hr, e, heff, rfl⟩ := exec_eq_ok h hf he
  have hfit : Fits s src.toNat len.toNat := by
    by_contra hfit
    cases hr.symm.trans ((rangeFault_src ..).trans (if_neg hfit))
  refine ⟨hfit, ?_⟩
  rcases headerAt_cases s.mem src len with ⟨-, hh⟩ | ⟨-, -, hh⟩ | ⟨hl, hv, -⟩
  · simp only [Effect.of, hh] at heff
    cases heff
  · simp only [Effect.of, hh] at heff
    cases heff
  · rw [effect_fopen hl hv] at heff
    split at heff
    · cases heff
    · next hsize =>
      split at heff
      · cases heff
      · next hcodec =>
        cases heff
        refine ⟨⟨by omega, by omega, ?_⟩, rfl⟩
        rwa [not_and_or, Bool.not_eq_false, Bool.not_eq_false] at hcodec

end Sys2Proof.Machine
end

section
/-! SUPPORT. FCLOSE (R164, R165): the fields of the header immediate as numbers, the post-decode plan as a relation
between bytes, and the command's ends. -/

namespace Sys2Proof.Machine

open Spec

/-! ## The header immediate (R71) -/

/-- A byte of the low header word. -/
theorem toNat_getD_immediateBytes (hlo hhi : Word) {k : Nat} (hk : k < 8) :
    ((immediateBytes hlo hhi).getD k 0).toNat = hlo.toNat / 256 ^ k % 256 := by
  rw [immediateBytes, List.getD_append _ _ _ _ (by rwa [length_bytesLe]), getD_bytesLe hk]

theorem toNat_flags_immediate (hlo hhi : Word) :
    (hdrFields (immediateBytes hlo hhi)).flags.toNat = hloFlags hlo :=
  toNat_getD_immediateBytes hlo hhi (k := 2) (by omega)

theorem toNat_typeSize_immediate (hlo hhi : Word) :
    (hdrFields (immediateBytes hlo hhi)).typeSize.toNat = hloTypeSize hlo :=
  toNat_getD_immediateBytes hlo hhi (k := 3) (by omega)

theorem toNat_nBytesOrig_immediate (hlo hhi : Word) :
    (hdrFields (immediateBytes hlo hhi)).nBytesOrig.toNat = hloOrig hlo := by
  have hlt := hlo.isLt
  have hslice : slice (immediateBytes hlo hhi) 4 8 = bytesLe (hlo.toNat / 256 / 256 / 256 / 256) 4 := rfl
  rw [hdrFields, hslice, BitVec.toNat_ofNat, le_bytesLe, hloOrig]
  omega

/-! ## The post-decode plan -/

theorem postDecode_of_memcpy {h : Header} (hmc : isMemcpy h.flags = true) (d : List Byte) (tsovr : BitVec 32) :
    postDecode h d tsovr = d := if_pos hmc

theorem resolveTypeSize_immediate (hlo hhi : Word) (tsovr : BitVec 32) :
    resolveTypeSize (hdrFields (immediateBytes hlo hhi)) tsovr =
      if 0 < tsovr.toNat then tsovr.toNat else hloTypeSize hlo := by
  rw [resolveTypeSize, toNat_typeSize_immediate]

theorem realizes_postDecode (hlo hhi : Word) (tsovr : BitVec 32) (n : Nat) :
    Realizes (fun d => postDecode (hdrFields (immediateBytes hlo hhi)) d tsovr) n (PostDecoded hlo tsovr.toNat n) := by
  unfold postDecode PostDecoded
  simp only [isMemcpy_eq_testBit, shuffleMode_eq_modeOfFlags, toNat_flags_immediate, resolveTypeSize_immediate]
  generalize (if 0 < tsovr.toNat then tsovr.toNat else hloTypeSize hlo) = ts
  split
  · exact realizes_copy n
  · split
    · exact realizes_inverse _ n _
    · exact realizes_copy n

/-! ## The command -/

section
variable {ts : BitVec 32} {src len dst hlo hhi : Word} {s : State} (hsrc : Fits s src.toNat len.toNat)
  (hdst : Fits s dst.toNat len.toNat) (hover : ¬ Overlaps src.toNat len.toNat dst.toNat len.toNat)
include hsrc hdst hover

theorem exec_fclose_of_size_ne (h : len.toNat ≠ (hdrFields (immediateBytes hlo hhi)).nBytesOrig.toNat) :
    exec (.fclose ts src len dst hlo hhi) s = .next (errorEnd s .sizeMismatch) :=
  exec_of_error rfl (rangeFault_srcDst_of_clear rfl hsrc hdst hover) (if_pos h)

/-- FCLOSE with a matching length stores the post-decode plan's output (R165). -/
theorem exec_fclose_of_size_eq (h : len.toNat = (hdrFields (immediateBytes hlo hhi)).nBytesOrig.toNat) :
    exec (.fclose ts src len dst hlo hhi) s =
      .next (success s (memWrite s.mem dst.toNat
        (postDecode (hdrFields (immediateBytes hlo hhi)) (memRead s.mem src.toNat len.toNat) ts)) len s.res1 s.hdrLo
        s.hdrHi) :=
  exec_of_store rfl (rangeFault_srcDst_of_clear rfl hsrc hdst hover) (if_neg (not_not.2 h))

/-- Where the post-decode plan gives the sequence at `a` in `m`, FCLOSE delivers that sequence. -/
theorem exec_fclose_delivers (hm : s.mem.wf = true) {m : Memory} {a : Nat}
    (h : len.toNat = (hdrFields (immediateBytes hlo hhi)).nBytesOrig.toNat)
    (hplan : postDecode (hdrFields (immediateBytes hlo hhi)) (memRead s.mem src.toNat len.toNat) ts =
      memRead m a len.toNat) :
    ∃ m', exec (.fclose ts src len dst hlo hhi) s = .next (success s m' len s.res1 s.hdrLo s.hdrHi) ∧
      Copied len.toNat (bytesFrom m a) (bytesFrom m' dst.toNat) := by
  refine ⟨_, exec_fclose_of_size_eq hsrc hdst hover h, copied_of_memRead_eq ?_⟩
  rw [hplan, memRead_memWrite hm _ (length_memRead ..)]

end

end Sys2Proof.Machine
end

section
/-! SUPPORT. FPRE (R166, R167, R169): the encode-side checks as the statements list them, the clamps, and the command's
success end. -/

namespace Sys2Proof.Machine

open Spec

theorem clampLevel_eq (level : Byte) : clampLevel level = levelClamped level.toInt := by
  unfold clampLevel levelClamped
  split
  · omega
  · split <;> omega

/-- The encode-side checks end in the error the statements name (R167). -/
theorem encodeChecks_of_encodeError {s : State} {len : Word} {codec : Byte} {k : ErrKind}
    (h : encodeError s len.toNat codec.toNat k) : encodeChecks s len codec = .error k := by
  unfold encodeChecks
  rcases h with ⟨h0, rfl⟩ | ⟨hbig, rfl⟩ | ⟨h0, hsmall, hreg, rfl⟩
  · rw [if_pos h0]
  · rw [if_neg (by omega), if_pos hbig]
  · rw [if_neg h0, if_neg (by omega), if_neg (mt (registered_iff s codec).1 hreg)]

/-- The encode-side checks pass (R167). -/
theorem encodeChecks_eq_ok_iff {s : State} {len : Word} {codec : Byte} :
    encodeChecks s len codec = .ok () ↔ 0 < len.toNat ∧ len.toNat ≤ 2 ^ 32 - 1 ∧ registered s codec = true := by
  rcases encodeChecks_cases s len codec with ⟨h0, he⟩ | ⟨hbig, he⟩ | ⟨-, -, hreg, he⟩ | ⟨h0, hsmall, hreg, he⟩
  · exact ⟨fun h => (nomatch he.symm.trans h), fun ⟨h, _⟩ => by omega⟩
  · exact ⟨fun h => (nomatch he.symm.trans h), fun ⟨_, h, _⟩ => by omega⟩
  · exact ⟨fun h => (nomatch he.symm.trans h), fun ⟨_, _, h⟩ => (nomatch hreg.symm.trans h)⟩
  · exact ⟨fun _ => ⟨h0, hsmall, hreg⟩, fun _ => he⟩

/-- The state FPRE leaves (R169). -/
def prepared (mode : Mode) (level : Byte) (ts : BitVec 32) (src len dst : Word) (s : State) : State :=
  success s (memWrite s.mem dst.toNat (forward mode (memRead s.mem src.toNat len.toNat) (clampTypeSize ts))) len
    (BitVec.ofNat 64 (clampTypeSize ts + clampLevel level * 2 ^ 32)) s.hdrLo s.hdrHi

section
variable {mode : Mode} {codec level : Byte} {ts : BitVec 32} {src len dst : Word} {s : State}

theorem effect_fpre (h : encodeChecks s len codec = .ok ()) :
    Effect.of s (.fpre mode codec level ts src len dst) =
      .ok ⟨some (dst.toNat, forward mode (memRead s.mem src.toNat len.toNat) (clampTypeSize ts)), some len,
        some (BitVec.ofNat 64 (clampTypeSize ts + clampLevel level * 2 ^ 32)), none⟩ := by
  simp only [Effect.of, h]

theorem exec_fpre_of_checks
    (hr : rangeFault s.params.memSize (commandRanges (.fpre mode codec level ts src len dst)) = none)
    (h : encodeChecks s len codec = .ok ()) :
    exec (.fpre mode codec level ts src len dst) s = .next (prepared mode level ts src len dst s) :=
  exec_of_effect rfl hr (effect_fpre h)

theorem exec_fpre_of_error
    (hr : rangeFault s.params.memSize (commandRanges (.fpre mode codec level ts src len dst)) = none) {k : ErrKind}
    (h : encodeChecks s len codec = .error k) :
    exec (.fpre mode codec level ts src len dst) s = .next (errorEnd s k) :=
  exec_of_error rfl hr (by simp only [Effect.of, h])

/-- FPRE that ends in success has prepared the data. -/
theorem fpre_eq_ok {t : State} (h : exec (.fpre mode codec level ts src len dst) s = .next t)
    (hf : t.status.fault = none) (he : t.status.err = .ok) : t = prepared mode level ts src len dst s := by
  obtain ⟨-, -, e, heff, rfl⟩ := exec_eq_ok h hf he
  simp only [Effect.of] at heff
  split at heff
  · cases heff
  · cases heff
    rfl

end

/-- What FPRE stored, as a range read. -/
theorem memRead_prepared {s : State} (hm : s.mem.wf = true) (mode : Mode) (level : Byte) (ts : BitVec 32)
    (src len dst : Word) :
    memRead (prepared mode level ts src len dst s).mem dst.toNat len.toNat =
      forward mode (memRead s.mem src.toNat len.toNat) (clampTypeSize ts) :=
  memRead_memWrite hm _ (by rw [length_forward, length_memRead])

end Sys2Proof.Machine
end

section
/-! SUPPORT. A frame in memory (R162): a header with a payload behind it, and what reading the header answers. -/

namespace Sys2Proof.Machine

open Spec

/-- The bytes from `a` on are a frame with this header and payload. -/
structure HoldsFrame (m : Memory) (a : Nat) (h : Header) (payload : List Byte) : Prop where
  header : memRead m a 16 = hdrBytes h
  payload : memRead m (a + 16) payload.length = payload

theorem holdsFrame_memWrite {m : Memory} (hm : m.wf = true) (a : Nat) (h : Header) (payload : List Byte) :
    HoldsFrame (memWrite m a (hdrBytes h ++ payload)) a h payload := by
  obtain ⟨hheader, hpayload⟩ := memRead_parts (n := 16) (k := payload.length)
    (memRead_memWrite hm a (bs := hdrBytes h ++ payload) (by simp)) (length_hdrBytes h)
  exact ⟨hheader, hpayload⟩

theorem HoldsFrame.headerOf_eq {m : Memory} {a : Nat} {h : Header} {payload : List Byte}
    (hframe : HoldsFrame m a h payload) : headerOf m a = h := by
  rw [headerOf, hframe.header, hdrFields_hdrBytes]

/-- A frame's first 16 bytes hold its two header words (R148). -/
theorem HoldsFrame.holdsNumber {m : Memory} {a : Nat} {h : Header} {payload : List Byte}
    (hframe : HoldsFrame m a h payload) :
    HoldsNumber m a 8 (hdrWords (hdrBytes h)).1.toNat ∧ HoldsNumber m (a + 8) 8 (hdrWords (hdrBytes h)).2.toNat :=
  holdsNumber_of_memRead_immediateBytes (hframe.header.trans (immediateBytes_hdrWords (length_hdrBytes h)).symm)

/-- The fields of a header's words are the header (R137, R148). -/
theorem hdrFields_words (h : Header) :
    hdrFields (immediateBytes (hdrWords (hdrBytes h)).1 (hdrWords (hdrBytes h)).2) = h := by
  rw [immediateBytes_hdrWords (length_hdrBytes h), hdrFields_hdrBytes]

/-- The header words of a header by its fields (R12, R131). -/
theorem hdrWords_hdrBytes (h : Header) :
    hdrWords (hdrBytes h) =
      (BitVec.ofNat 64 (h.version.toNat + h.versionLZ.toNat * 2 ^ 8 + h.flags.toNat * 2 ^ 16 +
        h.typeSize.toNat * 2 ^ 24 + h.nBytesOrig.toNat * 2 ^ 32),
      BitVec.ofNat 64 (h.blockSize.toNat + h.nBytesComp.toNat * 2 ^ 32)) := by
  have hlow : slice (hdrBytes h) 0 8 =
      [h.version, h.versionLZ, h.flags, h.typeSize] ++ bytesLe h.nBytesOrig.toNat 4 := rfl
  have hhigh : slice (hdrBytes h) 8 16 = bytesLe h.blockSize.toNat 4 ++ bytesLe h.nBytesComp.toNat 4 := rfl
  have horig := h.nBytesOrig.isLt
  have hblock := h.blockSize.isLt
  have hcomp := h.nBytesComp.isLt
  rw [hdrWords, hlow, hhigh, le_append, le_append, le_bytesLe, le_bytesLe, le_bytesLe, length_bytesLe]
  simp only [le, List.length_cons, List.length_nil]
  congr 2 <;> omega

end Sys2Proof.Machine
end

section
/-! SUPPORT. FWRAP (R168, R170 to R172): its checks, the state it leaves, the header's fields as numbers, and the frame
at its destination. -/

namespace Sys2Proof.Machine

open Spec

/-- What FWRAP tests beyond its ranges (R167, R172). -/
structure Wrappable (s : State) (codec : Byte) (len len2 : Word) : Prop where
  pos : 0 < len.toNat
  small : len.toNat ≤ 2 ^ 32 - 1
  codec : registered s codec = true
  total : 16 + payloadLength len len2 ≤ 2 ^ 32 - 1

/-- The state FWRAP leaves (R172). -/
def wrapped (mode : Mode) (codec : Byte) (ts : BitVec 32) (src len dst src2 len2 : Word) (s : State) : State :=
  success s
    (memWrite s.mem dst.toNat (hdrBytes (wrapHeader mode codec ts len len2) ++ wrapPayload src len src2 len2 s.mem))
    (BitVec.ofNat 64 (16 + payloadLength len len2)) (flagWord (useMemcpy len len2))
    (hdrWords (hdrBytes (wrapHeader mode codec ts len len2))).1
    (hdrWords (hdrBytes (wrapHeader mode codec ts len len2))).2

theorem mem_wrapped (mode : Mode) (codec : Byte) (ts : BitVec 32) (src len dst src2 len2 : Word) (s : State) :
    (wrapped mode codec ts src len dst src2 len2 s).mem =
      memWrite s.mem dst.toNat
        (hdrBytes (wrapHeader mode codec ts len len2) ++ wrapPayload src len src2 len2 s.mem) :=
  success_mem ..

/-- The low header word FWRAP makes, as a number (R168, R171). -/
def wrapLow (mode : Mode) (codec : Byte) (ts : BitVec 32) (len len2 : Word) : Nat :=
  2 + codec.toNat * 2 ^ 8 + (modeWeight mode + (if len.toNat ≤ len2.toNat then 2 else 0)) * 2 ^ 16 +
    max ts.toNat 1 * 2 ^ 24 + len.toNat * 2 ^ 32

/-- The high header word FWRAP makes, as a number (R171). -/
def wrapHigh (len len2 : Word) : Nat := len.toNat + (16 + payloadLength len len2) * 2 ^ 32

section
variable {mode : Mode} {codec : Byte} {ts : BitVec 32} {src len dst src2 len2 : Word} {s : State}

theorem wf_fwrap : (Instr.fwrap mode codec ts src len dst src2 len2).wf = true ↔ ts.toNat ≤ 255 :=
  decide_eq_true_iff

theorem effect_fwrap (h : encodeChecks s len codec = .ok ()) :
    Effect.of s (.fwrap mode codec ts src len dst src2 len2) =
      if 2 ^ 32 - 1 < 16 + payloadLength len len2 then .error .dataTooLarge
      else .ok ⟨some (dst.toNat, hdrBytes (wrapHeader mode codec ts len len2) ++ wrapPayload src len src2 len2 s.mem),
        some (BitVec.ofNat 64 (16 + payloadLength len len2)), some (flagWord (useMemcpy len len2)),
        some (hdrWords (hdrBytes (wrapHeader mode codec ts len len2)))⟩ := by
  simp only [Effect.of, h]

section
variable (hts : ts.toNat ≤ 255)
  (hr : rangeFault s.params.memSize (commandRanges (.fwrap mode codec ts src len dst src2 len2)) = none)
include hts hr

theorem exec_fwrap_of_error {k : ErrKind} (h : encodeChecks s len codec = .error k) :
    exec (.fwrap mode codec ts src len dst src2 len2) s = .next (errorEnd s k) :=
  exec_of_error (wf_fwrap.2 hts) hr (by simp only [Effect.of, h])

theorem exec_fwrap_of_too_large (h : encodeChecks s len codec = .ok ())
    (hbig : 2 ^ 32 - 1 < 16 + payloadLength len len2) :
    exec (.fwrap mode codec ts src len dst src2 len2) s = .next (errorEnd s .dataTooLarge) :=
  exec_of_error (wf_fwrap.2 hts) hr ((effect_fwrap h).trans (if_pos hbig))

theorem exec_fwrap_of_wrappable (h : Wrappable s codec len len2) :
    exec (.fwrap mode codec ts src len dst src2 len2) s =
      .next (wrapped mode codec ts src len dst src2 len2 s) := by
  have hchecks := encodeChecks_eq_ok_iff.2 ⟨h.pos, h.small, h.codec⟩
  exact exec_of_fullRow (wf_fwrap.2 hts) hr ((effect_fwrap hchecks).trans (if_neg (Nat.not_lt.2 h.total)))

end

/-- FWRAP that ends in success has passed its tests and wrapped the data. -/
theorem fwrap_eq_ok {t : State} (h : exec (.fwrap mode codec ts src len dst src2 len2) s = .next t)
    (hf : t.status.fault = none) (he : t.status.err = .ok) :
    ts.toNat ≤ 255 ∧ Fits s dst.toNat (16 + payloadLength len len2) ∧ Wrappable s codec len len2 ∧
      t = wrapped mode codec ts src len dst src2 len2 s := by
  obtain ⟨hwf, hr, e, heff, -⟩ := exec_eq_ok h hf he
  have hts := wf_fwrap.1 hwf
  have hfit : Fits s dst.toNat (16 + payloadLength len len2) := by
    by_contra hfit
    cases hr.symm.trans ((rangeFault_wrap ..).trans (if_neg fun hall => hfit hall.2.2))
  rcases hc : encodeChecks s len codec with k | u
  · simp only [Effect.of, hc] at heff
    cases heff
  · rw [effect_fwrap hc] at heff
    split at heff
    · cases heff
    · next htotal =>
      obtain ⟨hpos, hsmall, hreg⟩ := encodeChecks_eq_ok_iff.1 hc
      have hw : Wrappable s codec len len2 := ⟨hpos, hsmall, hreg, Nat.not_lt.1 htotal⟩
      exact ⟨hts, hfit, hw, Host.Outcome.next.inj (h.symm.trans (exec_fwrap_of_wrappable hts hr hw))⟩

/-! ## The header of R171 -/

theorem toNat_typeSize_wrapHeader (hts : ts.toNat ≤ 255) :
    (wrapHeader mode codec ts len len2).typeSize.toNat = max ts.toNat 1 := by
  rw [wrapHeader, BitVec.toNat_ofNat, clampTypeSize]
  omega

theorem toNat_flags_wrapHeader : (wrapHeader mode codec ts len len2).flags.toNat =
    modeWeight mode + (if len.toNat ≤ len2.toNat then 2 else 0) := by
  rw [wrapHeader, toNat_frameFlags, useMemcpy]
  simp only [decide_eq_true_eq]

section
variable (h : Wrappable s codec len len2)
include h

theorem Wrappable.toNat_nBytesOrig : (wrapHeader mode codec ts len len2).nBytesOrig.toNat = len.toNat := by
  have := h.small
  rw [wrapHeader, BitVec.toNat_ofNat]
  omega

theorem Wrappable.toNat_nBytesComp :
    (wrapHeader mode codec ts len len2).nBytesComp.toNat = 16 + payloadLength len len2 := by
  have := h.total
  rw [wrapHeader, BitVec.toNat_ofNat]
  omega

/-- The header words FWRAP stores and leaves in the registers, as numbers (R171). -/
theorem Wrappable.hdrWords_wrapHeader (hts : ts.toNat ≤ 255) :
    hdrWords (hdrBytes (wrapHeader mode codec ts len len2)) =
      (BitVec.ofNat 64 (wrapLow mode codec ts len len2), BitVec.ofNat 64 (wrapHigh len len2)) := by
  have hblock : (wrapHeader mode codec ts len len2).blockSize.toNat = len.toNat :=
    h.toNat_nBytesOrig (mode := mode) (codec := codec) (ts := ts)
  rw [hdrWords_hdrBytes, toNat_flags_wrapHeader, hblock, toNat_typeSize_wrapHeader hts, h.toNat_nBytesOrig,
    h.toNat_nBytesComp]
  rfl

theorem Wrappable.wrapLow_lt (hts : ts.toNat ≤ 255) : wrapLow mode codec ts len len2 < 2 ^ 64 := by
  have hsmall := h.small
  have hcodec := codec.isLt
  have hweight : modeWeight mode ≤ 4 := by cases mode <;> decide
  unfold wrapLow
  split <;> omega

theorem Wrappable.wrapHigh_lt : wrapHigh len len2 < 2 ^ 64 := by
  have hsmall := h.small
  have htotal := h.total
  unfold wrapHigh
  omega

end

/-! ## The frame at the destination -/

theorem isMemcpy_wrapHeader :
    isMemcpy (wrapHeader mode codec ts len len2).flags = decide (len.toNat ≤ len2.toNat) :=
  isMemcpy_frameFlags ..

/-- The payload is read from the data on the memcpy path, else from the codec's output (R170). -/
theorem wrapPayload_eq (src len src2 len2 : Word) (m : Memory) :
    wrapPayload src len src2 len2 m =
      memRead m (if len.toNat ≤ len2.toNat then src.toNat else src2.toNat) (payloadLength len len2) := by
  rw [wrapPayload, payloadLength_eq, useMemcpy]
  by_cases h : len.toNat ≤ len2.toNat <;> simp [h]

section
variable (hm : s.mem.wf = true) (mode codec ts src len dst src2 len2)
include hm

theorem holdsFrame_wrapped :
    HoldsFrame (wrapped mode codec ts src len dst src2 len2 s).mem dst.toNat (wrapHeader mode codec ts len len2)
      (wrapPayload src len src2 len2 s.mem) := by
  rw [mem_wrapped]
  exact holdsFrame_memWrite hm dst.toNat _ _

/-- The payload FWRAP stored, as a range read. -/
theorem memRead_payload_wrapped :
    memRead (wrapped mode codec ts src len dst src2 len2 s).mem (dst.toNat + 16) (payloadLength len len2) =
      memRead s.mem (if len.toNat ≤ len2.toNat then src.toNat else src2.toNat) (payloadLength len len2) := by
  have hpayload := (holdsFrame_wrapped mode codec ts src len dst src2 len2 hm).payload
  rwa [length_wrapPayload, wrapPayload_eq] at hpayload

/-- The header at the destination, as numbers (R171). -/
theorem Wrappable.holdsNumber_wrapped (h : Wrappable s codec len len2) (hts : ts.toNat ≤ 255) :
    HoldsNumber (wrapped mode codec ts src len dst src2 len2 s).mem dst.toNat 8 (wrapLow mode codec ts len len2) ∧
    HoldsNumber (wrapped mode codec ts src len dst src2 len2 s).mem (dst.toNat + 8) 8 (wrapHigh len len2) := by
  have hwords := (holdsFrame_wrapped mode codec ts src len dst src2 len2 hm).holdsNumber
  rwa [h.hdrWords_wrapHeader hts, BitVec.toNat_ofNat, BitVec.toNat_ofNat, Nat.mod_eq_of_lt (h.wrapLow_lt hts),
    Nat.mod_eq_of_lt h.wrapHigh_lt] at hwords

/-- FWRAP writes its destination range only. -/
theorem sameOutside_wrapped :
    SameOutside s.mem (wrapped mode codec ts src len dst src2 len2 s).mem dst.toNat
      (16 + payloadLength len len2) := by
  have h := sameOutside_memWrite hm dst.toNat
    (hdrBytes (wrapHeader mode codec ts len len2) ++ wrapPayload src len src2 len2 s.mem)
  rw [mem_wrapped]
  rwa [List.length_append, length_hdrBytes, length_wrapPayload] at h

end

end

end Sys2Proof.Machine
end

section
/-! SUPPORT. Frames between commands (R173, R175, R176): FOPEN of a frame in memory and of the one FWRAP leaves, and the
post-decode plan on FWRAP's header, which undoes FPRE. -/

namespace Sys2Proof.Machine

open Spec

/-- FOPEN of a frame in memory whose header has version 2 and passes its tests. -/
theorem HoldsFrame.exec_fopen {s : State} {src len : Word} {h : Header} {payload : List Byte}
    (hframe : HoldsFrame s.mem src.toNat h payload) (hfit : Fits s src.toNat len.toNat) (hv : h.version = 2#8)
    (hopens : h.Opens s len.toNat) :
    exec (.fopen src len) s =
      .next (success s s.mem (payloadAddress src len) (BitVec.ofNat 64 (h.nBytesComp.toNat - 16))
        (hdrWords (hdrBytes h)).1 (hdrWords (hdrBytes h)).2) := by
  have hheader := hframe.headerOf_eq
  have hl : 16 ≤ len.toNat := hopens.header.trans hopens.frame
  have hversion : memByte s.mem src.toNat = 2#8 := by rw [← version_headerOf, hheader, hv]
  rw [exec_fopen_of_opens hfit hl hversion (hheader ▸ hopens), opened, hheader, hframe.header]

theorem ofNat_payloadLength (len len2 : Word) :
    BitVec.ofNat 64 (payloadLength len len2) = if len.toNat ≤ len2.toNat then len else len2 := by
  rw [payloadLength_eq]
  split <;> simp

section
variable {mode : Mode} {codec : Byte} {ts : BitVec 32} {src len dst src2 len2 : Word} {s t : State}

theorem Wrappable.toNat_res0_wrapped (h : Wrappable s codec len len2) :
    (wrapped mode codec ts src len dst src2 len2 s).res0.toNat = 16 + payloadLength len len2 := by
  have htotal := h.total
  rw [wrapped, success_res0, BitVec.toNat_ofNat]
  omega

/-- The frame FWRAP leaves opens at once, with the same header words and its payload length (R162, R171). -/
theorem Wrappable.exec_fopen_wrapped (hm : s.mem.wf = true) (hfit : Fits s dst.toNat (16 + payloadLength len len2))
    (h : Wrappable s codec len len2) (ht : t = wrapped mode codec ts src len dst src2 len2 s) :
    exec (.fopen dst t.res0) t =
      .next (success t t.mem (payloadAddress dst t.res0) (if len.toNat ≤ len2.toNat then len else len2) t.hdrLo
        t.hdrHi) := by
  subst ht
  have hlen := h.toNat_res0_wrapped (mode := mode) (ts := ts) (src := src) (dst := dst) (src2 := src2)
  have hcomp := h.toNat_nBytesComp (mode := mode) (ts := ts)
  have hreg : registered (wrapped mode codec ts src len dst src2 len2 s) codec = true := by
    rw [wrapped, registered_success, h.codec]
  have hopens : (wrapHeader mode codec ts len len2).Opens (wrapped mode codec ts src len dst src2 len2 s)
      (wrapped mode codec ts src len dst src2 len2 s).res0.toNat :=
    ⟨hcomp ▸ Nat.le_add_right 16 _, by rw [hcomp, hlen], .inr hreg⟩
  have hframe := holdsFrame_wrapped mode codec ts src len dst src2 len2 hm
  rw [hframe.exec_fopen (hlen ▸ hfit) rfl hopens, hcomp, Nat.add_sub_cancel_left, ofNat_payloadLength]
  rfl

/-- The header registers FWRAP leaves carry the header it made (R171). -/
theorem hdrFields_wrapped (ht : t = wrapped mode codec ts src len dst src2 len2 s) :
    hdrFields (immediateBytes t.hdrLo t.hdrHi) = wrapHeader mode codec ts len len2 := by
  rw [ht, wrapped, success_hdrLo, success_hdrHi, hdrFields_words]

end

/-! ## The post-decode plan on FWRAP's header -/

/-- With a type size of 1 every forward transform is the identity (R101). -/
theorem forward_one (mode : Mode) (s : List Byte) : forward mode s 1 = s := by
  have hd : degenerate s.length 1 = true := degenerate_iff.2 (.inl (Nat.le_refl 1))
  cases mode with
  | noShuffle => rfl
  | byteShuffle => exact byteShuffle_of_degenerate hd
  | bitShuffle => exact bitShuffle_of_degenerate hd

/-- Off the memcpy path the plan of FWRAP's header undoes FPRE's transform (R175). -/
theorem postDecode_forward {ts : BitVec 32} {len len2 : Word} (hts : ts.toNat ≤ 255) (hlt : len2.toNat < len.toNat)
    (mode : Mode) (codec : Byte) (d : List Byte) :
    postDecode (wrapHeader mode codec ts len len2) (forward mode d (clampTypeSize ts)) 0 = d := by
  have hmc : ¬ isMemcpy (wrapHeader mode codec ts len len2).flags = true := by
    rw [isMemcpy_wrapHeader, decide_eq_true_eq]
    omega
  have hsize : resolveTypeSize (wrapHeader mode codec ts len len2) 0 = clampTypeSize ts :=
    toNat_typeSize_wrapHeader hts
  have hmode : shuffleMode (wrapHeader mode codec ts len len2).flags = mode := shuffleMode_frameFlags ..
  rw [postDecode, if_neg hmc, hsize, hmode]
  split
  · exact inverse_forward ..
  · next hone =>
    have hclamp : clampTypeSize ts = 1 := by
      rw [clampTypeSize] at hone ⊢
      omega
    rw [hclamp, forward_one]

/-! ## DECOMPRESS_WITH_SIZE (R74, R173) -/

/-- The header registers FOPEN leaves carry the header in memory (R163). -/
theorem hdrFields_opened (src len : Word) (s : State) :
    hdrFields (immediateBytes (opened src len s).hdrLo (opened src len s).hdrHi) = headerOf s.mem src.toNat := by
  rw [opened, success_hdrLo, success_hdrHi, immediateBytes_hdrWords (length_memRead ..), headerOf]

/-- `RES1` after FOPEN is the payload's length (R163). -/
theorem toNat_res1_opened (src len : Word) (s : State) :
    (opened src len s).res1.toNat = (headerOf s.mem src.toNat).nBytesComp.toNat - 16 := by
  have hlt := (headerOf s.mem src.toNat).nBytesComp.isLt
  rw [opened, success_res1, BitVec.toNat_ofNat]
  omega

/-- After an FOPEN that succeeds on a memcpy header the pseudo-command closes what it delivered: no codec step. -/
theorem next_decompressWithSize_of_memcpy {t : State} (hf : t.status.fault = none) (he : t.status.err = .ok)
    (hmc : isMemcpy (hdrFields (immediateBytes t.hdrLo t.hdrHi)).flags = true) (frame len dst : Word)
    (tsovr : BitVec 32) :
    (Pseudo.decompressWithSize frame len dst tsovr).next t none =
      .issue (.fclose tsovr t.res0 t.res1 dst t.hdrLo t.hdrHi) := by
  simp only [Pseudo.next, hf, he, ne_eq, not_true_eq_false, if_false, decompressNext, hmc, if_true]

end Sys2Proof.Machine
end

section
/-! The obligations of the frame's family. -/

open Sys2Proof Sys2Proof.Machine Sys2Proof.Spec

/-- Settles O18: the three mode bits and the memcpy bit are distinct. -/
theorem frameFlagsCombineModeAndMemcpy : Obligations.FrameFlagsCombineModeAndMemcpy := fun mode mc =>
  ⟨toNat_frameFlags mode mc, shuffleMode_frameFlags mode mc, isMemcpy_frameFlags mode mc⟩

/-- Settles O24: the presence vector is the four masks side by side, and bit `id` of it is bit `id mod 64` of mask
`id div 64`. -/
theorem registeredIsPresenceBit : Obligations.RegisteredIsPresenceBit := registered_iff

/-- Settles O25: a header read, then the two tests of R163 on the header's fields as memory holds them. -/
theorem fopenValidatesFrame : Obligations.FopenValidatesFrame := by
  refine ⟨decodesS_of_buildInstr (op := .fopen) rfl fun _ => rfl, fun src len s => ?_⟩
  obtain ⟨hrange, hheader, hversion⟩ := headerReadFails_fopen src len s
  intro i comp memcpy known
  have hcomp : (headerOf s.mem src.toNat).nBytesComp.toNat = comp := toNat_nBytesComp_headerOf ..
  have hmemcpy : isMemcpy (headerOf s.mem src.toNat).flags = memcpy := by
    rw [isMemcpy_eq_testBit, flags_headerOf]
  have hknown : registered s (headerOf s.mem src.toNat).versionLZ = true ↔ known := by
    rw [registered_iff, versionLZ_headerOf]
  refine ⟨hrange, fun hfit => ⟨hheader hfit, hversion hfit, fun hl hv hsize => ?_, fun hl hv h16 hle hmc hk => ?_,
    fun hl hv h16 hle hcodec => ⟨payloadAddress src len, toNat_payloadAddress len, ?_⟩⟩⟩
  · exact exec_fopen_of_bad_size hfit hl hv (hcomp ▸ hsize)
  · exact exec_fopen_of_unknown_codec hfit hl hv (hcomp ▸ h16) (hcomp ▸ hle) (hmemcpy.trans hmc)
      (Bool.not_eq_true _ ▸ mt hknown.1 hk)
  · rw [exec_fopen_of_opens hfit hl hv ⟨hcomp ▸ h16, hcomp ▸ hle, hcodec.imp hmemcpy.trans hknown.2⟩, opened, hcomp,
      hdrWords_memRead, le_memRead, le_memRead]

/-- Settles O26: the post-decode plan is a transform between two ranges, chosen by the immediate's fields. -/
theorem fcloseDeliversData : Obligations.FcloseDeliversData := by
  refine ⟨decodesC_fclose, fun ts src len dst hlo hhi s hm => ⟨srcDstFaults_of_ranges rfl rfl s,
    fun hsrc hdst hover => ?_⟩⟩
  have horig := toNat_nBytesOrig_immediate hlo hhi
  refine ⟨fun hsize => exec_fclose_of_size_ne hsrc hdst hover (horig ▸ hsize), fun hsize =>
    ⟨_, exec_fclose_of_size_eq hsrc hdst hover (horig ▸ hsize), ?_⟩⟩
  exact (realizes_postDecode hlo hhi ts len.toNat).stored hm src.toNat dst.toNat

/-- Settles O27: the forward transform between two ranges, once the encode-side checks pass. -/
theorem fprePreparesData : Obligations.FprePreparesData := by
  refine ⟨decodesE_fpre, fun mode codec level ts src len dst s hm => ⟨srcDstFaults_of_ranges rfl rfl s,
    fun hsrc hdst hover => ?_⟩⟩
  have hr := rangeFault_srcDst_of_clear (i := .fpre mode codec level ts src len dst) rfl hsrc hdst hover
  refine ⟨fun k hk => exec_fpre_of_error hr (encodeChecks_of_encodeError hk), fun hpos hsmall hreg => ⟨_, ?_,
    (realizes_forward mode len.toNat (max ts.toNat 1)).stored hm src.toNat dst.toNat⟩⟩
  rw [exec_fpre_of_checks hr (encodeChecks_eq_ok_iff.2 ⟨hpos, hsmall, (registered_iff s codec).2 hreg⟩), prepared,
    clampLevel_eq, clampTypeSize]

/-- Settles O28: the frame at the destination is the header of R171 and the payload of R170 behind it. -/
theorem fwrapAssemblesFrame : Obligations.FwrapAssemblesFrame := by
  refine ⟨decodesW_fwrap, fun mode codec ts src len dst src2 len2 s hm hts => ?_⟩
  have hfault := rangeFault_wrap s.params.memSize src len dst src2 len2
  rw [payloadLength_eq] at hfault
  intro i mc plen from_ flags lo hi inRanges clash
  have hplen : payloadLength len len2 = plen := payloadLength_eq len len2
  have hwf : i.wf = true := wf_fwrap.2 hts
  refine ⟨fun hout => exec_of_rangeFault hwf (hfault.trans (if_neg hout)),
    fun hin hclash => exec_of_rangeFault hwf (hfault.trans ((if_pos hin).trans (if_pos hclash))),
    fun hin hclash => ?_⟩
  have hr : rangeFault s.params.memSize (commandRanges i) = none := hfault.trans ((if_pos hin).trans (if_neg hclash))
  refine ⟨fun k hk => exec_fwrap_of_error hts hr (encodeChecks_of_encodeError hk), fun hpos hsmall hreg => ?_⟩
  have hknown := (registered_iff s codec).2 hreg
  have hchecks := encodeChecks_eq_ok_iff.2 ⟨hpos, hsmall, hknown⟩
  refine ⟨fun hbig => exec_fwrap_of_too_large hts hr hchecks (hplen ▸ hbig), fun htotal =>
    ⟨(wrapped mode codec ts src len dst src2 len2 s).mem, ?_⟩⟩
  have hw : Wrappable s codec len len2 := ⟨hpos, hsmall, hknown, hplen ▸ htotal⟩
  have hhigh : wrapHigh len len2 = hi := by rw [wrapHigh, hplen]
  obtain ⟨hholdsLow, hholdsHigh⟩ := Wrappable.holdsNumber_wrapped mode codec ts src len dst src2 len2 hm hw hts
  refine ⟨?_, hholdsLow, hhigh ▸ hholdsHigh, copied_of_memRead_eq ?_, ?_⟩
  · rw [exec_fwrap_of_wrappable hts hr hw, mem_wrapped, wrapped, hw.hdrWords_wrapHeader hts, hhigh, hplen]
    rfl
  · exact hplen ▸ memRead_payload_wrapped mode codec ts src len dst src2 len2 hm
  · exact hplen ▸ sameOutside_wrapped mode codec ts src len dst src2 len2 hm

/-- Settles O29: the frame's header is the one FWRAP made (R137), whose fields pass FOPEN's tests. -/
theorem wrappedFrameOpens : Obligations.WrappedFrameOpens := by
  intro mode codec ts src len dst src2 len2 s t hm _ ht hft het
  obtain ⟨-, hfit, hw, heq⟩ := fwrap_eq_ok ht hft het
  exact ⟨payloadAddress dst t.res0, toNat_payloadAddress _, hw.exec_fopen_wrapped hm hfit heq⟩

/-- Settles O30: the fields of the header in memory are those of R171, whose `MEMCPY` bit is the decision of R170. -/
theorem memcpyCoherence : Obligations.MemcpyCoherence := by
  intro mode codec ts src len dst src2 len2 s t hm _ ht hft het
  obtain ⟨-, -, hw, rfl⟩ := fwrap_eq_ok ht hft het
  have hheader := (holdsFrame_wrapped mode codec ts src len dst src2 len2 hm).headerOf_eq
  have hpayload := memRead_payload_wrapped mode codec ts src len dst src2 len2 hm
  rw [← flags_headerOf, ← toNat_nBytesComp_headerOf, ← toNat_nBytesOrig_headerOf, hheader, ← isMemcpy_eq_testBit,
    isMemcpy_wrapHeader, hw.toNat_nBytesComp, hw.toNat_nBytesOrig, decide_eq_true_eq, decide_eq_false_iff_not]
  rw [payloadLength_eq] at hpayload ⊢
  refine ⟨Iff.rfl, fun hmc => ?_, fun hmc => ?_⟩
  · rw [if_pos hmc, if_pos hmc] at hpayload
    exact ⟨by rw [if_pos hmc], copied_of_memRead_eq hpayload⟩
  · rw [if_neg hmc]
    omega

/-- Settles O31: on the memcpy path the payload is the data itself and FCLOSE copies it (conflict C1). -/
theorem memcpyFrameRoundTrip : Obligations.MemcpyFrameRoundTrip := by
  intro mode codec ts src len dst src2 len2 out s t u hm hp _ hmc ht hft het hu hout hover
  obtain ⟨-, hfit, hw, heq⟩ := fwrap_eq_ok ht hft het
  rw [hw.exec_fopen_wrapped hm hfit heq, if_pos hmc] at hu
  have hplen : payloadLength len len2 = len.toNat := by rw [payloadLength_eq, if_pos hmc]
  have hsize : s.params.memSize ≤ 2 ^ 64 := of_decide_eq_true (Bool.and_eq_true_iff.1 hp).2
  have hpos := hw.pos
  rw [hplen] at hfit
  have haddr : (payloadAddress dst t.res0).toNat = dst.toNat + 16 := toNat_payloadAddress _ (by omega)
  have hpayload := memRead_payload_wrapped mode codec ts src len dst src2 len2 hm
  rw [hplen, if_pos hmc, ← heq] at hpayload
  have hheader := hdrFields_wrapped heq
  have hparams : t.params = s.params := (exec_keeps_configuration ht).params
  have htm : t.mem.wf = true := by
    rw [heq, mem_wrapped]
    exact wf_memWrite _ _ hm
  cases hu
  refine exec_fclose_delivers (src := payloadAddress dst t.res0) (len := len) ?_ ?_ ?_ ?_ ?_ ?_
  · rw [Fits, success_params, hparams, haddr]
    omega
  · rwa [Fits, success_params, hparams]
  · rwa [haddr]
  · rwa [success_mem]
  · rw [success_hdrLo, success_hdrHi, hheader, hw.toNat_nBytesOrig]
  · rw [success_hdrLo, success_hdrHi, hheader, success_mem, haddr, hpayload, postDecode_of_memcpy]
    rw [isMemcpy_wrapHeader, decide_eq_true hmc]

/-- Settles O32: FWRAP's header records FPRE's mode and type size, so FCLOSE's inverse transform undoes FPRE's forward
one (R108). -/
theorem codecFrameRoundTrip : Obligations.CodecFrameRoundTrip := by
  intro mode codec level ts src len tmp dst blob blen dec out s p w t u hm _ _ hum hp hpf hpe hlt ht hft het hlaw hdec
    hout hover
  have hprepared := fpre_eq_ok hp hpf hpe
  obtain ⟨hts, -, hw, hwrapped⟩ := fwrap_eq_ok ht hft het
  have hheader := hdrFields_wrapped hwrapped
  have hdecoded : memRead u.mem dec.toNat len.toNat =
      forward mode (memRead s.mem src.toNat len.toNat) (clampTypeSize ts) := by
    rw [memRead_congr hlaw, hprepared, memRead_prepared hm]
  refine exec_fclose_delivers hdec hout hover hum ?_ ?_
  · rw [hheader, hw.toNat_nBytesOrig]
  · rw [hheader, hdecoded, postDecode_forward hts hlt]

/-- Settles O33: FOPEN leaves the header and the payload's range in the registers, and on a memcpy header the
pseudo-command closes that range at once (R173). -/
theorem decompressOfMemcpyFrame : Obligations.DecompressOfMemcpyFrame := by
  intro frame len dst tsovr s t hm _ haddr ht hft het hmc comp orig hdst hover
  obtain ⟨hfit, ⟨h16, hle, -⟩, heq⟩ := fopen_eq_ok ht hft het
  have hcomp : (headerOf s.mem frame.toNat).nBytesComp.toNat = comp := toNat_nBytesComp_headerOf ..
  have horig : (headerOf s.mem frame.toNat).nBytesOrig.toNat = orig := toNat_nBytesOrig_headerOf ..
  have hheader : hdrFields (immediateBytes t.hdrLo t.hdrHi) = headerOf s.mem frame.toNat :=
    heq ▸ hdrFields_opened frame len s
  have hmemcpy : isMemcpy (hdrFields (immediateBytes t.hdrLo t.hdrHi)).flags = true := by
    rw [hheader, isMemcpy_eq_testBit, flags_headerOf, hmc]
  have hres0 : t.res0.toNat = frame.toNat + 16 := heq ▸ toNat_payloadAddress len haddr
  have hres1 : t.res1.toNat = comp - 16 := hcomp ▸ heq ▸ toNat_res1_opened frame len s
  have hmem : t.mem = s.mem := by rw [heq, opened, success_mem]
  have hparams : t.params = s.params := (exec_keeps_configuration ht).params
  have hsrc : Fits t t.res0.toNat t.res1.toNat := by
    rw [Fits, hparams, hres0, hres1]
    omega
  have hdst' : Fits t dst.toNat t.res1.toNat := by rwa [Fits, hparams, hres1]
  have hover' : ¬ Overlaps t.res0.toNat t.res1.toNat dst.toNat t.res1.toNat := by rwa [hres0, hres1]
  have hlen : BitVec.ofNat 64 (comp - 16) = t.res1 := by rw [← hres1, BitVec.ofNat_toNat, BitVec.setWidth_eq]
  refine ⟨_, next_decompressWithSize_of_memcpy hft het hmemcpy .., fun hsize => ?_, fun hsize => ?_⟩
  · rw [hlen, ← hres0, ← hres1, ← hmem]
    exact exec_fclose_delivers hsrc hdst' hover' (hmem ▸ hm) (by rw [hres1, hheader, horig, hsize])
      (postDecode_of_memcpy hmemcpy ..)
  · exact exec_fclose_of_size_ne hsrc hdst' hover' (by rwa [hres1, hheader, horig])

end

section
/-! SUPPORT. The fault tests of a command (R46, R47, R214) against the ranges of the table of R48, the ends of a command
(R200, R210, R215), and when `DataTooLarge` arises (R209). -/

namespace Sys2Proof.Machine

open Spec

/-! ## The range tests -/

section
variable {n : Nat} {r : Ranges}

/-- A range that is not in memory is found before any overlap. -/
theorem rangeFault_of_not_fits {x : Nat × Nat} (hx : x ∈ r.srcs ++ r.dst.toList) (h : ¬ x.1 + x.2 ≤ n) :
    rangeFault n r = some .range :=
  if_neg fun hall => h (inRange_iff.1 (List.all_eq_true.1 hall x hx))

section
variable (hfit : ∀ x ∈ r.srcs ++ r.dst.toList, x.1 + x.2 ≤ n)
include hfit

/-- With every range in memory the overlap test decides. -/
theorem rangeFault_of_fits :
    rangeFault n r =
      if r.dst.any (fun d => r.srcs.any fun x => overlap x.1 x.2 d.1 d.2) then some .overlap else none :=
  if_pos (List.all_eq_true.2 fun x hx => inRange_iff.2 (hfit x hx))

theorem rangeFault_of_overlaps {x d : Nat × Nat} (hx : x ∈ r.srcs) (hd : d ∈ r.dst) (h : Overlaps x.1 x.2 d.1 d.2) :
    rangeFault n r = some .overlap :=
  (rangeFault_of_fits hfit).trans
    (if_pos ((Option.any_eq_true ..).2 ⟨d, hd, List.any_eq_true.2 ⟨x, hx, overlap_iff.2 h⟩⟩))

theorem rangeFault_of_disjoint (h : ∀ x ∈ r.srcs, ∀ d ∈ r.dst, ¬ Overlaps x.1 x.2 d.1 d.2) : rangeFault n r = none := by
  refine (rangeFault_of_fits hfit).trans (if_neg fun hany => ?_)
  obtain ⟨d, hd, hsrc⟩ := (Option.any_eq_true ..).1 hany
  obtain ⟨x, hx, hover⟩ := List.any_eq_true.1 hsrc
  exact h x hx d hd (overlap_iff.1 hover)

end

end

/-! ## The ranges a command tests -/

section
variable {i : Instr}

/-- A command that is not in place tests its sources and its destination of R48. -/
theorem commandRanges_of_not_inPlace (h : inPlace i = false) : commandRanges i = ⟨readRanges i, writeRange i⟩ := by
  cases i
  case shufip | unshufip => cases h
  case fwrap =>
    rw [commandRanges, rangesWrap, payloadLength_eq]
    rfl
  all_goals rfl

/-- An in-place command tests its one range and has no destination to overlap (R47). -/
theorem commandRanges_of_inPlace (h : inPlace i = true) :
    commandRanges i = ⟨readRanges i, none⟩ ∧ (writeRange i).toList = readRanges i := by
  cases i
  case shufip | unshufip => exact ⟨rfl, rfl⟩
  all_goals cases h

/-- The ranges tested against `MEM_SIZE` are those of R48. -/
theorem mem_commandRanges_iff {x : Nat × Nat} :
    x ∈ (commandRanges i).srcs ++ (commandRanges i).dst.toList ↔ x ∈ readRanges i ++ (writeRange i).toList := by
  cases h : inPlace i with
  | false => rw [commandRanges_of_not_inPlace h]
  | true =>
    obtain ⟨hranges, hwrite⟩ := commandRanges_of_inPlace h
    simp [hranges, hwrite]

/-- The overlaps tested are those of R47. -/
theorem overlapViolation_iff :
    OverlapViolation i ↔ ∃ x ∈ (commandRanges i).srcs, ∃ d ∈ (commandRanges i).dst, Overlaps x.1 x.2 d.1 d.2 := by
  cases h : inPlace i with
  | false => simp [OverlapViolation, h, commandRanges_of_not_inPlace h]
  | true => simp [OverlapViolation, h, (commandRanges_of_inPlace h).1]

variable {s : State}

/-- Without a range violation every tested range lies in memory. -/
theorem fits_of_not_rangeViolation (h : ¬ RangeViolation i s) :
    ∀ x ∈ (commandRanges i).srcs ++ (commandRanges i).dst.toList, Fits s x.1 x.2 := fun x hx =>
  not_not.1 fun hfit => h ⟨x, mem_commandRanges_iff.1 hx, hfit⟩

theorem rangeFault_of_rangeViolation (h : RangeViolation i s) :
    rangeFault s.params.memSize (commandRanges i) = some .range := by
  obtain ⟨x, hx, hfit⟩ := h
  exact rangeFault_of_not_fits (mem_commandRanges_iff.2 hx) hfit

theorem rangeFault_of_overlapViolation (hrange : ¬ RangeViolation i s) (h : OverlapViolation i) :
    rangeFault s.params.memSize (commandRanges i) = some .overlap := by
  obtain ⟨x, hx, d, hd, hover⟩ := overlapViolation_iff.1 h
  exact rangeFault_of_overlaps (fits_of_not_rangeViolation hrange) hx hd hover

theorem rangeFault_of_clear (hrange : ¬ RangeViolation i s) (h : ¬ OverlapViolation i) :
    rangeFault s.params.memSize (commandRanges i) = none :=
  rangeFault_of_disjoint (fits_of_not_rangeViolation hrange) fun x hx d hd hover =>
    h (overlapViolation_iff.2 ⟨x, hx, d, hd, hover⟩)

end

/-! ## The ends of a command -/

/-- A reserved encoding faults before anything else is tested (R214). -/
theorem exec_of_not_wf {i : Instr} (h : i.wf = false) (s : State) : exec i s = .next (faultEnd s .reserved) := by
  rw [exec_eq, if_neg (Bool.eq_false_iff.1 h)]
  rfl

/-- Every command on every state answers a next state. -/
theorem exists_exec_eq_next (i : Instr) (s : State) : ∃ t, exec i s = .next t := by
  rw [exec_eq]
  split
  · split
    · exact ⟨_, rfl⟩
    · split
      · exact ⟨_, rfl⟩
      · exact ⟨_, rfl⟩
  · exact ⟨_, rfl⟩

/-- The effect's end is a success end: it writes memory and the result registers at most (R25). -/
theorem succeed_apply_eq_success (e : Effect) (s : State) :
    (e.apply s).succeed = success s (e.mem s.mem) (e.res0.getD s.res0) (e.res1.getD s.res1)
      ((e.hdr.map Prod.fst).getD s.hdrLo) ((e.hdr.map Prod.snd).getD s.hdrHi) := rfl

/-- An error that was not there before is the command's own, found once its fault tests have passed. -/
theorem exec_eq_error {i : Instr} {s t : State} (h : exec i s = .next t) {k : ErrKind} (ht : t.status.err = k)
    (hs : s.status.err ≠ k) (hk : k ≠ .ok) :
    rangeFault s.params.memSize (commandRanges i) = none ∧ Effect.of s i = .error k := by
  rw [exec_eq] at h
  split at h
  · split at h
    · cases h
      exact absurd ht hs
    · next hr =>
      split at h
      · next k' he =>
        cases h
        exact ⟨hr, he.trans (congrArg _ ht)⟩
      · cases h
        exact absurd ht.symm hk
  · cases h
    exact absurd ht hs

/-! ## `DataTooLarge` (R209) -/

/-- Two disjoint ranges of one length in memory need twice that length. -/
theorem two_mul_le_of_rangeFault_srcDst {n : Nat} {src len dst : Word}
    (h : rangeFault n (rangesSrcDst src len dst) = none) : 2 * len.toNat ≤ n := by
  rw [rangeFault_srcDst] at h
  split at h
  · split at h
    · cases h
    · omega
  · cases h

theorem lt_of_encodeChecks_eq_dataTooLarge {s : State} {len : Word} {codec : Byte}
    (h : encodeChecks s len codec = .error .dataTooLarge) : 2 ^ 32 - 1 < len.toNat := by
  rcases encodeChecks_cases s len codec with ⟨-, he⟩ | ⟨hbig, -⟩ | ⟨-, -, -, he⟩ | ⟨-, -, -, he⟩
  · cases he.symm.trans h
  · exact hbig
  · cases he.symm.trans h
  · cases he.symm.trans h

/-- FPRE's own errors are those of the encode-side checks (R169). -/
theorem encodeChecks_of_effect_fpre {mode : Mode} {codec level : Byte} {ts : BitVec 32} {src len dst : Word} {s : State}
    {k : ErrKind} (h : Effect.of s (.fpre mode codec level ts src len dst) = .error k) :
    encodeChecks s len codec = .error k := by
  simp only [Effect.of] at h
  split at h
  · next k' hchecks => rw [hchecks, Except.error.inj h]
  · cases h

/-- A memory of `2^32 + 23` bytes: room for `2^32` bytes of data and, behind them, a header with a 7-byte payload. -/
def dataAndShortFrameMemory : State :=
  State.afterReset { Params.initial with memSize := 2 ^ 32 + 23 } [] [] 0#64

theorem exec_fwrap_dataAndShortFrameMemory :
    exec (.fwrap .noShuffle 1 4 0 (BitVec.ofNat 64 (2 ^ 32)) (BitVec.ofNat 64 (2 ^ 32)) 0 7) dataAndShortFrameMemory =
      .next (errorEnd dataAndShortFrameMemory .dataTooLarge) :=
  exec_fwrap_of_error (by decide) ((rangeFault_wrap ..).trans (by decide))
    (encodeChecks_of_encodeError (.inr (.inl ⟨by decide, rfl⟩)))

end Sys2Proof.Machine
end

section
/-! SUPPORT. The faulted engine (R215, R246): a push is discarded, and no host action but reset reaches `STATUS`, the
result registers or the assembly buffer. -/

namespace Sys2Proof.Machine

/-- What a fault freezes until reset: `STATUS`, the assembly buffer and the result registers (R215). -/
structure State.SameEngine (s t : State) : Prop where
  status : t.status = s.status
  asm : t.asm = s.asm
  res0 : t.res0 = s.res0
  res1 : t.res1 = s.res1
  hdrLo : t.hdrLo = s.hdrLo
  hdrHi : t.hdrHi = s.hdrHi

/-- A push is discarded while the engine is faulted or busy (R215, R246). -/
theorem push_of_not_ready {s : State} (h : s.status.fault.isSome = true ∨ s.status.busy = true) (w : Word) :
    push w s = .next s :=
  if_pos (Bool.or_eq_true_iff.2 h)

/-- A host action other than reset keeps a faulted engine, and its memory unless it writes there. -/
theorem hostAct_keeps_faulted {a : HostAction} {s t : State} (h : hostAct a s = .next t)
    (hf : s.status.fault.isSome = true) (hreset : a ≠ .reset) :
    s.SameEngine t ∧ ((∀ addr bytes, a ≠ .writeBuf addr bytes) → t.mem = s.mem) := by
  rcases hostAct_cases h with ⟨w, -, hp⟩ | ⟨offset, v, -, -, rfl⟩ | ⟨offset, -, rfl⟩ |
    ⟨addr, bytes, rfl, -, -, rfl⟩ | ⟨addr, -, -, -, rfl⟩ | ⟨rfl, -⟩
  · cases (push_of_not_ready (.inl hf) w).symm.trans hp
    exact ⟨⟨rfl, rfl, rfl, rfl, rfl, rfl⟩, fun _ => rfl⟩
  · obtain ⟨-, hmem, h0, h1, hlo, hhi, hstatus, -, hasm, -⟩ := writeRegister_keeps offset v s
    exact ⟨⟨hstatus, hasm, h0, h1, hlo, hhi⟩, fun _ => hmem⟩
  · exact ⟨⟨rfl, rfl, rfl, rfl, rfl, rfl⟩, fun _ => rfl⟩
  · exact ⟨⟨rfl, rfl, rfl, rfl, rfl, rfl⟩, fun hbuf => absurd rfl (hbuf addr bytes)⟩
  · exact ⟨⟨rfl, rfl, rfl, rfl, rfl, rfl⟩, fun _ => rfl⟩
  · exact absurd rfl hreset

end Sys2Proof.Machine
end

section
/-! The obligations of the exceptions' family. -/

open Sys2Proof Sys2Proof.Machine Sys2Proof.Spec

/-- Settles O34: FPRE's source and destination are disjoint and both `LEN` bytes long; FWRAP's destination holds the
shorter payload only, so `2^32` bytes of data and a 7-byte blob fit a memory of `2^32 + 23` bytes. -/
theorem dataTooLargeAndMemorySize : Obligations.DataTooLargeAndMemorySize := by
  refine ⟨fun mode codec level ts src len dst s t hs h ht => ?_,
    dataAndShortFrameMemory, _, _, _, State.inv_afterReset [] 0#64 (by decide) (by decide) (by decide), by decide,
    exec_fwrap_dataAndShortFrameMemory⟩
  obtain ⟨hr, he⟩ := exec_eq_error h ht hs (by decide)
  have hlen := lt_of_encodeChecks_eq_dataTooLarge (encodeChecks_of_effect_fpre he)
  have hroom : 2 * len.toNat ≤ s.params.memSize := two_mul_le_of_rangeFault_srcDst hr
  omega

/-- Settles O36: every command answers a next state, and the three ways it does so are the three ends. -/
theorem commandsEndInOneOfThreeWays : Obligations.CommandsEndInOneOfThreeWays := by
  intro i s
  obtain ⟨t, h⟩ := exists_exec_eq_next i s
  rcases exec_cases h with ⟨c, rfl⟩ | ⟨k, hk, rfl⟩ | ⟨e, -, -, rfl⟩
  · exact .inr (.inr ⟨c, h⟩)
  · exact .inr (.inl ⟨k, fun hok => ok_notMem_raises i (hok ▸ hk), h⟩)
  · exact .inl ⟨_, _, _, _, _, h.trans (congrArg _ (succeed_apply_eq_success e s))⟩

/-- Settles O37: only an effect writes memory or a result register, and it ends with neither an error nor a fault. -/
theorem noPartialResults : Obligations.NoPartialResults := by
  intro i s t hf h hend
  rcases exec_cases h with ⟨c, rfl⟩ | ⟨k, -, rfl⟩ | ⟨e, -, -, rfl⟩
  · exact ⟨rfl, rfl, rfl, rfl, rfl⟩
  · exact ⟨rfl, rfl, rfl, rfl, rfl⟩
  · have hfault : (e.apply s).succeed.status.fault = none := hf
    rcases hend with hsome | herr
    · rw [hfault] at hsome
      cases hsome
    · exact absurd rfl herr

/-- Settles O38: the tests of R214 in their order, on the ranges of R48; none looks at the data. -/
theorem faultTestsComeFirst : Obligations.FaultTestsComeFirst := fun _ s =>
  ⟨fun hwf => exec_of_not_wf hwf s, fun hwf hrange => exec_of_rangeFault hwf (rangeFault_of_rangeViolation hrange),
    fun hwf hrange hover => exec_of_rangeFault hwf (rangeFault_of_overlapViolation hrange hover)⟩

/-- Settles O39: past the fault tests a command returns one of its listed errors or has its effect. -/
theorem dataNeverFaults : Obligations.DataNeverFaults := by
  intro i s ⟨hwf, hrange, hover⟩
  have hr := rangeFault_of_clear hrange hover
  cases he : Effect.of s i with
  | error k => exact ⟨_, exec_of_error hwf hr he, rfl, rfl, .inr (Effect.mem_raises_of_error he)⟩
  | ok e => exact ⟨_, exec_of_effect hwf hr he, rfl, rfl, .inl rfl⟩

/-- Settles O49: a step is the host's next action, and no action but reset changes what a fault freezes. -/
theorem faultIsStickyUntilReset : Obligations.FaultIsStickyUntilReset := by
  refine ⟨fun s v rest hstop hh => (step_push hh).trans (push_of_not_ready (s := { s with host := rest }) hstop v),
    fun s t hf h hreset => ?_⟩
  rcases step_cases h with ⟨-, rfl⟩ | ⟨a, rest, hh, ha⟩
  · exact ⟨rfl, rfl, rfl, rfl, rfl, rfl, fun _ => rfl⟩
  · have hkeeps := hostAct_keeps_faulted ha hf fun hr => hreset rest (hr ▸ hh)
    obtain ⟨⟨hstatus, hasm, h0, h1, hlo, hhi⟩, hmem⟩ := hkeeps
    exact ⟨hstatus, hasm, h0, h1, hlo, hhi, fun hbuf => hmem fun addr bytes hw => hbuf addr bytes rest (hw ▸ hh)⟩
end

section
/-! SUPPORT. What the hazard rules rest on: a word short of the sixth has a place in the assembly buffer (R18), and a locked
registry is out of reach of register writes, of the port and of commands (R15, R243). -/

namespace Sys2Proof.Machine

/-- Every buffer short of five words takes another, and is then not empty (R18). -/
theorem AsmBuffer.exists_extend_eq_some {a : AsmBuffer} (h : ∀ w0 w1 w2 w3 w4, a ≠ .five w0 w1 w2 w3 w4) (w : Word) :
    ∃ b, b ≠ .empty ∧ a.extend w = some b := by
  cases a with
  | five w0 w1 w2 w3 w4 => exact absurd rfl (h w0 w1 w2 w3 w4)
  | _ => exact ⟨_, by simp, rfl⟩

/-- A register write does nothing while `LOCK = 1`: the registry ignores it and `LOCK` only rises (R15, R24). -/
theorem writeRegister_of_lock {s : State} (h : s.lock = true) (offset : Nat) (v : Word) :
    writeRegister offset v s = s := by
  unfold writeRegister
  split
  case h_1 => rw [h, Bool.true_or, ← h]
  case h_6 => rfl
  all_goals exact if_pos h

/-- `t` is locked, with the registry of `s`. -/
structure State.LockedRegistry (s t : State) : Prop where
  lock : t.lock = true
  codecMask0 : t.codecMask0 = s.codecMask0
  codecMask1 : t.codecMask1 = s.codecMask1
  codecMask2 : t.codecMask2 = s.codecMask2
  codecMask3 : t.codecMask3 = s.codecMask3

/-- An issued descriptor, malformed or not, leaves the registry locked as the acceptance set it. -/
theorem issue_accept_keeps_registry {d : Descriptor} {s t : State} (h : issue d s.accept = .next t) :
    s.LockedRegistry t := by
  rcases issue_cases h with ⟨i, -, hi⟩ | ⟨c, -, rfl⟩
  · have hc := exec_keeps_configuration hi
    exact ⟨hc.lock, hc.codecMask0, hc.codecMask1, hc.codecMask2, hc.codecMask3⟩
  · exact ⟨rfl, rfl, rfl, rfl, rfl⟩

/-- A push keeps a locked registry. -/
theorem push_keeps_registry {w : Word} {s t : State} (h : push w s = .next t) (hl : s.lock = true) :
    s.LockedRegistry t := by
  rcases push_cases h with ⟨-, rfl⟩ | ⟨-, -, ⟨a, -, rfl⟩ | ⟨_, _, _, _, _, -, hi⟩⟩
  · exact ⟨hl, rfl, rfl, rfl, rfl⟩
  · exact ⟨hl, rfl, rfl, rfl, rfl⟩
  · exact issue_accept_keeps_registry hi

/-- A host action other than reset keeps a locked registry (R243). -/
theorem hostAct_keeps_registry {a : HostAction} {s t : State} (h : hostAct a s = .next t) (hl : s.lock = true)
    (hreset : a ≠ .reset) : s.LockedRegistry t := by
  rcases hostAct_cases h with ⟨w, -, hp⟩ | ⟨offset, v, -, -, rfl⟩ | ⟨offset, -, rfl⟩ |
    ⟨addr, bytes, -, -, -, rfl⟩ | ⟨addr, -, -, -, rfl⟩ | ⟨rfl, -⟩
  · exact push_keeps_registry hp hl
  · rw [writeRegister_of_lock hl]
    exact ⟨hl, rfl, rfl, rfl, rfl⟩
  · exact ⟨hl, rfl, rfl, rfl, rfl⟩
  · exact ⟨hl, rfl, rfl, rfl, rfl⟩
  · exact ⟨hl, rfl, rfl, rfl, rfl⟩
  · exact absurd rfl hreset

end Sys2Proof.Machine
end

section
/-! The obligations of reset and hazards. -/

open Sys2Proof Sys2Proof.Machine

/-- Settles O50: a step is the host's next action, and no action but reset reaches a locked registry. -/
theorem lockFreezesRegistry : Obligations.LockFreezesRegistry := by
  intro s t hl h hreset
  rcases step_cases h with ⟨-, rfl⟩ | ⟨a, rest, hh, ha⟩
  · exact ⟨hl, rfl, rfl, rfl, rfl⟩
  · obtain ⟨hlock, h0, h1, h2, h3⟩ := hostAct_keeps_registry ha hl fun hr => hreset rest (hr ▸ hh)
    exact ⟨hlock, h0, h1, h2, h3⟩

/-- Settles O48: the step is a push, and the buffer it extends is short of five words. -/
theorem partialDescriptorHasNoEffect : Obligations.PartialDescriptorHasNoEffect := by
  intro s v rest hready hh hshort
  obtain ⟨a, hne, ha⟩ := AsmBuffer.exists_extend_eq_some hshort v
  exact ⟨a, hne, (step_push hh).trans (push_of_extend (s := { s with host := rest }) hready ha)⟩
end

section
/-! The obligation of the sample descriptors. -/

open Sys2Proof Sys2Proof.Machine

/-- Settles O4: six samples encode well-formed commands; three fail a test of the opcode map (R64, R65, R67). -/
theorem sampleDescriptorsDecode : Obligations.SampleDescriptorsDecode := by
  obtain ⟨hopcode, -, -, -, -, hshufip, -, -, -, -, -, -, -, -, -, -, -, hfwrap⟩ := decodeFollowsOpcodeMap
  have hmode3 : decode ⟨0x0000000400000305, 0x100, 0xA, 0, 0, 0⟩ = .error .reserved :=
    (hshufip _ rfl).trans (if_neg fun ⟨_, hmode, _⟩ => hmode rfl)
  have hts256 : decode ⟨0x0000010000010123, 0x100, 4, 0x200, 0x300, 0⟩ = .error .reserved :=
    (hfwrap _ rfl).trans (if_neg fun ⟨_, _, _, hts⟩ => absurd hts (by decide))
  exact ⟨decode_encode (i := .shuf 4 0x100 10 0x200) rfl,
    decode_encode (i := .shufip .bitShuffle 2 0x100 19) rfl,
    decode_encode (i := .hser 0x300 0x0000010001000102 0x0000011000000100) rfl,
    decode_encode (i := .fclose 4 0x100 8 0x200 0x0000000802010102 0x0000001400000008) rfl,
    decode_encode (i := .fpre .bitShuffle 5 0xFD 0 0x100 12 0x200) rfl,
    decode_encode (i := .fwrap .byteShuffle 1 4 0x100 12 0x300 0x280 7) rfl,
    hopcode _ (by decide), hmode3, hts256⟩
end
